-- ==== Sys2Proof/Word.lean ====
section
/-! DEFINITION. The word and byte types of BRLE (00_scope.md R7, section 5). -/

namespace Sys2Proof

/-- A bus word and a register as the host reads it: 32 bits (00_scope.md R7, 20_memory.md R42). -/
abbrev Word := BitVec 32

/-- A pixel byte and an output byte: 8 bits (00_scope.md section 5). -/
abbrev Byte := BitVec 8

end Sys2Proof
end

