-- ==== Sys2Proof/Config.lean ====
section
/-! DEFINITION. What an implementation fixes (00_scope.md R5, R6; the host's two parameters, R87, R93) and the free
values: constants without a body, so that nothing can be proved about what they are. -/

namespace Sys2Proof

/-- The block's one parameter: `NMAX`, the capacity of `IN` in bytes (00_scope.md R5). -/
structure Config where
  nmax : Nat
  deriving DecidableEq, Repr

/-- The value of `NMAX` that the spec's examples use (R5). DESIGN CHOICE for `State.reset`, see log 2. -/
def Config.standard : Config := ⟨65536⟩

/-- `PMAX`, the capacity of `PKT` in packets (R6). -/
def Config.pmax (c : Config) : Nat := 8 * c.nmax

/-- `KMAX`, the capacity of `TBL` in entries (R6). -/
def Config.kmax (c : Config) : Nat := c.pmax

/-- `OMAX`, the capacity of `OUT` in bytes, `ceil(PMAX * 23 / 8)` (R6). -/
def Config.omax (c : Config) : Nat := (c.pmax * 23 + 7) / 8

/-- What an entry of `IN` that nothing has written holds: any value (93_implementation_defined.md U10; log 4).
The arguments are the count of clears so far and the index. -/
opaque Config.freeInByte : Nat → Nat → Byte

/-- What an entry of `OUT` that nothing has written holds: any value (U10; log 4). -/
opaque Config.freeOutByte : Nat → Nat → Byte

/-- The `length` of an entry of `PKT` that nothing has written: any 32-bit value (U10; log 4). -/
opaque Config.freeLength : Nat → Nat → Word

/-- The `bitValue` of an entry of `PKT` that nothing has written: any bit (U10; log 4). -/
opaque Config.freeBitValue : Nat → Nat → Bool

/-- The `runLength` of an entry of `TBL` that nothing has written: any 32-bit value (U10; log 4). -/
opaque Config.freeRunLength : Nat → Nat → Word

/-- The `count` of an entry of `TBL` that nothing has written: any 32-bit value (U10; log 4). -/
opaque Config.freeCount : Nat → Nat → Word

/-- Whether the host's loader accepts a file that goes on after its pixels: any value (U18; log 17).
The argument is the data after the last pixel. -/
opaque Config.acceptsTrailing : List Byte → Bool

/-- The parameters of the host agent (00_scope.md section 5; 40_host_loader_serializer.md R87, R93, R95). -/
structure HostParams where
  /-- whether a pixel above `maxGray` is rejected (R87, R92) -/
  validatePixels : Bool
  /-- the exit status of `IOError` (R93) -/
  ioErrorExit : Nat
  /-- whether the driver does the optional step 8 of R95, reading the decode side information (R91) -/
  readSide : Bool
  deriving DecidableEq, Repr

end Sys2Proof
end

