-- ==== Sys2Proof/Syntax.lean ====
section
/-! DEFINITION. The nine commands (30_encoding.md R69), one constructor per row of spec/opcode_table.json. -/

namespace Sys2Proof

/-- A command of the block. `PUSH` carries `imm8` (R65), `LOOKUP` carries `imm24` (R66), the others nothing (R68);
the operands' types admit exactly the values their fields hold. -/
inductive Instr where
  | nop
  | clr
  | push (imm8 : Byte)
  | enc
  | rank
  | build
  | pack
  | run
  | lookup (imm24 : BitVec 24)
  deriving DecidableEq, Repr

end Sys2Proof
end

