-- ==== Sys2Proof/WellFormed.lean ====
section
/-! DEFINITION. What makes a term of the syntax or of the configuration well formed: the range of `NMAX` (00_scope.md
R5), the host's parameters (40_host_loader_serializer.md R93) and the operand ranges of a command line
(30_encoding.md R73). -/

namespace Sys2Proof

/-- `1 <= NMAX <= 2^20` (00_scope.md R5). -/
abbrev Config.wf (c : Config) : Prop := 1 ≤ c.nmax ∧ c.nmax ≤ 2 ^ 20

/-- `ioErrorExit` is any status other than 0, 10 and 11 (40_host_loader_serializer.md R93). -/
abbrev HostParams.wf (p : HostParams) : Prop := p.ioErrorExit ≠ 0 ∧ p.ioErrorExit ≠ 10 ∧ p.ioErrorExit ≠ 11

/-- `PUSH b` is a line when `0 <= b <= 255` (R73). -/
abbrev pushOperandWf (b : Nat) : Prop := b ≤ 255

/-- `LOOKUP n` is a line when `0 <= n < 2^24` (R73). -/
abbrev lookupOperandWf (n : Nat) : Prop := n < 2 ^ 24

/-- A command is well formed when its operand, as a number, is one its field holds (R65, R66, R73). With operands of
8 and 24 bits this holds of every `Instr`; a line's number is checked before it becomes one (Machine/Script.lean). -/
abbrev Instr.wf : Instr → Prop
  | .push b => pushOperandWf b.toNat
  | .lookup n => lookupOperandWf n.toNat
  | .nop | .clr | .enc | .rank | .build | .pack | .run => True

end Sys2Proof
end

