-- ==== Sys2Proof/Decode.lean ====
section
/-! DEFINITION. Decoding a command word (30_encoding.md R63 to R70) and, after it, encoding a command, both written from
the formats of R63 and the map of R69. A command word is the value of one bus write, not bytes in a memory (R57). -/

namespace Sys2Proof

/-- Why a word is illegal (R70). -/
inductive IllegalWord where
  /-- `w[7:0] >= 0x09`: the opcode is not in the map -/
  | opcode
  /-- a must-be-zero bit of format Z or B is 1 -/
  | mustBeZero
  deriving DecidableEq, Repr

/-- `op = w[7:0]` (R63). -/
def opField (w : Word) : BitVec 8 := w.extractLsb' 0 8

/-- `imm8 = w[15:8]` (R65). -/
def imm8Field (w : Word) : Byte := w.extractLsb' 8 8

/-- `imm24 = w[31:8]` (R66); in format Z the must-be-zero field (R63). -/
def imm24Field (w : Word) : BitVec 24 := w.extractLsb' 8 24

/-- `w[31:16]`, the must-be-zero field of format B (R63). -/
def highField (w : Word) : BitVec 16 := w.extractLsb' 16 16

/-- Format Z: no operand, `w[31:8] = 0` (R63). -/
def formatZ (i : Instr) (w : Word) : Except IllegalWord Instr :=
  if imm24Field w = 0 then .ok i else .error .mustBeZero

/-- Format B: one byte operand, `w[31:16] = 0` (R63). -/
def formatB (i : Byte → Instr) (w : Word) : Except IllegalWord Instr :=
  if highField w = 0 then .ok (i (imm8Field w)) else .error .mustBeZero

/-- Format L: one 24-bit operand, no must-be-zero bit (R63). -/
def formatL (i : BitVec 24 → Instr) (w : Word) : Except IllegalWord Instr := .ok (i (imm24Field w))

/-- Decoding (R64): the opcode selects the row, the row's format says which bits must be zero. -/
def decode (w : Word) : Except IllegalWord Instr :=
  match (opField w).toNat with
  | 0x00 => formatZ .nop w
  | 0x01 => formatZ .clr w
  | 0x02 => formatB .push w
  | 0x03 => formatZ .enc w
  | 0x04 => formatZ .rank w
  | 0x05 => formatZ .build w
  | 0x06 => formatZ .pack w
  | 0x07 => formatZ .run w
  | 0x08 => formatL .lookup w
  | _ => .error .opcode

/-- The opcode of a command, the `op` column of R69. -/
def Instr.op : Instr → BitVec 8
  | .nop => 0x00
  | .clr => 0x01
  | .push _ => 0x02
  | .enc => 0x03
  | .rank => 0x04
  | .build => 0x05
  | .pack => 0x06
  | .run => 0x07
  | .lookup _ => 0x08

/-- The bits above the opcode, by the formats of R63. -/
def Instr.upper : Instr → BitVec 24
  | .push imm8 => (0 : BitVec 16) ++ imm8
  | .lookup imm24 => imm24
  | .nop | .clr | .enc | .rank | .build | .pack | .run => 0

/-- The word of a command (R63, R69, R73). -/
def encode (i : Instr) : Word := i.upper ++ i.op

/-- The instruction the decoder reads from the table's word `w` of `nbits` bits, the bits above `nbits` being 0. -/
def decodeTableWord (nbits w : Nat) : Option Instr :=
  (decode (BitVec.ofNat 32 (w % 2 ^ nbits))).toOption

/-- The `match` column of R69. -/
def Instr.matchBits : Instr → Word
  | .nop => 0x00000000
  | .clr => 0x00000001
  | .push _ => 0x00000002
  | .enc => 0x00000003
  | .rank => 0x00000004
  | .build => 0x00000005
  | .pack => 0x00000006
  | .run => 0x00000007
  | .lookup _ => 0x00000008

/-- The `mask` column of R69. -/
def Instr.maskBits : Instr → Word
  | .push _ => 0xFFFF00FF
  | .lookup _ => 0x000000FF
  | .nop | .clr | .enc | .rank | .build | .pack | .run => 0xFFFFFFFF

end Sys2Proof
end

