-- ==== Sys2Proof/Machine/State.lean ====
section
/-! DEFINITION. The state of BRLE as plain data (10_state.md), the events the host delivers, the reasons a step could
stop, and the state after reset (R34). -/

namespace Sys2Proof.Machine

/-- `STATUS.PHASE` (10_state.md R26); the values 5 to 7 are never taken, so they have no constructor. -/
inductive Phase where
  | load
  | encoded
  | ranked
  | built
  | packed
  deriving DecidableEq, Repr

/-- The six sticky flags of `ERR` (R12), bit 0 first. -/
structure Err where
  ovf : Bool
  seq : Bool
  ill : Bool
  nf : Bool
  idx : Bool
  addr : Bool
  deriving DecidableEq, Repr

/-- The name of a flag of `ERR`; its code is its bit number (60_exceptions.md R162 to R166). -/
inductive ErrFlag where
  | ovf
  | seq
  | ill
  | nf
  | idx
  | addr
  deriving DecidableEq, Repr

/-- `LKP` (R18): the code found in bits 30:0, the miss flag in bit 31. -/
structure Lkp where
  code : BitVec 31
  nf : Bool
  deriving DecidableEq, Repr

/-- `RLE_BIT` (R23): the current bit value, the sentinel flag, the discard flag. -/
structure RleBit where
  bit : Bool
  none : Bool
  drop : Bool
  deriving DecidableEq, Repr

/-- `WSTATE` (R24): the accumulator byte and the bit cursor. -/
structure WState where
  acc : Byte
  cur : BitVec 3
  deriving DecidableEq, Repr

/-- An entry of `PKT` (R28). -/
structure RunPacket where
  length : Nat
  bitValue : Bool
  deriving DecidableEq, Repr

/-- An entry of `TBL` (R29). -/
structure FreqEntry where
  runLength : Nat
  count : Nat
  deriving DecidableEq, Repr

/-- A memory: the entries something has written, by index, in the canonical form `Mem.wf` (log 4). -/
abbrev Mem (α : Type) := List (Nat × α)

/-- A memory of bytes, a list of `Host.Cell`. -/
abbrev Memory := List Host.Cell

/-- What reaches the block from outside, one event a step (00_scope.md R4, 70_reset_and_hazards.md R186, R188). -/
inductive BusEvent where
  /-- `RD`: a read at a bus address whose upper bits have selected the block (20_memory.md R41) -/
  | read (addr : Nat)
  /-- `WR`: a write of a 32-bit word (R42) -/
  | write (addr : Nat) (value : Word)
  /-- the reset input asserted and released between two transactions (R186) -/
  | reset
  /-- the reset input asserted while the block executes this write (R188) -/
  | writeCutByReset (addr : Nat) (value : Word)
  deriving DecidableEq, Repr

/-- The block's registers and memories, then the model's own fields. Counts and lengths are naturals (00_scope.md R7,
log 3). -/
structure State where
  /-- `NMAX`, a parameter of the model that no step changes (R5, R35; log 2) -/
  cfg : Config
  phase : Phase
  err : Err
  nbytes : Nat
  npkt : Nat
  k : Nat
  codewidth : Nat
  nout : Nat
  lkp : Lkp
  sel : BitVec 2
  idx : Word
  rleLen : Nat
  rleBit : RleBit
  wstate : WState
  inMem : Memory
  pkt : Mem RunPacket
  tbl : Mem FreqEntry
  out : Memory
  /-- the model's own: how often the memories' contents have become unspecified (log 5) -/
  draws : Nat
  /-- the model's own: what the host has yet to deliver, oldest first (log 1) -/
  bus : List BusEvent
  /-- the model's own: the words the host's reads have returned, oldest first (log 6) -/
  replies : List Word
  deriving DecidableEq, Repr

/-- Why the machine would stop with a fault: never. The block has no trap (60_exceptions.md R160); every error is a flag
of `ERR` and the machine goes on, so no constructor is needed (log 11; safe). -/
inductive Fault where
  deriving DecidableEq, Repr

/-- Why a step would have no meaning in this model. -/
inductive Refusal where
  /-- raised by an arm of `exec` for an instruction that has no meaning yet; no arm does (safe) -/
  | notModelled (mnemonic : String)
  deriving DecidableEq, Repr

/-- The reset state of a block of configuration `c` (10_state.md R34), with no event pending and no word returned. -/
def State.resetWith (c : Config) : State where
  cfg := c
  phase := .load
  err := ⟨false, false, false, false, false, false⟩
  nbytes := 0
  npkt := 0
  k := 0
  codewidth := 0
  nout := 0
  lkp := ⟨0, false⟩
  sel := 0
  idx := 0
  rleLen := 0
  rleBit := ⟨false, true, true⟩
  wstate := ⟨0, 0⟩
  inMem := []
  pkt := []
  tbl := []
  out := []
  draws := 0
  bus := []
  replies := []

/-- The machine right after reset (R34, 70_reset_and_hazards.md R186), for the `NMAX` of the spec's examples (log 2). -/
def State.reset : State := State.resetWith Config.standard

end Sys2Proof.Machine
end

