-- ==== Sys2Proof/Machine/Flags.lean ====
section
/-! DEFINITION. The flags: raising one (60_exceptions.md R160), `FATAL` (R169), and the words of `STATUS` and `ERR`. -/

namespace Sys2Proof.Machine

/-- `ERR` with one more flag set; a flag already set stays set (R168). -/
def Err.set (e : Err) : ErrFlag → Err
  | .ovf => { e with ovf := true }
  | .seq => { e with seq := true }
  | .ill => { e with ill := true }
  | .nf => { e with nf := true }
  | .idx => { e with idx := true }
  | .addr => { e with addr := true }

/-- One flag of `ERR`. -/
def Err.get (e : Err) : ErrFlag → Bool
  | .ovf => e.ovf
  | .seq => e.seq
  | .ill => e.ill
  | .nf => e.nf
  | .idx => e.idx
  | .addr => e.addr

/-- `raise ERR.X`: exactly `ERR.X <- 1` (R160). It is the block's whole exception mechanism: nothing is saved, no mode
changes, no control is transferred. -/
def State.raise (s : State) (f : ErrFlag) : State := { s with err := s.err.set f }

/-- `FATAL = ERR.OVF OR ERR.NF`, not stored (R169, 10_state.md R11). -/
def State.fatal (s : State) : Bool := s.err.ovf || s.err.nf

/-- The three bits of `PHASE` (R26). -/
def Phase.bits : Phase → BitVec 3
  | .load => 0
  | .encoded => 1
  | .ranked => 2
  | .built => 3
  | .packed => 4

/-- How far the pipeline has run, as the number of R26. -/
def Phase.number (p : Phase) : Nat := p.bits.toNat

/-- `STATUS` (R11): `PHASE` in bits 2:0, `FATAL` in bit 3, the rest 0. -/
def State.statusWord (s : State) : Word := (0 : BitVec 28) ++ BitVec.ofBool s.fatal ++ s.phase.bits

/-- `ERR` (R12): flag of code n in bit n, bits 31:6 read 0. -/
def Err.word (e : Err) : Word :=
  (0 : BitVec 26) ++ BitVec.ofBool e.addr ++ BitVec.ofBool e.idx ++ BitVec.ofBool e.nf ++ BitVec.ofBool e.ill
    ++ BitVec.ofBool e.seq ++ BitVec.ofBool e.ovf

/-- `LKP` (R18): the miss flag in bit 31, the code in bits 30:0. -/
def Lkp.word (l : Lkp) : Word := BitVec.ofBool l.nf ++ l.code

/-- `RLE_BIT` (R23): `BIT`, `NONE`, `DROP` in bits 0, 1, 2; `BIT` reads 0 while `NONE` is 1. -/
def RleBit.word (r : RleBit) : Word :=
  (0 : BitVec 29) ++ BitVec.ofBool r.drop ++ BitVec.ofBool r.none ++ BitVec.ofBool (r.bit && !r.none)

/-- `WSTATE` (R24): the accumulator in bits 7:0, the cursor in bits 10:8. -/
def WState.word (w : WState) : Word := (0 : BitVec 21) ++ w.cur ++ w.acc

end Sys2Proof.Machine
end

