-- ==== Sys2Proof/Machine/Ops.lean ====
section
/-! DEFINITION. The named operations: reading and writing memories, which command is legal when (41_control_commands.md
R96), refusing one that is not (R97), clearing the block (R100). -/

namespace Sys2Proof.Machine

/-! ### Memories -/

/-- The canonical form of a memory: indices strictly rising. An unlisted entry holds an unspecified value, so no listed
value can equal it (log 4). -/
abbrev Mem.wf {α : Type} (m : Mem α) : Prop := (m.map Prod.fst).Pairwise (· < ·)

/-- The canonical form of a byte memory. -/
abbrev Memory.wf (m : Memory) : Prop := Mem.wf m

/-- The listed value of entry `i`. -/
def Mem.entry? {α : Type} : Mem α → Nat → Option α
  | [], _ => none
  | (j, v) :: m, i => if j = i then some v else Mem.entry? m i

/-- `M[i] <- v` (00_scope.md section 6). -/
def Mem.put {α : Type} : Mem α → Nat → α → Mem α
  | [], i, v => [(i, v)]
  | (j, w) :: m, i, v =>
    if i < j then (i, v) :: (j, w) :: m
    else if i = j then (i, v) :: m
    else (j, w) :: Mem.put m i v

/-- `M[i] <- v0; M[i+1] <- v1; ...`: the writes of a stage that appends to a memory from entry `i` on. -/
def Mem.putFrom {α : Type} : Mem α → Nat → List α → Mem α
  | m, _, [] => m
  | m, i, v :: vs => Mem.putFrom (Mem.put m i v) (i + 1) vs

/-- `IN[i]`; a free value where nothing has been written (log 4). -/
def State.inAt (s : State) (i : Nat) : Byte := (Mem.entry? s.inMem i).getD (Config.freeInByte s.draws i)

/-- `OUT[i]`; a free value where nothing has been written (log 4). -/
def State.outAt (s : State) (i : Nat) : Byte := (Mem.entry? s.out i).getD (Config.freeOutByte s.draws i)

/-- `PKT[i]`; a free value where nothing has been written (log 4). -/
def State.pktAt (s : State) (i : Nat) : RunPacket :=
  (Mem.entry? s.pkt i).getD ⟨(Config.freeLength s.draws i).toNat, Config.freeBitValue s.draws i⟩

/-- `TBL[i]`; a free value where nothing has been written (log 4). -/
def State.tblAt (s : State) (i : Nat) : FreqEntry :=
  (Mem.entry? s.tbl i).getD ⟨(Config.freeRunLength s.draws i).toNat, (Config.freeCount s.draws i).toNat⟩

/-! ### Commands -/

/-- When a command is legal: the table of 41_control_commands.md R96. -/
def legal : Instr → State → Bool
  | .nop, _ => true
  | .clr, _ => true
  | .push _, s => s.phase = .load && !s.fatal
  | .enc, s => s.phase = .load && !s.fatal
  | .rank, s => s.phase = .encoded && !s.fatal
  | .build, s => s.phase = .ranked && !s.fatal
  | .pack, s => s.phase = .built && !s.fatal
  | .run, s => s.phase = .load && !s.fatal
  | .lookup _, s => s.phase = .built || s.phase = .packed

/-- Execute a command if it is legal, else refuse it: `ERR.SEQ <- 1` and nothing else (R97). -/
def whenLegal (i : Instr) (effect : State → State) (s : State) : Host.Outcome State Fault Refusal :=
  if legal i s then .next (effect s) else .next (s.raise .seq)

/-- Every register to its reset value, the contents of the memories unspecified (R100, 10_state.md R34,
70_reset_and_hazards.md R187). What the host has yet to deliver and the words it has had are the host's and stay. -/
def State.cleared (s : State) : State :=
  { State.resetWith s.cfg with draws := s.draws + 1, bus := s.bus, replies := s.replies }

/-! ### What the host sees -/

/-- A read returns the word `w`. -/
def State.reply (s : State) (w : Word) : State := { s with replies := s.replies ++ [w] }

/-- The host's pending events. -/
def State.withBus (s : State) (es : List BusEvent) : State := { s with bus := es }

end Sys2Proof.Machine
end

