-- ==== Sys2Proof/Machine/Operands.lean ====
section
/-! DEFINITION. The operands of the commands: the two immediates (30_encoding.md R65, R66) and the fixed places the stage
commands read (R67). -/

namespace Sys2Proof.Machine

/-- The data byte of `PUSH`, used as is (R65). -/
def pushByte (imm8 : Byte) : Byte := imm8

/-- `key = zext_32(w[31:8])` (R66). -/
def lookupKey (imm24 : BitVec 24) : Word := imm24.setWidth 32

/-- The eight bits of a byte, most significant bit first (20_memory.md R60). -/
def byteBits (b : Byte) : List Bool :=
  [b.getLsbD 7, b.getLsbD 6, b.getLsbD 5, b.getLsbD 4, b.getLsbD 3, b.getLsbD 2, b.getLsbD 1, b.getLsbD 0]

/-- The valid entries of `IN`, byte 0 first (R59). -/
def State.inputBytes (s : State) : List Byte := (List.range s.nbytes).map s.inAt

/-- The bit expansion of the input (R60), what `ENC` reads. -/
def State.inputBits (s : State) : List Bool := s.inputBytes.flatMap byteBits

/-- The valid entries of `PKT`, in stream order. -/
def State.packets (s : State) : List RunPacket := (List.range s.npkt).map s.pktAt

/-- The packets' lengths, what `RANK` and `PACK` read of `PKT`. -/
def State.packetLengths (s : State) : List Nat := s.packets.map RunPacket.length

/-- The valid entries of `TBL`, in ranked order. -/
def State.table (s : State) : List FreqEntry := (List.range s.k).map s.tblAt

/-- The table's run lengths, what `LOOKUP` and `PACK` search; the code of one is its index (44_code_table.md R137). -/
def State.tableRuns (s : State) : List Nat := s.table.map FreqEntry.runLength

/-- The valid entries of `OUT`, in file order (R62). -/
def State.outputBytes (s : State) : List Byte := (List.range s.nout).map s.outAt

end Sys2Proof.Machine
end

