-- ==== Sys2Proof/Machine/Encoder.lean ====
section
/-! DEFINITION. The BitRunLengthEncoder stage, command `ENC` (42_rle_encoder.md). -/

namespace Sys2Proof.Machine

/-- What the encoder works on: `RLE_LEN`, `RLE_BIT`, and the packets retained so far, `PKT[0 .. NPKT-1]`. -/
structure Rle where
  len : Nat
  reg : RleBit
  packets : List RunPacket
  deriving DecidableEq, Repr

/-- The sentinel state an `ENC` begins in (R113, R114). -/
def rleStart : Rle := ⟨0, ⟨false, true, true⟩, []⟩

/-- `RleEmit` (R111): the first packet emitted is discarded, every other one is retained (R112). -/
def rleEmit (r : Rle) : Rle :=
  if r.reg.drop then { r with reg := { r.reg with drop := false } }
  else { r with packets := r.packets ++ [⟨r.len, r.reg.bit⟩] }

/-- `RleBit(b)` (R110). -/
def rleBit (r : Rle) (b : Bool) : Rle :=
  if r.reg.none = false ∧ r.reg.bit = b then { r with len := r.len + 1 }
  else
    let e := rleEmit r
    { e with len := 1, reg := { e.reg with none := false, bit := b } }

/-- The scan of R113 over a bit stream, then the emission of the final run. -/
def rleEncode (bits : List Bool) : Rle := rleEmit (bits.foldl rleBit rleStart)

/-- The effect of `ENC` (R113). -/
def encStage (s : State) : State :=
  let r := rleEncode s.inputBits
  { s with
    rleLen := r.len
    rleBit := r.reg
    pkt := Mem.putFrom s.pkt 0 r.packets
    npkt := r.packets.length
    phase := .encoded }

/-- `ENC` (R113). -/
def execEnc (s : State) : Host.Outcome State Fault Refusal := whenLegal .enc encStage s

end Sys2Proof.Machine
end

