-- ==== Sys2Proof/Machine/Ranker.lean ====
section
/-! DEFINITION. The FrequencyRanker stage, command `RANK` (43_frequency_ranker.md). -/

namespace Sys2Proof.Machine

/-- One step of the grouping (R124, R125): the first entry of run length `len` counts one more, or a new entry is
appended. -/
def countRun : List FreqEntry → Nat → List FreqEntry
  | [], len => [⟨len, 1⟩]
  | e :: es, len => if e.runLength = len then { e with count := e.count + 1 } :: es else e :: countRun es len

/-- The entries in first-seen order (R125). -/
def groupRuns (lens : List Nat) : List FreqEntry := lens.foldl countRun []

/-- One insertion of the sort (R124): past every entry whose count is not smaller, so ties keep their order. -/
def insertRanked : List FreqEntry → FreqEntry → List FreqEntry
  | [], e => [e]
  | x :: xs, e => if x.count < e.count then e :: x :: xs else x :: insertRanked xs e

/-- The stable insertion sort, descending by count (R124, R126). -/
def sortRanked (es : List FreqEntry) : List FreqEntry := es.foldl insertRanked []

/-- The ranked table of a packet sequence, given by its lengths (R123 to R126). -/
def rankRuns (lens : List Nat) : List FreqEntry := sortRanked (groupRuns lens)

/-- The effect of `RANK` (R124). -/
def rankStage (s : State) : State :=
  let es := rankRuns s.packetLengths
  { s with
    tbl := Mem.putFrom s.tbl 0 es
    k := es.length
    phase := .ranked }

/-- `RANK` (R124). -/
def execRank (s : State) : Host.Outcome State Fault Refusal := whenLegal .rank rankStage s

end Sys2Proof.Machine
end

