-- ==== Sys2Proof/Machine/CodeTable.lean ====
section
/-! DEFINITION. The FixedWidthCodeTable stage, commands `BUILD` and `LOOKUP` (44_code_table.md). -/

namespace Sys2Proof.Machine

/-- `CodeWidth(k)` (R135): 0 for `k <= 1`, else the number of bits in the numeral of `k - 1`. -/
def codeWidth (k : Nat) : Nat := if k ≤ 1 then 0 else Nat.log2 (k - 1) + 1

/-- `Lookup(L)` (R139): the index of the first entry of that run length, its code (R137). -/
def lookupCode (runs : List Nat) (len : Nat) : Option Nat := runs.findIdx? (· == len)

/-- The effect of `BUILD` (R136). -/
def buildStage (s : State) : State := { s with codewidth := codeWidth s.k, phase := .built }

/-- `BUILD` (R136). -/
def execBuild (s : State) : Host.Outcome State Fault Refusal := whenLegal .build buildStage s

/-- The result word of a lookup (R140): the code, or the miss flag. -/
def lookupResult : Option Nat → Lkp
  | some t => ⟨BitVec.ofNat 31 t, false⟩
  | none => ⟨0, true⟩

/-- The effect of `LOOKUP` (R140). -/
def lookupEffect (imm24 : BitVec 24) (s : State) : State :=
  { s with lkp := lookupResult (lookupCode s.tableRuns (lookupKey imm24).toNat) }

/-- `LOOKUP imm24` (R140). -/
def execLookup (imm24 : BitVec 24) (s : State) : Host.Outcome State Fault Refusal :=
  whenLegal (.lookup imm24) (lookupEffect imm24) s

end Sys2Proof.Machine
end

