-- ==== Sys2Proof/Machine/Writer.lean ====
section
/-! DEFINITION. The BitPackedWriter stage, command `PACK` (45_bit_packed_writer.md). -/

namespace Sys2Proof.Machine

/-- What the writer works on: `ACC`, `CUR`, and the bytes appended so far, `OUT[0 .. NOUT-1]`. -/
structure Writer where
  acc : Byte
  cur : BitVec 3
  bytes : List Byte
  deriving DecidableEq, Repr

/-- The writer at the start of a `PACK` (R149). -/
def writerStart : Writer := ⟨0, 0, []⟩

/-- `PutBit(b)` (R146). -/
def putBit (w : Writer) (b : Bool) : Writer :=
  let acc := w.acc ||| ((BitVec.ofBool b).setWidth 8 <<< (7 - w.cur.toNat))
  if w.cur = 7 then ⟨0, 0, w.bytes ++ [acc]⟩ else ⟨acc, w.cur + 1, w.bytes⟩

/-- The low `width` bits of `code`, most significant bit first (R147). -/
def codeBits (code : Nat) : Nat → List Bool
  | 0 => []
  | j + 1 => code.testBit j :: codeBits code j

/-- `PutCode(c)` for a code of `width` bits (R147). -/
def putCode (width : Nat) (w : Writer) (code : Nat) : Writer := (codeBits code width).foldl putBit w

/-- `Flush()` (R148): a partial byte, if there is one, is appended; its low-order positions are 0 (R153). -/
def flush (w : Writer) : Writer :=
  ⟨0, 0, if w.cur = 0 then w.bytes else w.bytes ++ [w.acc]⟩

/-- How the loop of `PACK` ends: with every packet written, or at the first packet whose lookup misses (R150). -/
inductive PackEnd where
  | written (w : Writer)
  | missed (w : Writer)
  deriving DecidableEq, Repr

/-- The loop of `PACK` over the packets' lengths (R149). -/
def packRuns (runs : List Nat) (width : Nat) : List Nat → Writer → PackEnd
  | [], w => .written w
  | len :: lens, w =>
    match lookupCode runs len with
    | some code => packRuns runs width lens (putCode width w code)
    | none => .missed w

/-- The effect of `PACK` (R149): complete, or aborted with the output withdrawn (R150). The bytes an aborted `PACK` had
appended stay listed in `OUT`, not valid, `NOUT` being 0 (log 13). -/
def packStage (s : State) : State :=
  match packRuns s.tableRuns s.codewidth s.packetLengths writerStart with
  | .written w =>
    let f := flush w
    { s with
      out := Mem.putFrom s.out 0 f.bytes
      nout := f.bytes.length
      wstate := ⟨f.acc, f.cur⟩
      phase := .packed }
  | .missed w =>
    { s.raise .nf with
      out := Mem.putFrom s.out 0 w.bytes
      nout := 0
      wstate := ⟨0, 0⟩ }

/-- `PACK` (R149, R150). -/
def execPack (s : State) : Host.Outcome State Fault Refusal := whenLegal .pack packStage s

end Sys2Proof.Machine
end

