-- ==== Sys2Proof/Machine/Control.lean ====
section
/-! DEFINITION. The commands that are not a stage: `NOP`, `CLR`, `PUSH`, `RUN` (41_control_commands.md). -/

namespace Sys2Proof.Machine

/-- `NOP` (R99): legal always, no effect. -/
def execNop (s : State) : Host.Outcome State Fault Refusal := whenLegal .nop id s

/-- `CLR` (R100): legal always, the reset state. -/
def execClr (s : State) : Host.Outcome State Fault Refusal := whenLegal .clr State.cleared s

/-- The effect of `PUSH` (R101): append the byte, or overflow when `IN` is full. -/
def pushEffect (imm8 : Byte) (s : State) : State :=
  if s.nbytes = s.cfg.nmax then s.raise .ovf
  else { s with inMem := Mem.put s.inMem s.nbytes (pushByte imm8), nbytes := s.nbytes + 1 }

/-- `PUSH imm8` (R101). -/
def execPush (imm8 : Byte) (s : State) : Host.Outcome State Fault Refusal := whenLegal (.push imm8) (pushEffect imm8) s

/-- The effect of `RUN` (R102): the four stages, in order. -/
def runStages (s : State) : State := packStage (buildStage (rankStage (encStage s)))

/-- `RUN` (R102). -/
def execRun (s : State) : Host.Outcome State Fault Refusal := whenLegal .run runStages s

end Sys2Proof.Machine
end

