-- ==== Sys2Proof/Machine/Dispatch.lean ====
section
/-! DEFINITION. One arm per command, each one call of its meaning. -/

namespace Sys2Proof.Machine

def exec (i : Instr) (s : State) : Host.Outcome State Fault Refusal :=
  match i with
  | .nop => Sys2Proof.Machine.execNop s
  | .clr => Sys2Proof.Machine.execClr s
  | .push imm8 => Sys2Proof.Machine.execPush imm8 s
  | .enc => Sys2Proof.Machine.execEnc s
  | .rank => Sys2Proof.Machine.execRank s
  | .build => Sys2Proof.Machine.execBuild s
  | .pack => Sys2Proof.Machine.execPack s
  | .run => Sys2Proof.Machine.execRun s
  | .lookup imm24 => Sys2Proof.Machine.execLookup imm24 s

end Sys2Proof.Machine
end

