-- ==== Sys2Proof/Machine/Bus.lean ====
section
/-! DEFINITION. The register file (10_state.md R9), the read window (20_memory.md R47 to R52) and what one bus event does
(R42 to R45, 70_reset_and_hazards.md R186, R188). -/

namespace Sys2Proof.Machine

/-- The sixteen registers (R9). -/
inductive Reg where
  | cmd
  | status
  | err
  | nbytes
  | npkt
  | k
  | codewidth
  | nout
  | lkp
  | sel
  | idx
  | rd0
  | rd1
  | rleLen
  | rleBit
  | wstate
  deriving DecidableEq, Repr

/-- The byte offset of a register (R9). -/
def Reg.offset : Reg → BitVec 8
  | .cmd => 0x00
  | .status => 0x04
  | .err => 0x08
  | .nbytes => 0x0C
  | .npkt => 0x10
  | .k => 0x14
  | .codewidth => 0x18
  | .nout => 0x1C
  | .lkp => 0x20
  | .sel => 0x24
  | .idx => 0x28
  | .rd0 => 0x2C
  | .rd1 => 0x30
  | .rleLen => 0x34
  | .rleBit => 0x38
  | .wstate => 0x3C

/-- The offset of a bus address: its low 8 bits (20_memory.md R41). -/
def offsetOf (addr : Nat) : BitVec 8 := BitVec.ofNat 8 addr

/-- `off[1:0] != 0` (R42). -/
def misaligned (off : BitVec 8) : Bool := off.extractLsb' 0 2 ≠ 0

/-- The register at an offset; none at a misaligned offset (R42) or a reserved one, `0x40` to `0xFC` (R25). -/
def regAt? (off : BitVec 8) : Option Reg :=
  if misaligned off then none
  else match off.toNat with
    | 0x00 => some .cmd
    | 0x04 => some .status
    | 0x08 => some .err
    | 0x0C => some .nbytes
    | 0x10 => some .npkt
    | 0x14 => some .k
    | 0x18 => some .codewidth
    | 0x1C => some .nout
    | 0x20 => some .lkp
    | 0x24 => some .sel
    | 0x28 => some .idx
    | 0x2C => some .rd0
    | 0x30 => some .rd1
    | 0x34 => some .rleLen
    | 0x38 => some .rleBit
    | 0x3C => some .wstate
    | _ => none

/-- The two window words `(RD0, RD1)`, none when `IDX` is out of range for the memory `SEL` selects (R48 to R52). -/
def State.window (s : State) : Option (Word × Word) :=
  let i := s.idx.toNat
  if s.sel = 0 then if i < s.nbytes then some ((s.inAt i).setWidth 32, 0) else none
  else if s.sel = 1 then
    if i < s.npkt then some (BitVec.ofNat 32 (s.pktAt i).length, (BitVec.ofBool (s.pktAt i).bitValue).setWidth 32)
    else none
  else if s.sel = 2 then
    if i < s.k then some (BitVec.ofNat 32 (s.tblAt i).runLength, BitVec.ofNat 32 (s.tblAt i).count) else none
  else if i < s.nout then some ((s.outAt i).setWidth 32, 0) else none

/-- A read of a window register: the word, or 0 with `ERR.IDX` when out of range (R52). -/
def windowRead (pick : Word × Word → Word) (s : State) : State :=
  match s.window with
  | some d => s.reply (pick d)
  | none => (s.raise .idx).reply 0

/-- A read of a register (R43). `CMD` reads 0 with no effect (R10). -/
def readReg (r : Reg) (s : State) : State :=
  match r with
  | .cmd => s.reply 0
  | .status => s.reply s.statusWord
  | .err => s.reply s.err.word
  | .nbytes => s.reply (BitVec.ofNat 32 s.nbytes)
  | .npkt => s.reply (BitVec.ofNat 32 s.npkt)
  | .k => s.reply (BitVec.ofNat 32 s.k)
  | .codewidth => s.reply (BitVec.ofNat 32 s.codewidth)
  | .nout => s.reply (BitVec.ofNat 32 s.nout)
  | .lkp => s.reply s.lkp.word
  | .sel => s.reply (s.sel.setWidth 32)
  | .idx => s.reply s.idx
  | .rd0 => windowRead Prod.fst s
  | .rd1 => windowRead Prod.snd s
  | .rleLen => s.reply (BitVec.ofNat 32 s.rleLen)
  | .rleBit => s.reply s.rleBit.word
  | .wstate => s.reply s.wstate.word

/-- `RD(off)` (R43, R45): a misaligned or reserved offset returns 0 and raises `ERR.ADDR`. -/
def busRead (addr : Nat) (s : State) : State :=
  match regAt? (offsetOf addr) with
  | some r => readReg r s
  | none => (s.raise .addr).reply 0

/-- `WR(CMD, w)` (R44, 30_encoding.md R64): decode, then execute; an illegal word is `ERR.ILL` and nothing else (R70). -/
def commandWrite (w : Word) (s : State) : Host.Outcome State Fault Refusal :=
  match decode w with
  | .ok i => exec i s
  | .error _ => .next (s.raise .ill)

/-- `WR(off, v)` (R44, R45): `CMD`, `SEL` and `IDX` take a write, every other offset raises `ERR.ADDR`. -/
def busWrite (addr : Nat) (v : Word) (s : State) : Host.Outcome State Fault Refusal :=
  match regAt? (offsetOf addr) with
  | some .cmd => commandWrite v s
  | some .sel => .next { s with sel := v.extractLsb' 0 2 }
  | some .idx => .next { s with idx := v }
  | _ => .next (s.raise .addr)

/-- One event of the host side. A reset leaves the reset state (R186); one that cuts a write short leaves nothing of it
(R188). -/
def busEvent (e : BusEvent) (s : State) : Host.Outcome State Fault Refusal :=
  match e with
  | .read addr => .next (busRead addr s)
  | .write addr v => busWrite addr v s
  | .reset => .next s.cleared
  | .writeCutByReset _ _ => .next s.cleared

/-- Deliver the oldest pending event. With none pending the block is idle and keeps its state (60_exceptions.md R174,
log 9). -/
def deliver (s : State) : Host.Outcome State Fault Refusal :=
  match s.bus with
  | [] => .next s
  | e :: es => busEvent e (s.withBus es)

/-- The write of a table word to `CMD`, put before everything the host has yet to deliver. -/
def fetchWord (s : State) (nbits w : Nat) : State :=
  s.withBus (.write 0 (BitVec.ofNat 32 (w % 2 ^ nbits)) :: s.bus)

end Sys2Proof.Machine
end

