-- ==== Sys2Proof/Machine/Step.lean ====
section
/-! DEFINITION. One step: the next event the host delivers, executed to completion (20_memory.md R54, R55). -/

namespace Sys2Proof.Machine

/-- One step of the machine (00_scope.md R4). -/
def step (s : State) : Host.Outcome State Fault Refusal := deliver s

/-- The state whose next step executes the command word `w`: the block fetches nothing (R57), a command is the value of
the host's next write to `CMD` (log 1). -/
def State.withFetchWord (s : State) (nbits w : Nat) : State := fetchWord s nbits w

end Sys2Proof.Machine
end

