-- ==== Sys2Proof/Machine/HostLoader.lean ====
section
/-! DEFINITION. The host's ImageLoader and PixelSerializer (40_host_loader_serializer.md R79 to R93), rules of the host
agent and not of the block (00_scope.md R3). A file is a list of bytes. -/

namespace Sys2Proof.Machine

/-- The error kinds of the host (R92). -/
inductive HostError where
  /-- the format token is neither "P2" nor "P5" (R81) -/
  | format
  /-- `maxGray > 255` (R84), or a pixel above `maxGray` that is validated (R87) -/
  | range
  /-- unreadable or truncated input, unwritable output (R92, 60_exceptions.md R161); an image that does not fit (R95) -/
  | io
  deriving DecidableEq, Repr

/-- Files outside the domain of `load`, which a model rejects by name (93_implementation_defined.md; log 16). -/
inductive HostRefusal where
  /-- U12: `width = 0` or `height = 0` -/
  | emptyDimension
  /-- U12: a header field that is not an unsigned decimal numeral; DESIGN CHOICE (log 16): also a P2 pixel that is not
  one, a case the spec leaves open -/
  | notANumber
  /-- U17: where an integer of the header or a P2 pixel is due, a token that begins with `#` and is no comment line
  directly after the format token. DESIGN CHOICE: a `#` line before the format token (log 16) or after the last pixel (log
  17), which could also be read as a comment elsewhere, and a `#` inside a token (log 16) are not this refusal -/
  | commentElsewhere
  /-- U2: a P2 pixel above 255 that is not validated -/
  | pixelTooLarge
  /-- U18: data after the pixels, not accepted -/
  | trailingData
  deriving DecidableEq, Repr

/-- Why `load` gives no grid. -/
inductive HostStop where
  | failed (e : HostError)
  | refused (r : HostRefusal)
  deriving DecidableEq, Repr

/-- The exit status of an error (R92, R93). -/
def exitStatus (p : HostParams) : HostError → Nat
  | .format => 10
  | .range => 11
  | .io => p.ioErrorExit

/-- The two accepted format tokens (R81). -/
inductive PixelFormat where
  | p2
  | p5
  deriving DecidableEq, Repr

/-- ImageHeader (R79). -/
structure ImageHeader where
  format : PixelFormat
  width : Nat
  height : Nat
  maxGray : Nat
  deriving DecidableEq, Repr

/-- PixelGrid (R80): `height` rows of `width` intensities. -/
structure PixelGrid where
  width : Nat
  height : Nat
  rows : List (List Byte)
  deriving DecidableEq, Repr

/-- The shape a grid has (R80). -/
abbrev PixelGrid.wf (g : PixelGrid) : Prop := g.rows.length = g.height ∧ ∀ row ∈ g.rows, row.length = g.width

/-- Each intensity is at most `maxGray` (R80). A pixel accepted unvalidated may exceed it (R87, log 16). -/
abbrev PixelGrid.bounded (g : PixelGrid) (maxGray : Nat) : Prop := ∀ row ∈ g.rows, ∀ pixel ∈ row, pixel.toNat ≤ maxGray

/-- What the host is given to read. -/
inductive InputFile where
  /-- it cannot be read (R92) -/
  | unreadable
  | bytes (file : List Byte)
  deriving DecidableEq, Repr

/-- PRESUMED (log 14): the bytes that count as whitespace: tab, line feed, vertical tab, form feed, carriage return,
space, those R85 names. -/
def isSpace (b : Byte) : Bool := (0x09 ≤ b && b ≤ 0x0D) || b = 0x20

/-- A decimal digit. -/
def isDigit (b : Byte) : Bool := 0x30 ≤ b && b ≤ 0x39

/-- The token at the front of a file. -/
def frontToken (file : List Byte) : List Byte := file.takeWhile (fun b => !isSpace b)

/-- The format token (R81): exactly "P2" or "P5", any other fails. DESIGN CHOICE (log 16): a file that begins with a `#`
comment line has a first token that is neither, so it is a `FormatError` (R81), and not a file with a comment elsewhere that
U17 has a model refuse; the same for a `#` that is part of the first token, as in "P2#". -/
def readFormat (file : List Byte) : Except HostStop PixelFormat :=
  if frontToken file = [0x50, 0x32] then .ok .p2
  else if frontToken file = [0x50, 0x35] then .ok .p5
  else .error (.failed .format)

/-- Where the comment skipper stands: inside a comment line, or between lines with the line just begun or not. -/
inductive CommentAt where
  | inside
  | lineStart
  | midLine
  deriving DecidableEq, Repr

/-- Skip the full lines beginning with `#` after the format token (R82), and the whitespace around them. DESIGN CHOICE
(log 20): blank lines before or between them are skipped too, and a `#` line after one is still a comment. -/
def skipComments : CommentAt → List Byte → Except HostStop (List Byte)
  | _, [] => .ok []
  | .inside, b :: bs => if b = 0x0A then skipComments .lineStart bs else skipComments .inside bs
  | .lineStart, b :: bs =>
    if b = 0x0A then skipComments .lineStart bs
    else if isSpace b then skipComments .midLine bs
    else if b = 0x23 then skipComments .inside bs
    else .ok (b :: bs)
  | .midLine, b :: bs =>
    if b = 0x0A then skipComments .lineStart bs
    else if isSpace b then skipComments .midLine bs
    else if b = 0x23 then .error (.refused .commentElsewhere)
    else .ok (b :: bs)

/-- The value of a decimal numeral. -/
def decimalValue (digits : List Byte) : Nat := digits.foldl (fun n d => 10 * n + (d.toNat - 0x30)) 0

/-- The next whitespace-separated integer (R83, R86) and what follows it. The end of the file is truncated input
(R86, R92). DESIGN CHOICE (log 16): a numeral of any length is its value, none being too large to represent (U12), so a huge
width ends as an `IOError` and a huge `maxGray` as a `RangeError`. A token that is not an unsigned decimal numeral is
refused: for a header field by U12, for a P2 pixel by DESIGN CHOICE (log 16). -/
def readNumber (file : List Byte) : Except HostStop (Nat × List Byte) :=
  let rest := file.dropWhile isSpace
  let token := frontToken rest
  if token = [] then .error (.failed .io)
  else if token.head? = some 0x23 then .error (.refused .commentElsewhere)
  else if token.all isDigit then .ok (decimalValue token, rest.drop token.length)
  else .error (.refused .notANumber)

/-- The header (R79, R81 to R84) and the bytes after `maxGray`. -/
def readHeader (file : List Byte) : Except HostStop (ImageHeader × List Byte) := do
  let format ← readFormat file
  let afterComments ← skipComments .midLine (file.drop 2)
  let (width, rest1) ← readNumber afterComments
  let (height, rest2) ← readNumber rest1
  let (maxGray, rest3) ← readNumber rest2
  if 255 < maxGray then .error (.failed .range)
  else if width = 0 ∨ height = 0 then .error (.refused .emptyDimension)
  else .ok (⟨format, width, height, maxGray⟩, rest3)

/-- One pixel value (R85 to R87, R92): never clamped. -/
def pixelOf (p : HostParams) (maxGray v : Nat) : Except HostStop Byte :=
  if p.validatePixels ∧ maxGray < v then .error (.failed .range)
  else if 255 < v then .error (.refused .pixelTooLarge)
  else .ok (BitVec.ofNat 8 v)

/-- `n` P2 pixels (R86) and what follows them. -/
def readP2Pixels (p : HostParams) (maxGray : Nat) : Nat → List Byte → Except HostStop (List Byte × List Byte)
  | 0, file => .ok ([], file)
  | n + 1, file => do
    let (v, rest) ← readNumber file
    let pixel ← pixelOf p maxGray v
    let (pixels, rest') ← readP2Pixels p maxGray n rest
    .ok (pixel :: pixels, rest')

/-- `n` P5 pixels (R85) and what follows them; a file too short is truncated input (R92). An unvalidated byte above
`maxGray` is accepted as read (DESIGN CHOICE, log 16). -/
def readP5Pixels (p : HostParams) (maxGray : Nat) : Nat → List Byte → Except HostStop (List Byte × List Byte)
  | 0, raw => .ok ([], raw)
  | _ + 1, [] => .error (.failed .io)
  | n + 1, b :: raw => do
    let pixel ← pixelOf p maxGray b.toNat
    let (pixels, rest) ← readP5Pixels p maxGray n raw
    .ok (pixel :: pixels, rest)

/-- Data after the pixels: a free value decides whether the host accepts it; it is never pushed (U18; log 17).
DESIGN CHOICE (log 17): a line beginning with `#` after the last P2 pixel is such data, and not a comment elsewhere that
U17 has a model refuse. -/
def checkTrailing (rest : List Byte) : Except HostStop Unit :=
  if rest = [] then .ok () else if Config.acceptsTrailing rest then .ok () else .error (.refused .trailingData)

/-- Cut a pixel sequence into rows, in file order (R85, R86). -/
def gridRows (width : Nat) : Nat → List Byte → List (List Byte)
  | 0, _ => []
  | h + 1, pixels => pixels.take width :: gridRows width h (pixels.drop width)

/-- `load` of the bytes of a file (R81 to R88): a fully populated grid or an error. Exactly one byte, taken to be
whitespace, stands between the header and P5 data (PRESUMED, log 15). -/
def loadBytes (p : HostParams) (file : List Byte) : Except HostStop PixelGrid := do
  let (h, rest) ← readHeader file
  let n := h.width * h.height
  let (pixels, trailing) ←
    match h.format with
    | .p2 => do
      let (pixels, rest') ← readP2Pixels p h.maxGray n rest
      .ok (pixels, rest'.dropWhile isSpace)
    | .p5 => readP5Pixels p h.maxGray n (rest.drop 1)
  checkTrailing trailing
  .ok ⟨h.width, h.height, gridRows h.width h.height pixels⟩

/-- `load` (R81 to R88): unreadable input is an `IOError` (R92). -/
def load (p : HostParams) : InputFile → Except HostStop PixelGrid
  | .unreadable => .error (.failed .io)
  | .bytes file => loadBytes p file

/-- `serialize` (R89): row-major order. -/
def serialize (g : PixelGrid) : List Byte := g.rows.flatten

end Sys2Proof.Machine
end

