-- ==== Sys2Proof/Machine/HostDriver.lean ====
section
/-! DEFINITION. The host's reference driver (40_host_loader_serializer.md R95), as the bus events it issues and what it
makes of the words it reads. -/

namespace Sys2Proof.Machine

/-- The write of a command to `CMD` (30_encoding.md R73). -/
def issue (i : Instr) : BusEvent := .write 0x00 (encode i)

/-- The read of a register. -/
def readOf (r : Reg) : BusEvent := .read r.offset.toNat

/-- The write of a register. -/
def writeOf (r : Reg) (v : Word) : BusEvent := .write r.offset.toNat v

/-- Deliver a list of events, oldest first, stopping where one is not executed. -/
def deliverAll : List BusEvent → State → Host.Outcome State Fault Refusal
  | [], s => .next s
  | e :: es, s =>
    match busEvent e s with
    | .next t => deliverAll es t
    | .fault r => .fault r
    | .refused r => .refused r

/-- Steps 3 to 6 of R95: clear, push every byte in order, run, read `ERR` and `STATUS`. -/
def driverEvents (linear : List Byte) : List BusEvent :=
  issue .clr :: linear.map (fun b => issue (.push b)) ++ [issue .run, readOf .err, readOf .status]

/-- Step 6 of R95: success is `ERR = 0` and `PHASE = PACKED`. -/
def driverSuccess (err status : Word) : Bool := err = 0 && status.extractLsb' 0 3 = 4

/-- Step 7 of R95: select `OUT` and read its `n` entries in order. -/
def driverReadOut (n : Nat) : List BusEvent :=
  writeOf .sel 3 :: (List.range n).flatMap (fun i => [writeOf .idx (BitVec.ofNat 32 i), readOf .rd0])

/-- Step 8 of R95: select `TBL` and read the `k` run lengths in rank order; then, where there is a packet, select `PKT`
and read the first one's `bitValue` (R91). -/
def driverReadSide (k npkt : Nat) : List BusEvent :=
  writeOf .sel 2 :: (List.range k).flatMap (fun i => [writeOf .idx (BitVec.ofNat 32 i), readOf .rd0])
    ++ if npkt = 0 then [] else [writeOf .sel 1, writeOf .idx 0, readOf .rd1]

/-- The decode side information (R91). -/
structure SideInfo where
  codewidth : Nat
  k : Nat
  npkt : Nat
  /-- `TBL[0 .. K-1].runLength` -/
  runLengths : List Nat
  /-- `PKT[0].bitValue`, none where there is no packet -/
  firstBit : Option Bool
  deriving DecidableEq, Repr

/-- How a host's run ends. -/
inductive DriverEnd where
  /-- the output file's bytes (R91), and the side information if the host read it -/
  | wrote (bytes : List Byte) (side : Option SideInfo)
  /-- an error of the host, with its exit status (R92) -/
  | stopped (status : Nat)
  /-- the run was not successful: no file is written (R95 step 6, which names no error kind; log 18) -/
  | noFile
  /-- a file outside the domain of `load` -/
  | refused (r : HostRefusal)
  deriving DecidableEq, Repr

/-- Where the host is to write. -/
inductive OutputFile where
  | writable
  /-- it cannot be written (R92) -/
  | unwritable
  deriving DecidableEq, Repr

/-- The words the events of a list return, read off the block's replies. -/
def wordsSince (s t : State) : List Word := t.replies.drop s.replies.length

/-- Deliver events to the block: the words they return and the block afterwards. -/
def readsOf (es : List BusEvent) (s : State) : Option (List Word × State) :=
  match deliverAll es s with
  | .next t => some (wordsSince s t, t)
  | .fault _ => none
  | .refused _ => none

/-- Step 7 of R95: read `NOUT`, then the output bytes. -/
def collectOutput (s : State) : Option (List Byte × State) := do
  let (counts, t) ← readsOf [readOf .nout] s
  let n ← counts.head?
  let (words, u) ← readsOf (driverReadOut n.toNat) t
  some (words.map (BitVec.setWidth 8), u)

/-- Step 8 of R95: read the counts, then the rest of the side information (R91). -/
def collectSide (s : State) : Option (SideInfo × State) := do
  let (counts, t) ← readsOf [readOf .codewidth, readOf .k, readOf .npkt] s
  match counts.map BitVec.toNat with
  | [codewidth, k, npkt] => do
    let (words, u) ← readsOf (driverReadSide k npkt) t
    some (⟨codewidth, k, npkt, (words.take k).map BitVec.toNat, (words.drop k).head?.map (· = 1)⟩, u)
  | _ => none

/-- Steps 7 and 8 of R95, after a successful run: an output that cannot be written is an `IOError` (R92). -/
def finishRun (p : HostParams) (sink : OutputFile) (s : State) : DriverEnd × State :=
  match collectOutput s with
  | none => (.noFile, s)
  | some (bytes, t) =>
    match sink with
    | .unwritable => (.stopped (exitStatus p .io), t)
    | .writable =>
      if p.readSide then
        match collectSide t with
        | some (side, u) => (.wrote bytes (some side), u)
        | none => (.noFile, t)
      else (.wrote bytes none, t)

/-- Steps 2 to 8 of R95, from the linear pixels on: how the run ends and the block afterwards. -/
def compressLinear (p : HostParams) (sink : OutputFile) (linear : List Byte) (s : State) : DriverEnd × State :=
  if s.cfg.nmax < linear.length then (.stopped (exitStatus p .io), s)
  else
    match readsOf (driverEvents linear) s with
    | some ([err, status], t) => if driverSuccess err status then finishRun p sink t else (.noFile, t)
    | some (_, t) => (.noFile, t)
    | none => (.noFile, s)

/-- The reference driver (R95): on a failure to load it does not touch the block (R88). -/
def compress (p : HostParams) (source : InputFile) (sink : OutputFile) (s : State) : DriverEnd × State :=
  match load p source with
  | .ok g => compressLinear p sink (serialize g) s
  | .error (.failed e) => (.stopped (exitStatus p e), s)
  | .error (.refused r) => (.refused r, s)

end Sys2Proof.Machine
end

