-- ==== Sys2Proof/Machine/Script.lean ====
section
/-! DEFINITION. The host script notation (30_encoding.md R72 to R74): its lines, the events each stands for, and reading
a line from its characters. -/

namespace Sys2Proof.Machine

/-- A line of a script. Operands are the numbers written; which are lines at all is R73's ranges. -/
inductive ScriptLine where
  /-- `WR <off>, <word>` (R72) -/
  | wr (off : Nat) (word : Nat)
  /-- `RD <off>`, or in a listing `RD <off> -> <word>`, which states the value read (R72) -/
  | rd (off : Nat) (states : Option Nat)
  | nop
  | clr
  | push (b : Nat)
  | enc
  | rank
  | build
  | pack
  | run
  | lookup (n : Nat)
  /-- `PUSHN b0, ..., bn` (R74) -/
  | pushN (bs : List Nat)
  /-- `PEEK s, i` (R74) -/
  | peek (s i : Nat)
  /-- `STAGES` (R74) -/
  | stages
  /-- `DUMPOUT` (R74) -/
  | dumpOut
  /-- `DUMPTBL` (R74) -/
  | dumpTbl
  deriving DecidableEq, Repr

/-- `PUSH b`, if it is a line (R73). -/
def pushLine (b : Nat) : Option BusEvent :=
  if pushOperandWf b then some (issue (.push (BitVec.ofNat 8 b))) else none

/-- `LOOKUP n`, if it is a line (R73). -/
def lookupLine (n : Nat) : Option BusEvent :=
  if lookupOperandWf n then some (issue (.lookup (BitVec.ofNat 24 n))) else none

/-- `PEEK s, i`: `WR SEL, s`; `WR IDX, i`; `RD RD0`; `RD RD1` (R74). -/
def peekEvents (s i : Nat) : List BusEvent :=
  [writeOf .sel (BitVec.ofNat 32 s), writeOf .idx (BitVec.ofNat 32 i), readOf .rd0, readOf .rd1]

/-- The bus events a line stands for. `DUMPOUT` and `DUMPTBL` repeat as often as `NOUT` and `K` say when the line is
reached, so the expansion looks at the block's state there. DESIGN CHOICE (log 21): an offset above `0xFF` is a bus address
whose low 8 bits count (20_memory.md R41), and a line with one is a line. -/
def ScriptLine.expand (s : State) : ScriptLine → Option (List BusEvent)
  | .wr off w => if w < 2 ^ 32 then some [.write off (BitVec.ofNat 32 w)] else none
  | .rd off none => some [.read off]
  | .rd off (some w) => if w < 2 ^ 32 then some [.read off] else none
  | .nop => some [issue .nop]
  | .clr => some [issue .clr]
  | .push b => (pushLine b).map ([·])
  | .enc => some [issue .enc]
  | .rank => some [issue .rank]
  | .build => some [issue .build]
  | .pack => some [issue .pack]
  | .run => some [issue .run]
  | .lookup n => (lookupLine n).map ([·])
  | .pushN bs => bs.mapM pushLine
  | .peek m i => if m < 2 ^ 32 ∧ i < 2 ^ 32 then some (peekEvents m i) else none
  | .stages => some [issue .enc, issue .rank, issue .build, issue .pack]
  | .dumpOut => some (readOf .nout :: (List.range s.nout).flatMap (peekEvents 3))
  | .dumpTbl => some (readOf .k :: readOf .codewidth :: (List.range s.k).flatMap (peekEvents 2))

/-- Run a script line by line, top to bottom (R72); none where a line is not one. -/
def runScript : List ScriptLine → State → Option (Host.Outcome State Fault Refusal)
  | [], s => some (.next s)
  | l :: ls, s =>
    match l.expand s with
    | none => none
    | some es =>
      match deliverAll es s with
      | .next t => runScript ls t
      | .fault r => some (.fault r)
      | .refused r => some (.refused r)

/-- Whether the words a line's events returned are the value it states (R72). -/
def ScriptLine.agrees (words : List Word) : ScriptLine → Bool
  | .rd _ (some w) => words = [BitVec.ofNat 32 w]
  | _ => true

/-- Whether every value a listing states is the one read there (R72). -/
def listingHolds : List ScriptLine → State → Bool
  | [], _ => true
  | l :: ls, s =>
    match (l.expand s).bind (readsOf · s) with
    | some (words, t) => l.agrees words && listingHolds ls t
    | none => false

/-! ### Reading a line -/

/-- Text after `;` is comment (R72). -/
def stripComment (line : List Char) : List Char := line.takeWhile (· ≠ ';')

/-- The words of a line, between blanks, tabs and commas. DESIGN CHOICE (log 21): a comma separates words as a blank does and is
never required, so a line without its commas, or with one more, is the same line. -/
def splitWords : List Char → List Char → List (List Char)
  | word, [] => if word = [] then [] else [word]
  | word, c :: cs =>
    if c = ' ' ∨ c = ',' ∨ c = '\t' then
      if word = [] then splitWords [] cs else word :: splitWords [] cs
    else splitWords (word ++ [c]) cs

/-- The digits, least first; those of a base are the first so many. -/
def digitChars : List Char := "0123456789ABCDEF".toList

/-- The value of a digit of a base. DESIGN CHOICE (log 21): a letter in either case. -/
def digitValue (base : Nat) (c : Char) : Option Nat := (digitChars.take base).findIdx? (· == c.toUpper)

/-- A numeral of a base from its digits, most significant first. -/
def numeral (base : Nat) (digits : List Char) : Option Nat :=
  if digits = [] then none else (digits.mapM (digitValue base)).map (List.foldl (fun n d => base * n + d) 0)

/-- A number: `0x` prefixes hexadecimal, `0b` binary, otherwise decimal (00_scope.md section 6). -/
def readNumeral : List Char → Option Nat
  | '0' :: 'x' :: digits => numeral 16 digits
  | '0' :: 'b' :: digits => numeral 2 digits
  | digits => numeral 10 digits

/-- A register's name, as R72 lists them. -/
def Reg.chars : Reg → List Char
  | .cmd => ['C', 'M', 'D']
  | .status => ['S', 'T', 'A', 'T', 'U', 'S']
  | .err => ['E', 'R', 'R']
  | .nbytes => ['N', 'B', 'Y', 'T', 'E', 'S']
  | .npkt => ['N', 'P', 'K', 'T']
  | .k => ['K']
  | .codewidth => ['C', 'O', 'D', 'E', 'W', 'I', 'D', 'T', 'H']
  | .nout => ['N', 'O', 'U', 'T']
  | .lkp => ['L', 'K', 'P']
  | .sel => ['S', 'E', 'L']
  | .idx => ['I', 'D', 'X']
  | .rd0 => ['R', 'D', '0']
  | .rd1 => ['R', 'D', '1']
  | .rleLen => ['R', 'L', 'E', '_', 'L', 'E', 'N']
  | .rleBit => ['R', 'L', 'E', '_', 'B', 'I', 'T']
  | .wstate => ['W', 'S', 'T', 'A', 'T', 'E']

/-- All sixteen registers, in offset order (10_state.md R9). -/
def Reg.all : List Reg :=
  [.cmd, .status, .err, .nbytes, .npkt, .k, .codewidth, .nout, .lkp, .sel, .idx, .rd0, .rd1, .rleLen, .rleBit, .wstate]

/-- `<off>`: a register's name or a number (R72), of any size (DESIGN CHOICE, log 21). -/
def readOffset (w : List Char) : Option Nat :=
  match Reg.all.find? (fun r => r.chars = w) with
  | some r => some r.offset.toNat
  | none => readNumeral w

/-- A line from its words (R72 to R74). DESIGN CHOICE (log 19): no words at all, a blank line or one that holds only a
comment, is no line, as an ill-formed one is none. DESIGN CHOICE (log 21): `PUSHN` without operands is a line that stands
for no transaction. -/
def lineOfWords : List (List Char) → Option ScriptLine
  | [] => none
  | w :: args =>
    if w = ['W', 'R'] then
      match args with
      | [off, v] => do some (.wr (← readOffset off) (← readNumeral v))
      | _ => none
    else if w = ['R', 'D'] then
      match args with
      | [off] => do some (.rd (← readOffset off) none)
      | [off, arrow, v] => if arrow = ['-', '>'] then do some (.rd (← readOffset off) (some (← readNumeral v))) else none
      | _ => none
    else if w = ['P', 'U', 'S', 'H'] then
      match args with
      | [b] => do some (.push (← readNumeral b))
      | _ => none
    else if w = ['L', 'O', 'O', 'K', 'U', 'P'] then
      match args with
      | [n] => do some (.lookup (← readNumeral n))
      | _ => none
    else if w = ['P', 'U', 'S', 'H', 'N'] then do some (.pushN (← args.mapM readNumeral))
    else if w = ['P', 'E', 'E', 'K'] then
      match args with
      | [m, i] => do some (.peek (← readNumeral m) (← readNumeral i))
      | _ => none
    else if args = [] then
      if w = ['N', 'O', 'P'] then some .nop
      else if w = ['C', 'L', 'R'] then some .clr
      else if w = ['E', 'N', 'C'] then some .enc
      else if w = ['R', 'A', 'N', 'K'] then some .rank
      else if w = ['B', 'U', 'I', 'L', 'D'] then some .build
      else if w = ['P', 'A', 'C', 'K'] then some .pack
      else if w = ['R', 'U', 'N'] then some .run
      else if w = ['S', 'T', 'A', 'G', 'E', 'S'] then some .stages
      else if w = ['D', 'U', 'M', 'P', 'O', 'U', 'T'] then some .dumpOut
      else if w = ['D', 'U', 'M', 'P', 'T', 'B', 'L'] then some .dumpTbl
      else none
    else none

/-- Read one line of a script (R72). -/
def readLine (line : List Char) : Option ScriptLine := lineOfWords (splitWords [] (stripComment line))

end Sys2Proof.Machine
end

