-- ==== Sys2Proof/Safety.lean ====
section
/-! DEFINITION. The terms claims are stated in: a successful run (60_exceptions.md R175), the invariants of the state
(10_state.md R33), the artifacts a run leaves (R175), and the reference algorithm of `RANK` (43_frequency_ranker.md
R124). -/

namespace Sys2Proof.Machine

/-- A run is complete and successful (60_exceptions.md R175). -/
abbrev State.runSuccessful (s : State) : Prop := s.phase = .packed ∧ s.err.ovf = false ∧ s.err.nf = false

/-- A packet sequence written back as bits: `length` copies of each `bitValue` (95_test_vectors.md section 12). -/
def expandPackets (ps : List RunPacket) : List Bool := ps.flatMap (fun p => List.replicate p.length p.bitValue)

/-- Bit number `u` of the output stream: `OUT[u div 8][7 - (u mod 8)]` (20_memory.md R61). -/
def State.outputBit (s : State) (u : Nat) : Bool := (s.outAt (u / 8)).getLsbD (7 - u % 8)

/-- A word that R70 calls illegal. -/
def illegalWord (w : Word) : Prop :=
  0x09 ≤ (w.extractLsb' 0 8).toNat
    ∨ ((w.extractLsb' 0 8).toNat ∈ [0x00, 0x01, 0x03, 0x04, 0x05, 0x06, 0x07] ∧ w.extractLsb' 8 24 ≠ 0)
    ∨ ((w.extractLsb' 0 8).toNat = 0x02 ∧ w.extractLsb' 16 16 ≠ 0)

/-- The offsets of the read-only registers (20_memory.md R45). -/
def readOnlyOffsets : List Nat := [0x04, 0x08, 0x0C, 0x10, 0x14, 0x18, 0x1C, 0x20, 0x2C, 0x30, 0x34, 0x38, 0x3C]

/-- The table of 41_control_commands.md R96: when a command is allowed. -/
def commandAllowed (i : Instr) (s : State) : Prop :=
  match i with
  | .nop | .clr => True
  | .push _ | .enc | .run => s.phase = .load ∧ s.err.ovf = false ∧ s.err.nf = false
  | .rank => s.phase = .encoded ∧ s.err.ovf = false ∧ s.err.nf = false
  | .build => s.phase = .ranked ∧ s.err.ovf = false ∧ s.err.nf = false
  | .pack => s.phase = .built ∧ s.err.ovf = false ∧ s.err.nf = false
  | .lookup _ => s.phase = .built ∨ s.phase = .packed

/-- An event that clears the block: a reset, or the write of the word of `CLR` to `CMD` (R100, 70_reset_and_hazards.md
R186). -/
def clearingEvent : BusEvent → Prop
  | .read _ => False
  | .write addr v => addr % 256 = 0 ∧ v = 0x00000001
  | .reset => True
  | .writeCutByReset _ _ => True

/-- The number of valid entries of the memory `SEL` selects (R48 to R51). -/
def State.selectedCount (s : State) : Nat :=
  if s.sel = 0 then s.nbytes else if s.sel = 1 then s.npkt else if s.sel = 2 then s.k else s.nout

/-- The invariants of 10_state.md R33, with the range of `RLE_LEN` (R22), and the two facts a model adds to them: every
memory is in canonical form, and every valid entry is one the block has written. -/
structure State.Inv (s : State) : Prop where
  cfgWf : s.cfg.wf
  inWf : Memory.wf s.inMem
  pktWf : Mem.wf s.pkt
  tblWf : Mem.wf s.tbl
  outWf : Memory.wf s.out
  inListed : ∀ i, i < s.nbytes → (Mem.entry? s.inMem i).isSome
  pktListed : ∀ i, i < s.npkt → (Mem.entry? s.pkt i).isSome
  tblListed : ∀ i, i < s.k → (Mem.entry? s.tbl i).isSome
  outListed : ∀ i, i < s.nout → (Mem.entry? s.out i).isSome
  nbytesLe : s.nbytes ≤ s.cfg.nmax
  noPackets : s.phase = .load → s.npkt = 0
  noTable : s.phase.number < 2 → s.k = 0
  noWidth : s.phase.number < 3 → s.codewidth = 0
  noOutput : s.phase.number < 4 → s.nout = 0
  lengthSum : 1 ≤ s.phase.number → s.packetLengths.sum = 8 * s.nbytes
  lengthPos : ∀ i, i < s.npkt → 1 ≤ (s.pktAt i).length
  alternates : ∀ i, i + 1 < s.npkt → (s.pktAt i).bitValue ≠ (s.pktAt (i + 1)).bitValue
  runsDistinct : s.tableRuns.Nodup
  runsOccur : ∀ i, i < s.k → (s.tblAt i).runLength ∈ s.packetLengths
  runsCover : 2 ≤ s.phase.number → ∀ i, i < s.npkt → (s.pktAt i).length ∈ s.tableRuns
  counts : ∀ i, i < s.k → (s.tblAt i).count = s.packetLengths.count (s.tblAt i).runLength
  countsDescend : ∀ i, i + 1 < s.k → (s.tblAt (i + 1)).count ≤ (s.tblAt i).count
  rleLenLe : s.rleLen ≤ 8 * s.nbytes
  width : 3 ≤ s.phase.number → s.codewidth = codeWidth s.k
  outputSize : s.phase = .packed → s.nout = (s.npkt * s.codewidth + 7) / 8
  writerClear : s.wstate = ⟨0, 0⟩
  noMiss : s.err.nf = false

/-- The packets of an input (42_rle_encoder.md R109). -/
def pipelinePackets (bytes : List Byte) : List RunPacket := (rleEncode (bytes.flatMap byteBits)).packets

/-- The ranked table of an input (43_frequency_ranker.md R123). -/
def pipelineTable (bytes : List Byte) : List FreqEntry := rankRuns ((pipelinePackets bytes).map RunPacket.length)

/-- The output of the four stages for an input (00_scope.md R1, 45_bit_packed_writer.md R145). -/
def pipelineOutput (bytes : List Byte) : List Byte :=
  match packRuns ((pipelineTable bytes).map FreqEntry.runLength) (codeWidth (pipelineTable bytes).length)
      ((pipelinePackets bytes).map RunPacket.length) writerStart with
  | .written w => (flush w).bytes
  | .missed _ => []

/-- What the block holds in each phase is the pipeline's artifact of `IN[0 .. NBYTES-1]` (R175). -/
structure State.Artifacts (s : State) : Prop where
  packets : 1 ≤ s.phase.number → s.packets = pipelinePackets s.inputBytes
  table : 2 ≤ s.phase.number → s.table = pipelineTable s.inputBytes
  width : 3 ≤ s.phase.number → s.codewidth = codeWidth (pipelineTable s.inputBytes).length
  output : s.phase = .packed → s.outputBytes = pipelineOutput s.inputBytes

/-! ### The values of a P2 file (40_host_loader_serializer.md R86, R87) -/

/-- The next `n` whitespace-separated decimal integers of a file, whatever their size, and what follows them. -/
def readValues : Nat → List Byte → Except HostStop (List Nat × List Byte)
  | 0, file => .ok ([], file)
  | n + 1, file => do
    let (v, rest) ← readNumber file
    let (vs, rest') ← readValues n rest
    .ok (v :: vs, rest')

/-- A value the loader takes as a pixel: a byte, and within `maxGray` where pixels are validated (R87). -/
abbrev pixelAccepted (p : HostParams) (maxGray v : Nat) : Prop := v ≤ 255 ∧ (p.validatePixels = true → v ≤ maxGray)

/-! ### The reference algorithm of `RANK`, on the block's own memory (43_frequency_ranker.md R124) -/

/-- One round of the grouping loop: count the length in the first entry that has it, or append an entry. -/
def referenceGroup (s : State) (len : Nat) : State :=
  match (List.range s.k).find? (fun t => (s.tblAt t).runLength = len) with
  | some t => { s with tbl := Mem.put s.tbl t { s.tblAt t with count := (s.tblAt t).count + 1 } }
  | none => { s with tbl := Mem.put s.tbl s.k ⟨len, 1⟩, k := s.k + 1 }

/-- The inner loop of the sort: `while b > 0 and TBL[b-1].count < e.count` move an entry up, then `TBL[b] <- e`. -/
def referenceSink (e : FreqEntry) : Nat → State → State
  | 0, s => { s with tbl := Mem.put s.tbl 0 e }
  | b + 1, s =>
    if (s.tblAt b).count < e.count then
      referenceSink e b { s with tbl := Mem.put s.tbl (b + 1) (s.tblAt b) }
    else { s with tbl := Mem.put s.tbl (b + 1) e }

/-- The whole of R124's pseudocode. -/
def referenceRank (s : State) : State :=
  let grouped := s.packetLengths.foldl referenceGroup { s with k := 0 }
  let sorted := (List.range' 1 (grouped.k - 1)).foldl (fun t a => referenceSink (t.tblAt a) a t) grouped
  { sorted with phase := .ranked }

end Sys2Proof.Machine
end

