-- ==== Sys2Proof/Certificates/Slice0/Obligations.lean ====
section
/-! DEFINITION. The statements for the provers, from the numbered rules of spec/. -/

open Sys2Proof Sys2Proof.Machine

/-! ### Command words -/

/-- 30_encoding.md R69: the nine rows of the opcode map by `match` and `mask`, with the operand bits of `PUSH` and
`LOOKUP`; every word that selects no row is illegal. -/
def Obligations.CommandWordsDecodeByTheirRow : Prop :=
  ∀ w : Word,
    (decode w = .ok .nop ↔ w &&& 0xFFFFFFFF = 0x00000000)
    ∧ (decode w = .ok .clr ↔ w &&& 0xFFFFFFFF = 0x00000001)
    ∧ (∀ b, decode w = .ok (.push b) ↔ w &&& 0xFFFF00FF = 0x00000002 ∧ b = w.extractLsb' 8 8)
    ∧ (decode w = .ok .enc ↔ w &&& 0xFFFFFFFF = 0x00000003)
    ∧ (decode w = .ok .rank ↔ w &&& 0xFFFFFFFF = 0x00000004)
    ∧ (decode w = .ok .build ↔ w &&& 0xFFFFFFFF = 0x00000005)
    ∧ (decode w = .ok .pack ↔ w &&& 0xFFFFFFFF = 0x00000006)
    ∧ (decode w = .ok .run ↔ w &&& 0xFFFFFFFF = 0x00000007)
    ∧ (∀ n, decode w = .ok (.lookup n) ↔ w &&& 0x000000FF = 0x00000008 ∧ n = w.extractLsb' 8 24)
    ∧ ((∃ e, decode w = .error e) ↔
        w ∉ [(0 : Word), 1, 3, 4, 5, 6, 7] ∧ w &&& 0xFFFF00FF ≠ 0x00000002 ∧ w &&& 0x000000FF ≠ 0x00000008)

/-- 30_encoding.md sections 1 to 3: no bit of an encoding is dropped. -/
def Obligations.DecodeOfEncodeIsTheCommand : Prop := ∀ i : Instr, decode (encode i) = .ok i

/-- 30_encoding.md sections 1 and 3: each legal word stands for one command only. -/
def Obligations.EncodeOfDecodeIsTheWord : Prop := ∀ (w : Word) (i : Instr), decode w = .ok i → encode i = w

/-- 95_test_vectors.md section 8: words written out from the encodings of R69. -/
def Obligations.SampleCommandWordsDecode : Prop :=
  decode 0b00000000000000000000000000000000 = .ok .nop
  ∧ decode 0b00000000000000000000000000000001 = .ok .clr
  ∧ decode 0b00000000000000001010101000000010 = .ok (.push 0xAA)
  ∧ decode 0b00000000000000000000000000000011 = .ok .enc
  ∧ decode 0b00000000000000000000000000000100 = .ok .rank
  ∧ decode 0b00000000000000000000000000000101 = .ok .build
  ∧ decode 0b00000000000000000000000000000110 = .ok .pack
  ∧ decode 0b00000000000000000000000000000111 = .ok .run
  ∧ decode 0b00000000000000000000011000001000 = .ok (.lookup 6)
  ∧ decode 0x00010002 = .error .mustBeZero
  ∧ decode 0x00000009 = .error .opcode

/-- 30_encoding.md R70: which words are illegal, and that one sets `ERR.ILL`, whatever the state, and does nothing
else; it is not fatal. -/
def Obligations.IllegalWordRaisesIllOnly : Prop :=
  ∀ w : Word,
    (illegalWord w ↔ ∃ e, decode w = .error e)
    ∧ (illegalWord w → ∀ (s : State) (addr : Nat) (rest : List BusEvent), addr % 256 = 0 →
        step { s with bus := .write addr w :: rest } = .next { s with bus := rest, err := { s.err with ill := true } }
        ∧ State.fatal { s with bus := rest, err := { s.err with ill := true } } = s.fatal)

/-! ### One step -/

/-- 30_encoding.md section 1: a write of a legal word to `CMD` executes its command at the state the host's other events
have not reached yet. The queue `bus` is the model's own (log 1). -/
def Obligations.StepRunsTheDecodedCommand : Prop :=
  ∀ (s : State) (addr : Nat) (w : Word) (rest : List BusEvent) (i : Instr),
    addr % 256 = 0 → decode w = .ok i →
    step { s with bus := .write addr w :: rest } = exec i { s with bus := rest }

/-- 60_exceptions.md section 6: with no transaction the block is idle and all state survives. That the model's step with
an empty queue is this idleness is its own choice (log 9). -/
def Obligations.IdleStepKeepsTheState : Prop := ∀ s : State, s.bus = [] → step s = .next s

/-- 60_exceptions.md section 1: the block has no trap, so every step of every state answers a next state. -/
def Obligations.EveryStepAnswersNext : Prop := ∀ s : State, ∃ t, step s = .next t

/-- 00_scope.md section 5: no step changes the configuration. That it stands in State is the model's choice (log 2). -/
def Obligations.ConfigurationNeverChanges : Prop := ∀ s t : State, step s = .next t → t.cfg = s.cfg

/-! ### Bus transactions -/

/-- 20_memory.md R45: exactly which transactions raise `ERR.ADDR`, that they do nothing else and a read returns 0, and
that the flag is not fatal. -/
def Obligations.AddressErrors : Prop :=
  ∀ (s : State) (addr : Nat) (rest : List BusEvent),
    (addr % 256 % 4 ≠ 0 ∨ 0x40 ≤ addr % 256 →
      step { s with bus := .read addr :: rest } =
        .next { s with bus := rest, err := { s.err with addr := true }, replies := s.replies ++ [0] })
    ∧ (¬ (addr % 256 % 4 ≠ 0 ∨ 0x40 ≤ addr % 256) →
      ∃ t, step { s with bus := .read addr :: rest } = .next t ∧ t.err.addr = s.err.addr)
    ∧ (∀ v, addr % 256 % 4 ≠ 0 ∨ 0x40 ≤ addr % 256 ∨ addr % 256 ∈ readOnlyOffsets →
      step { s with bus := .write addr v :: rest } = .next { s with bus := rest, err := { s.err with addr := true } })
    ∧ (∀ v, ¬ (addr % 256 % 4 ≠ 0 ∨ 0x40 ≤ addr % 256 ∨ addr % 256 ∈ readOnlyOffsets) →
      ∃ t, step { s with bus := .write addr v :: rest } = .next t ∧ (t.err.addr = true → s.err.addr = true))
    ∧ State.fatal { s with err := { s.err with addr := true } } = s.fatal

/-- 10_state.md section 2, 20_memory.md section 2: a read of a register returns its fields, each at its place, and has
no other effect. -/
def Obligations.RegisterReadsReturnTheirFields : Prop :=
  ∀ (s : State) (rest : List BusEvent),
    ∀ p ∈ [((0x00 : Nat), (0 : Nat)),
      (0x04, (match s.phase with | .load => 0 | .encoded => 1 | .ranked => 2 | .built => 3 | .packed => 4)
        + 8 * (s.err.ovf || s.err.nf).toNat),
      (0x08, s.err.ovf.toNat + 2 * s.err.seq.toNat + 4 * s.err.ill.toNat + 8 * s.err.nf.toNat + 16 * s.err.idx.toNat
        + 32 * s.err.addr.toNat),
      (0x0C, s.nbytes), (0x10, s.npkt), (0x14, s.k), (0x18, s.codewidth), (0x1C, s.nout),
      (0x20, s.lkp.code.toNat + 2 ^ 31 * s.lkp.nf.toNat),
      (0x24, s.sel.toNat), (0x28, s.idx.toNat), (0x34, s.rleLen),
      (0x38, (s.rleBit.bit && !s.rleBit.none).toNat + 2 * s.rleBit.none.toNat + 4 * s.rleBit.drop.toNat),
      (0x3C, s.wstate.acc.toNat + 256 * s.wstate.cur.toNat)],
    ∀ addr : Nat, addr % 256 = p.1 →
      step { s with bus := .read addr :: rest } =
        .next { s with bus := rest, replies := s.replies ++ [BitVec.ofNat 32 p.2] }

/-- 20_memory.md section 3 (`Side effects of reads`): a read changes nothing but, for a window read out of range,
`ERR.IDX`, and for a bad offset, `ERR.ADDR`; a second read of the same offset returns the same word. -/
def Obligations.ReadsAreFreeOfOtherEffects : Prop :=
  ∀ (s : State) (addr : Nat) (rest : List BusEvent), ∃ (w : Word) (e : Err),
    (∀ f, f ≠ .idx → f ≠ .addr → e.get f = s.err.get f)
    ∧ (e.idx = s.err.idx ∨ (e.idx = true ∧ (addr % 256 = 0x2C ∨ addr % 256 = 0x30)))
    ∧ (e.addr = s.err.addr ∨ (e.addr = true ∧ (addr % 256 % 4 ≠ 0 ∨ 0x40 ≤ addr % 256)))
    ∧ step { s with bus := .read addr :: .read addr :: rest } =
        .next { s with bus := .read addr :: rest, err := e, replies := s.replies ++ [w] }
    ∧ step { s with bus := .read addr :: rest, err := e, replies := s.replies ++ [w] } =
        .next { s with bus := rest, err := e, replies := s.replies ++ [w, w] }

/-- 20_memory.md section 3: the window words of the four memories, in range, by reads of `RD0` and `RD1`. -/
def Obligations.WindowInRangeReadsTheEntry : Prop :=
  ∀ (s : State) (rest : List BusEvent) (addr0 addr1 : Nat), addr0 % 256 = 0x2C → addr1 % 256 = 0x30 →
    s.idx.toNat < s.selectedCount →
    ∃ d0 d1 : Nat,
      step { s with bus := .read addr0 :: rest } =
        .next { s with bus := rest, replies := s.replies ++ [BitVec.ofNat 32 d0] }
      ∧ step { s with bus := .read addr1 :: rest } =
        .next { s with bus := rest, replies := s.replies ++ [BitVec.ofNat 32 d1] }
      ∧ (s.sel = 0 → d0 = (s.inAt s.idx.toNat).toNat ∧ d1 = 0)
      ∧ (s.sel = 1 → d0 = (s.pktAt s.idx.toNat).length ∧ d1 = (s.pktAt s.idx.toNat).bitValue.toNat)
      ∧ (s.sel = 2 → d0 = (s.tblAt s.idx.toNat).runLength ∧ d1 = (s.tblAt s.idx.toNat).count)
      ∧ (s.sel = 3 → d0 = (s.outAt s.idx.toNat).toNat ∧ d1 = 0)

/-- 20_memory.md R52: out of range a window read returns 0 and sets `ERR.IDX`, nothing else; in range it sets nothing;
in phase `LOAD` with nothing pushed, and before a memory's stage has run, every window read is out of range. -/
def Obligations.WindowOutOfRangeRaisesIdx : Prop :=
  ∀ (s : State) (rest : List BusEvent) (addr : Nat), addr % 256 = 0x2C ∨ addr % 256 = 0x30 →
    (s.selectedCount ≤ s.idx.toNat →
      step { s with bus := .read addr :: rest } =
        .next { s with bus := rest, err := { s.err with idx := true }, replies := s.replies ++ [0] })
    ∧ (s.idx.toNat < s.selectedCount →
      ∃ w, step { s with bus := .read addr :: rest } = .next { s with bus := rest, replies := s.replies ++ [w] })
    ∧ (s.Inv → (s.phase = .load ∧ s.nbytes = 0) ∨ (s.phase = .load ∧ s.sel = 1)
        ∨ (s.phase.number < 2 ∧ s.sel = 2) ∨ (s.phase.number < 4 ∧ s.sel = 3) → s.selectedCount = 0)

/-- 20_memory.md R44: what a write to an aligned offset does. -/
def Obligations.WritesByOffset : Prop :=
  ∀ (s : State) (addr : Nat) (v : Word) (rest : List BusEvent),
    (addr % 256 = 0x00 →
      step { s with bus := .write addr v :: rest } =
        match decode v with
        | .ok i => exec i { s with bus := rest }
        | .error _ => .next { s with bus := rest, err := { s.err with ill := true } })
    ∧ (addr % 256 = 0x24 →
      step { s with bus := .write addr v :: rest } = .next { s with bus := rest, sel := v.extractLsb' 0 2 })
    ∧ (addr % 256 = 0x28 → step { s with bus := .write addr v :: rest } = .next { s with bus := rest, idx := v })
    ∧ (addr % 256 % 4 = 0 → addr % 256 ≠ 0x00 → addr % 256 ≠ 0x24 → addr % 256 ≠ 0x28 →
      step { s with bus := .write addr v :: rest } = .next { s with bus := rest, err := { s.err with addr := true } })

/-! ### Flags -/

/-- 60_exceptions.md section 3: one transaction raises at most one flag. -/
def Obligations.AtMostOneFlagARises : Prop :=
  ∀ (s t : State) (f g : ErrFlag), step s = .next t → f ≠ g →
    s.err.get f = false → t.err.get f = true → s.err.get g = false → t.err.get g = false

/-- 60_exceptions.md section 4: a flag once set stays set, whatever happens, until `CLR` or a reset, which clear all
six. -/
def Obligations.FlagsAreSticky : Prop :=
  ∀ s t : State, step s = .next t →
    (∀ f, s.err.get f = true → t.err.get f = true)
    ∨ ((∃ e rest, s.bus = e :: rest ∧ clearingEvent e) ∧ ∀ f, t.err.get f = false)

/-- 60_exceptions.md R162: `ERR.OVF` is raised by `PUSH` when `NBYTES = NMAX`, the byte is not stored, the flag is fatal;
no other command raises it. -/
def Obligations.OverflowIsRaisedByPushOnly : Prop :=
  (∀ (s : State) (b : Byte), s.phase = .load → s.err.ovf = false → s.err.nf = false → s.nbytes = s.cfg.nmax →
    exec (.push b) s = .next { s with err := { s.err with ovf := true } }
    ∧ State.fatal { s with err := { s.err with ovf := true } } = true)
  ∧ ∀ (i : Instr) (s t : State), exec i s = .next t → s.err.ovf = false → t.err.ovf = true →
      ∃ b, i = .push b ∧ s.nbytes = s.cfg.nmax ∧ t.nbytes = s.cfg.nmax

/-- 60_exceptions.md R169: while `FATAL` is 1 the stage commands and `PUSH` are refused with `ERR.SEQ`; `NOP`, `CLR` and,
in `BUILT` and `PACKED`, `LOOKUP` execute; reads and window reads still work; only `CLR` or a reset leaves the fatal
state; the other four flags gate nothing: whatever they hold, every command does the same. -/
def Obligations.FatalStateIsFailFast : Prop :=
  (∀ s : State, s.fatal = (s.err.ovf || s.err.nf))
  ∧ (∀ (s : State) (b : Byte) (i : Instr), s.err.ovf = true ∨ s.err.nf = true →
      i ∈ [.push b, .enc, .rank, .build, .pack, .run] →
      exec i s = .next { s with err := { s.err with seq := true } })
  ∧ (∀ s : State, s.err.ovf = true ∨ s.err.nf = true →
      exec .nop s = .next s
      ∧ (∃ t, exec .clr s = .next t ∧ t.err.ovf = false ∧ t.err.nf = false)
      ∧ (s.phase = .built ∨ s.phase = .packed → ∀ n, ∃ l, exec (.lookup n) s = .next { s with lkp := l })
      ∧ ∀ (addr : Nat) (rest : List BusEvent), addr % 256 % 4 = 0 → addr % 256 < 0x40 →
          (addr % 256 = 0x2C ∨ addr % 256 = 0x30 → s.idx.toNat < s.selectedCount) →
          ∃ w, step { s with bus := .read addr :: rest } = .next { s with bus := rest, replies := s.replies ++ [w] })
  ∧ (∀ s t : State, step s = .next t → s.err.ovf = true ∨ s.err.nf = true →
      (t.err.ovf = true ∨ t.err.nf = true) ∨ ∃ e rest, s.bus = e :: rest ∧ clearingEvent e)
  ∧ (∀ (i : Instr) (s : State) (e : Err), e.ovf = s.err.ovf → e.nf = s.err.nf →
      ∃ t u, exec i s = .next t ∧ exec i { s with err := e } = .next u
        ∧ { u with err := t.err } = t ∧ u.err.ovf = t.err.ovf ∧ u.err.nf = t.err.nf
        ∧ legal i { s with err := e } = legal i s)

/-! ### Reset, `CLR`, `NOP` -/

/-- 10_state.md R34: after a reset and after `CLR` the state is the reset state, whose values are here the words the host
reads; no entry of a memory is valid. `draws`, `bus` and `replies` are the model's own (log 1, log 5, log 6). -/
def Obligations.ResetStateHasTheResetValues : Prop :=
  (∀ (s : State) (rest : List BusEvent), ∃ d,
    step { s with bus := .reset :: rest } =
      .next { State.resetWith s.cfg with draws := d, bus := rest, replies := s.replies }
    ∧ exec .clr { s with bus := rest } =
      .next { State.resetWith s.cfg with draws := d, bus := rest, replies := s.replies })
  ∧ ∀ (c : Config) (d : Nat),
    (∀ p ∈ [((0x00 : Nat), (0x00000000 : Word)), (0x04, 0x00000000), (0x08, 0x00000000), (0x0C, 0), (0x10, 0), (0x14, 0),
        (0x18, 0), (0x1C, 0), (0x20, 0x00000000), (0x24, 0), (0x28, 0), (0x34, 0), (0x38, 0x00000006),
        (0x3C, 0x00000000)],
      step { State.resetWith c with draws := d, bus := [.read p.1] } =
        .next { State.resetWith c with draws := d, replies := [p.2] })
    ∧ (∀ addr, addr = 0x2C ∨ addr = 0x30 →
      step { State.resetWith c with draws := d, bus := [.read addr] } =
        .next { State.resetWith c with draws := d, err := ⟨false, false, false, false, true, false⟩, replies := [0] })
    ∧ (State.resetWith c).phase = .load ∧ (State.resetWith c).fatal = false
    ∧ (State.resetWith c).inputBytes = [] ∧ (State.resetWith c).packets = [] ∧ (State.resetWith c).table = []
    ∧ (State.resetWith c).outputBytes = []

/-- 70_reset_and_hazards.md R187: `CLR` leaves exactly the state a reset leaves. -/
def Obligations.ClearEqualsReset : Prop :=
  ∀ (s : State) (rest : List BusEvent), step { s with bus := .reset :: rest } = exec .clr { s with bus := rest }

/-- 70_reset_and_hazards.md section 1: a reset while a command executes leaves the reset state and nothing of the
command. The event is the model's way to deliver it (log 7). -/
def Obligations.ResetAbandonsACommand : Prop :=
  ∀ (s : State) (addr : Nat) (v : Word) (rest : List BusEvent),
    step { s with bus := .writeCutByReset addr v :: rest } = step { s with bus := .reset :: rest }

/-- 41_control_commands.md R100: `CLR` is legal always, also when `FATAL` is 1; every register takes its reset value, no
entry is valid, all six flags are cleared, and no other command clears a flag. -/
def Obligations.ClrRestoresTheResetState : Prop :=
  (∀ s : State, ∃ t, exec .clr s = .next t
    ∧ t.phase = .load ∧ t.err = ⟨false, false, false, false, false, false⟩
    ∧ t.nbytes = 0 ∧ t.npkt = 0 ∧ t.k = 0 ∧ t.codewidth = 0 ∧ t.nout = 0
    ∧ t.lkp.word = 0 ∧ t.sel = 0 ∧ t.idx = 0 ∧ t.rleLen = 0 ∧ t.rleBit.word = 0x6 ∧ t.wstate.word = 0
    ∧ t.inputBytes = [] ∧ t.packets = [] ∧ t.table = [] ∧ t.outputBytes = [])
  ∧ ∀ (i : Instr) (s t : State) (f : ErrFlag), exec i s = .next t → i ≠ .clr → s.err.get f = true → t.err.get f = true

/-- 41_control_commands.md R99: in any state `s`, `NOP` leaves `s`. -/
def Obligations.NopLeavesTheState : Prop := ∀ s : State, exec .nop s = .next s

/-! ### The phase protocol, `PUSH`, `RUN` -/

/-- 41_control_commands.md R97: a command that R96 does not allow sets `ERR.SEQ`, which is not fatal, and nothing
else. -/
def Obligations.RefusedCommandRaisesSeqOnly : Prop :=
  ∀ (i : Instr) (s : State), ¬ commandAllowed i s →
    exec i s = .next { s with err := { s.err with seq := true } }
    ∧ State.fatal { s with err := { s.err with seq := true } } = s.fatal

/-- 41_control_commands.md R96: a command executes only where the table allows it (elsewhere it sets `ERR.SEQ` and does
nothing), and the phase afterwards. -/
def Obligations.PhaseAfterACommand : Prop :=
  ∀ (i : Instr) (s : State), ∃ t, exec i s = .next t
    ∧ (¬ commandAllowed i s → t = { s with err := { s.err with seq := true } })
    ∧ (commandAllowed i s →
      match i with
      | .nop => t.phase = s.phase
      | .clr => t.phase = .load
      | .push _ => t.phase = .load
      | .enc => t.phase = .encoded
      | .rank => t.phase = .ranked
      | .build => t.phase = .built
      | .pack => t.phase = .packed ∨ (t.phase = .built ∧ t.err.nf = true)
      | .run => t.phase = .packed
      | .lookup _ => t.phase = s.phase)

/-- 10_state.md section 3: over any step the phase stays, moves one forward, goes back to `LOAD` by `CLR` or a reset, or
goes from `LOAD` to `PACKED` by `RUN`. -/
def Obligations.PhaseMovesOneForward : Prop :=
  ∀ s t : State, step s = .next t →
    t.phase = s.phase
    ∨ t.phase.number = s.phase.number + 1
    ∨ (t.phase = .load ∧ ∃ e rest, s.bus = e :: rest ∧ clearingEvent e)
    ∨ (s.phase = .load ∧ t.phase = .packed ∧ ∃ addr rest, s.bus = .write addr 0x00000007 :: rest ∧ addr % 256 = 0)

/-- 41_control_commands.md section 2: `PUSH` below capacity stores its byte at `IN[NBYTES]`, whose address is the count
before, and counts it; every other valid entry and all else stay. That entries beyond the new count keep their values
too is the model's choice (log 13, with the free values of logs 4 and 5), 93_implementation_defined.md U10 allowing
any. -/
def Obligations.PushAppendsItsByte : Prop :=
  ∀ (s : State) (b : Byte), s.phase = .load → s.err.ovf = false → s.err.nf = false → s.nbytes ≠ s.cfg.nmax →
    ∃ t, exec (.push b) s = .next t
      ∧ t.nbytes = s.nbytes + 1 ∧ t.inAt s.nbytes = b ∧ (∀ i, i ≠ s.nbytes → t.inAt i = s.inAt i)
      ∧ t.inputBytes = s.inputBytes ++ [b]
      ∧ t = { s with inMem := t.inMem, nbytes := t.nbytes }

/-- 41_control_commands.md section 2: `RUN` is `ENC`, `RANK`, `BUILD`, `PACK`, each exactly that command; an empty input
ends in `PACKED` with all counts 0. -/
def Obligations.RunIsTheFourStages : Prop :=
  ∀ s : State, s.phase = .load → s.err.ovf = false → s.err.nf = false →
    ∃ a b c t, exec .enc s = .next a ∧ exec .rank a = .next b ∧ exec .build b = .next c ∧ exec .pack c = .next t
      ∧ exec .run s = .next t
      ∧ (s.nbytes = 0 → t.phase = .packed ∧ t.npkt = 0 ∧ t.k = 0 ∧ t.codewidth = 0 ∧ t.nout = 0)

/-- 41_control_commands.md section 2, 60_exceptions.md section 7: a legal `RUN` completes successfully from every state
and leaves the pipeline's artifacts of the input; its frame. That entries at or beyond the new counts keep their values
is the model's choice (log 13), 93_implementation_defined.md U10 allowing any. -/
def Obligations.RunCompletesSuccessfully : Prop :=
  ∀ s : State, s.phase = .load → s.err.ovf = false → s.err.nf = false →
    ∃ t, exec .run s = .next t
      ∧ t.runSuccessful ∧ t.wstate = ⟨0, 0⟩
      ∧ t.packets = pipelinePackets s.inputBytes ∧ t.table = pipelineTable s.inputBytes
      ∧ t.codewidth = codeWidth (pipelineTable s.inputBytes).length ∧ t.outputBytes = pipelineOutput s.inputBytes
      ∧ t = { s with phase := t.phase, npkt := t.npkt, pkt := t.pkt, rleLen := t.rleLen, rleBit := t.rleBit, k := t.k,
                     tbl := t.tbl, codewidth := t.codewidth, nout := t.nout, out := t.out, wstate := t.wstate }
      ∧ (∀ i, t.npkt ≤ i → t.pktAt i = s.pktAt i) ∧ (∀ i, t.k ≤ i → t.tblAt i = s.tblAt i)
      ∧ (∀ i, t.nout ≤ i → t.outAt i = s.outAt i)

/-! ### `ENC` -/

/-- 42_rle_encoder.md sections 1 and 4: `ENC` leaves the maximal runs of the bit stream in order (written back as bits
they are the stream, each of length at least 1, neighbours of different bit value); its frame. That entries of `PKT` at
or beyond the new `NPKT` keep their values is the model's choice (log 13), 93_implementation_defined.md U10 allowing
any. -/
def Obligations.EncLeavesTheMaximalRuns : Prop :=
  ∀ s : State, s.phase = .load → s.err.ovf = false → s.err.nf = false →
    ∃ t, exec .enc s = .next t
      ∧ expandPackets t.packets = s.inputBits
      ∧ (∀ i, i < t.npkt → 1 ≤ (t.pktAt i).length)
      ∧ (∀ i, i + 1 < t.npkt → (t.pktAt i).bitValue ≠ (t.pktAt (i + 1)).bitValue)
      ∧ t.phase = .encoded
      ∧ t = { s with phase := t.phase, npkt := t.npkt, pkt := t.pkt, rleLen := t.rleLen, rleBit := t.rleBit }
      ∧ (∀ i, t.npkt ≤ i → t.pktAt i = s.pktAt i)

/-- 42_rle_encoder.md section 4: the lengths sum to `8 * NBYTES`, and the bounds that follow (marked there as
derived). -/
def Obligations.EncLengthsSumToTheBits : Prop :=
  ∀ s : State, s.phase = .load → s.err.ovf = false → s.err.nf = false →
    ∃ t, exec .enc s = .next t
      ∧ t.packetLengths.sum = 8 * s.nbytes ∧ t.npkt ≤ 8 * s.nbytes
      ∧ (∀ i, i < t.npkt → (t.pktAt i).length ≤ 8 * s.nbytes)
      ∧ (t.npkt = 0 ↔ s.nbytes = 0)

/-- 42_rle_encoder.md R117: no two adjacent packets share `bitValue`, so each is the first one's XOR the parity of its
index. -/
def Obligations.EncBitValuesAlternate : Prop :=
  ∀ s : State, s.phase = .load → s.err.ovf = false → s.err.nf = false →
    ∃ t, exec .enc s = .next t
      ∧ (∀ i, i + 1 < t.npkt → (t.pktAt i).bitValue ≠ (t.pktAt (i + 1)).bitValue)
      ∧ (∀ i, i < t.npkt → (t.pktAt i).bitValue = ((t.pktAt 0).bitValue ^^ decide (i % 2 = 1)))

/-- 42_rle_encoder.md section 2: the working registers after an `ENC`. -/
def Obligations.EncWorkingRegisters : Prop :=
  ∀ s : State, s.phase = .load → s.err.ovf = false → s.err.nf = false →
    ∃ t, exec .enc s = .next t
      ∧ t.rleBit.drop = false
      ∧ (s.nbytes = 0 → t.rleLen = 0 ∧ t.rleBit.none = true ∧ t.rleBit.bit = false ∧ t.rleBit.word = 0x2)
      ∧ (0 < s.nbytes →
          0 < t.npkt ∧ t.rleLen = (t.pktAt (t.npkt - 1)).length ∧ t.rleBit.none = false
          ∧ t.rleBit.bit = (s.inAt (s.nbytes - 1)).getLsbD 0)

/-- 42_rle_encoder.md section 3: empty, uniform and alternating inputs (the alternating ones are marked there as
derived). -/
def Obligations.EncCornerCases : Prop :=
  ∀ s : State, s.phase = .load → s.err.ovf = false → s.err.nf = false →
    ∃ t, exec .enc s = .next t
      ∧ (s.nbytes = 0 → t.npkt = 0)
      ∧ (0 < s.nbytes → (∀ i, i < s.nbytes → s.inAt i = 0x00) → t.npkt = 1 ∧ t.pktAt 0 = ⟨8 * s.nbytes, false⟩)
      ∧ (0 < s.nbytes → (∀ i, i < s.nbytes → s.inAt i = 0xFF) → t.npkt = 1 ∧ t.pktAt 0 = ⟨8 * s.nbytes, true⟩)
      ∧ ((∀ i, i < s.nbytes → s.inAt i = 0xAA) →
          t.npkt = 8 * s.nbytes ∧ ∀ i, i < t.npkt → t.pktAt i = ⟨1, decide (i % 2 = 0)⟩)
      ∧ ((∀ i, i < s.nbytes → s.inAt i = 0x55) →
          t.npkt = 8 * s.nbytes ∧ ∀ i, i < t.npkt → t.pktAt i = ⟨1, decide (i % 2 = 1)⟩)

/-! ### `RANK` -/

/-- 43_frequency_ranker.md R125, R126: one entry per distinct length, grouped by length alone, with its number of
packets; an entry stands before another exactly when its count is larger, or equal and its first-seen index smaller;
the frame of `RANK`. -/
def Obligations.RankGroupsAndOrders : Prop :=
  ∀ s : State, s.phase = .encoded → s.err.ovf = false → s.err.nf = false →
    ∃ t, exec .rank s = .next t
      ∧ (∀ len, len ∈ s.packetLengths ↔ ∃ i, i < t.k ∧ (t.tblAt i).runLength = len)
      ∧ (∀ i j, i < t.k → j < t.k → (t.tblAt i).runLength = (t.tblAt j).runLength → i = j)
      ∧ (∀ i, i < t.k → (t.tblAt i).count = s.packetLengths.count (t.tblAt i).runLength)
      ∧ (∀ i j, i < t.k → j < t.k →
          (i < j ↔ (t.tblAt j).count < (t.tblAt i).count
            ∨ ((t.tblAt i).count = (t.tblAt j).count
              ∧ s.packetLengths.idxOf (t.tblAt i).runLength < s.packetLengths.idxOf (t.tblAt j).runLength)))
      ∧ t.phase = .ranked
      ∧ t = { s with phase := t.phase, k := t.k, tbl := t.tbl }

/-- 43_frequency_ranker.md section 2: `RANK` leaves the `TBL` and `K` that the reference algorithm leaves, and nothing
else differs. -/
def Obligations.RankAgreesWithTheReferenceAlgorithm : Prop :=
  ∀ s : State, s.phase = .encoded → s.err.ovf = false → s.err.nf = false →
    ∃ t, exec .rank s = .next t
      ∧ (∀ i, t.tblAt i = (referenceRank s).tblAt i)
      ∧ { t with tbl := [] } = { referenceRank s with tbl := [] }

/-! ### `BUILD`, `LOOKUP` -/

/-- 44_code_table.md R136: `CODEWIDTH <- CodeWidth(K)`, the least width that `K` codes fit in and 0 for `K <= 1`, and
`PHASE <- BUILT`; nothing else. -/
def Obligations.BuildSetsTheCodeWidth : Prop :=
  (∀ s : State, s.phase = .ranked → s.err.ovf = false → s.err.nf = false →
    ∃ w, exec .build s = .next { s with codewidth := w, phase := .built }
      ∧ (s.k ≤ 1 → w = 0) ∧ (2 ≤ s.k → s.k ≤ 2 ^ w ∧ ∀ v, v < w → 2 ^ v < s.k) ∧ (s.k = 5 → w = 3))
  ∧ ∀ s : State, s.phase ≠ .ranked ∨ s.err.ovf = true ∨ s.err.nf = true →
      exec .build s = .next { s with err := { s.err with seq := true } }

/-- 44_code_table.md R140: `LOOKUP` answers the index of the first entry of that run length, or the miss word, in `LKP`
and nowhere else; where it is not legal `LKP` keeps its value; key 0 and keys above `2^23` miss in every state the
invariant admits. -/
def Obligations.LookupAnswersTheCode : Prop :=
  (∀ (s : State) (n : BitVec 24), s.phase = .built ∨ s.phase = .packed →
    (∀ t, t < s.k → (s.tblAt t).runLength = n.toNat → (∀ j, j < t → (s.tblAt j).runLength ≠ n.toNat) →
      exec (.lookup n) s = .next { s with lkp := ⟨BitVec.ofNat 31 t, false⟩ })
    ∧ ((∀ t, t < s.k → (s.tblAt t).runLength ≠ n.toNat) → exec (.lookup n) s = .next { s with lkp := ⟨0, true⟩ })
    ∧ (s.Inv → n.toNat = 0 ∨ 2 ^ 23 < n.toNat → exec (.lookup n) s = .next { s with lkp := ⟨0, true⟩ }))
  ∧ (∀ (s : State) (n : BitVec 24), s.phase ≠ .built → s.phase ≠ .packed →
      exec (.lookup n) s = .next { s with err := { s.err with seq := true } })
  ∧ (∀ t, t < 2 ^ 31 → (Lkp.word ⟨BitVec.ofNat 31 t, false⟩).toNat = t)
  ∧ Lkp.word ⟨0, true⟩ = 0x80000000

/-- 44_code_table.md section 3: once the table is built, looking up the run length of entry `i` answers `i`, so the codes
are a permutation of `0 .. K-1`. -/
def Obligations.LookupOfAnEntryIsItsIndex : Prop :=
  ∀ (s : State) (i : Nat), s.Inv → s.phase = .built ∨ s.phase = .packed → i < s.k →
    exec (.lookup (BitVec.ofNat 24 (s.tblAt i).runLength)) s = .next { s with lkp := ⟨BitVec.ofNat 31 i, false⟩ }
    ∧ i < 2 ^ s.codewidth

/-! ### `PACK` -/

/-- 20_memory.md R61: the output is the codes of the packets in order, each `CODEWIDTH` bits, most significant first, bit
`u` at `OUT[u div 8][7 - (u mod 8)]`, zeros after the last code bit; `NOUT` is the least number of bytes that holds
them; the frame of a complete `PACK`. -/
def Obligations.PackWritesTheCodeBits : Prop :=
  ∀ s : State, s.phase = .built → s.err.ovf = false → s.err.nf = false →
    (∀ p, p < s.npkt → ∃ i, i < s.k ∧ (s.tblAt i).runLength = (s.pktAt p).length) →
    ∃ t, exec .pack s = .next t
      ∧ t.phase = .packed
      ∧ t.nout = (s.npkt * s.codewidth + 7) / 8
      ∧ (∀ p j, p < s.npkt → j < s.codewidth →
          t.outputBit (p * s.codewidth + j) =
            (s.tableRuns.idxOf (s.pktAt p).length).testBit (s.codewidth - 1 - j))
      ∧ (∀ u, s.npkt * s.codewidth ≤ u → u < 8 * t.nout → t.outputBit u = false)
      ∧ t.wstate = ⟨0, 0⟩
      ∧ t = { s with phase := t.phase, nout := t.nout, out := t.out, wstate := t.wstate }

/-- 45_bit_packed_writer.md R150: a lookup that misses aborts `PACK`: `ERR.NF`, `NOUT` and `WSTATE` 0, the phase
unchanged, no output readable, `FATAL` 1, so that no stage command runs until `CLR`; no state the invariant admits has
such a packet. -/
def Obligations.PackAbortsOnAMiss : Prop :=
  (∀ s : State, s.Inv → s.phase = .built →
    ¬ ∃ p, p < s.npkt ∧ ∀ i, i < s.k → (s.tblAt i).runLength ≠ (s.pktAt p).length)
  ∧ ∀ s : State, s.phase = .built → s.err.ovf = false → s.err.nf = false →
    (∃ p, p < s.npkt ∧ ∀ i, i < s.k → (s.tblAt i).runLength ≠ (s.pktAt p).length) →
    ∃ t, exec .pack s = .next t
      ∧ t = { s with err := { s.err with nf := true }, nout := 0, wstate := ⟨0, 0⟩, out := t.out }
      ∧ t.outputBytes = [] ∧ t.fatal = true
      ∧ (∀ i ∈ [Instr.enc, .rank, .build, .pack, .run], exec i t = .next { t with err := { t.err with seq := true } })

/-- 45_bit_packed_writer.md section 3: in a state the invariant admits no lookup of `PACK` misses, so it completes and
raises nothing (marked there as derived). -/
def Obligations.PackNeverMissesUnderTheInvariant : Prop :=
  ∀ s : State, s.Inv → s.phase = .built → s.err.ovf = false →
    ∃ t, exec .pack s = .next t ∧ t.phase = .packed ∧ t.err = s.err ∧ t.runSuccessful

/-- 45_bit_packed_writer.md section 3: `PACK` never reads a `bitValue`: states that agree on the lengths, the table's run
lengths and the width give the same output. -/
def Obligations.PackIgnoresBitValues : Prop :=
  ∀ s₁ s₂ : State, s₁.phase = .built → s₂.phase = .built →
    s₁.err.ovf = false → s₁.err.nf = false → s₂.err.ovf = false → s₂.err.nf = false →
    s₁.packetLengths = s₂.packetLengths → s₁.tableRuns = s₂.tableRuns → s₁.codewidth = s₂.codewidth →
    ∃ t₁ t₂, exec .pack s₁ = .next t₁ ∧ exec .pack s₂ = .next t₂
      ∧ t₁.outputBytes = t₂.outputBytes ∧ t₁.nout = t₂.nout ∧ t₁.phase = t₂.phase ∧ t₁.err.nf = t₂.err.nf

/-- 45_bit_packed_writer.md section 3, 95_test_vectors.md section 12: inverting every byte of the input leaves the table,
the width, the output and every length unchanged and inverts every `bitValue`. -/
def Obligations.InvertedInputGivesTheSameOutput : Prop :=
  ∀ s₁ s₂ : State, s₁.phase = .load → s₂.phase = .load →
    s₁.err.ovf = false → s₁.err.nf = false → s₂.err.ovf = false → s₂.err.nf = false →
    s₂.nbytes = s₁.nbytes → (∀ i, i < s₁.nbytes → s₂.inAt i = ~~~ s₁.inAt i) →
    ∃ t₁ t₂, exec .run s₁ = .next t₁ ∧ exec .run s₂ = .next t₂
      ∧ t₂.table = t₁.table ∧ t₂.codewidth = t₁.codewidth ∧ t₂.outputBytes = t₁.outputBytes
      ∧ t₂.packetLengths = t₁.packetLengths
      ∧ ∀ i, i < t₁.npkt → (t₂.pktAt i).bitValue = !(t₁.pktAt i).bitValue

/-- 70_reset_and_hazards.md section 3, 95_test_vectors.md section 12: the output with the side information (the width,
the run lengths in rank order, `NPKT`, the first packet's `bitValue`) determines the input. -/
def Obligations.OutputAndSideInformationDetermineTheInput : Prop :=
  ∀ s₁ s₂ t₁ t₂ : State, s₁.phase = .load → s₂.phase = .load →
    s₁.err.ovf = false → s₁.err.nf = false → s₂.err.ovf = false → s₂.err.nf = false →
    exec .run s₁ = .next t₁ → exec .run s₂ = .next t₂ →
    t₁.outputBytes = t₂.outputBytes → t₁.codewidth = t₂.codewidth → t₁.tableRuns = t₂.tableRuns → t₁.npkt = t₂.npkt →
    (0 < t₁.npkt → (t₁.pktAt 0).bitValue = (t₂.pktAt 0).bitValue) →
    s₁.inputBytes = s₂.inputBytes

/-! ### The whole machine -/

/-- 10_state.md section 7: every step keeps the invariants of the state. That memories are canonical and valid entries
listed is the model's own part of them (log 4). -/
def Obligations.StepKeepsTheInvariant : Prop := ∀ s t : State, s.Inv → step s = .next t → t.Inv

/-- 60_exceptions.md section 7: every step keeps it true that what the block holds in each phase is the pipeline's
artifact of its input, the output included. -/
def Obligations.StepKeepsTheArtifacts : Prop := ∀ s t : State, s.Artifacts → step s = .next t → t.Artifacts

/-- 10_state.md sections 7 and 8: the reset state meets both invariants, for every legal `NMAX`. -/
def Obligations.ResetMeetsTheInvariants : Prop :=
  State.reset.Inv ∧ ∀ c : Config, c.wf → (State.resetWith c).Inv ∧ (State.resetWith c).Artifacts

/-- 10_state.md section 6: each memory and each count has exactly one writing command, `RUN` and `CLR` apart. -/
def Obligations.EachMemoryHasOneWritingCommand : Prop :=
  ∀ (i : Instr) (s t : State), exec i s = .next t →
    ((∀ b, i ≠ .push b) → i ≠ .clr → t.inMem = s.inMem ∧ t.nbytes = s.nbytes)
    ∧ (i ∉ [.enc, .run, .clr] → t.pkt = s.pkt ∧ t.npkt = s.npkt ∧ t.rleLen = s.rleLen ∧ t.rleBit = s.rleBit)
    ∧ (i ∉ [.rank, .run, .clr] → t.tbl = s.tbl ∧ t.k = s.k)
    ∧ (i ∉ [.build, .run, .clr] → t.codewidth = s.codewidth)
    ∧ (i ∉ [.pack, .run, .clr] → t.out = s.out ∧ t.nout = s.nout ∧ t.wstate = s.wstate)
    ∧ ((∀ n, i ≠ .lookup n) → i ≠ .clr → t.lkp = s.lkp)
    ∧ (i ≠ .clr → t.sel = s.sel ∧ t.idx = s.idx ∧ t.draws = s.draws)
    ∧ t.cfg = s.cfg ∧ t.bus = s.bus ∧ t.replies = s.replies

/-- 41_control_commands.md section 3 (R103, marked there as derived): a stage writes its memory at the indices its
pseudocode shows, and nowhere else. That what is not written stays as it was, also after an aborted `PACK`, is the
model's choice among the values 93_implementation_defined.md U10 allows (log 13). -/
def Obligations.StagesWriteNoOtherEntry : Prop :=
  ∀ (i : Instr) (s t : State), i ∈ [.enc, .rank, .build, .pack, .run] → exec i s = .next t →
    (∀ j, t.npkt ≤ j → t.pktAt j = s.pktAt j)
    ∧ (∀ j, t.k ≤ j → t.tblAt j = s.tblAt j)
    ∧ (t.phase = .packed → ∀ j, t.nout ≤ j → t.outAt j = s.outAt j)
    ∧ (t.phase ≠ .packed → ∀ j,
        (s.packetLengths.takeWhile (· ∈ s.tableRuns)).length * s.codewidth / 8 ≤ j → t.outAt j = s.outAt j)

/-- 00_scope.md section 5, 10_state.md section 2: under the invariant the capacities suffice and every count and length,
`RLE_LEN` among them, is a 32-bit number with room. -/
def Obligations.CapacitiesSuffice : Prop :=
  ∀ s : State, s.Inv →
    s.nbytes ≤ s.cfg.nmax ∧ s.npkt ≤ s.cfg.pmax ∧ s.k ≤ s.cfg.kmax ∧ s.nout ≤ s.cfg.omax ∧ s.codewidth ≤ 23
    ∧ s.npkt ≤ 2 ^ 23 ∧ s.k ≤ 2 ^ 23 ∧ s.nout < 2 ^ 25
    ∧ s.rleLen ≤ 8 * s.nbytes ∧ s.rleLen ≤ 2 ^ 23
    ∧ (∀ i, i < s.npkt → (s.pktAt i).length ≤ 2 ^ 23)
    ∧ (∀ i, i < s.k → (s.tblAt i).runLength ≤ 2 ^ 23 ∧ (s.tblAt i).count ≤ 2 ^ 23)

/-! ### The host's software -/

/-- 40_host_loader_serializer.md section 2: the accepted tokens are exactly "P2" and "P5"; any other fails with
`FormatError`, exit status 10, and the block is not touched. Where a token ends is the whitespace of log 14 (PRESUMED),
and that an empty token (an empty file, or one that begins with whitespace) and a token that begins with `#` or holds one
(a comment before the format token, 93_implementation_defined.md U17) are a `FormatError` is the model's choice (log 16). -/
def Obligations.OtherFormatTokensFail : Prop :=
  (∀ file : List Byte, frontToken file = [0x50, 0x32] → readFormat file = .ok .p2)
  ∧ (∀ file : List Byte, frontToken file = [0x50, 0x35] → readFormat file = .ok .p5)
  ∧ ∀ (p : HostParams) (file : List Byte) (sink : OutputFile) (s : State),
      frontToken file ≠ [0x50, 0x32] → frontToken file ≠ [0x50, 0x35] →
      load p (.bytes file) = .error (.failed .format) ∧ compress p (.bytes file) sink s = (.stopped 10, s)

/-- 40_host_loader_serializer.md section 2: `maxGray > 255` fails with `RangeError`, exit status 11, whatever follows: for
every header the loader reads, comments included, and for the files written out as text. Where a field ends is the
whitespace of log 14 (PRESUMED), and that a header with a zero dimension as well, or with integers of any size, is a
`RangeError` is the model's choice (log 16), 93_implementation_defined.md U12 naming no error. -/
def Obligations.LargeMaxGrayFails : Prop :=
  (∀ (p : HostParams) (sink : OutputFile) (s : State) (file rest0 rest1 rest2 rest3 : List Byte) (format : PixelFormat)
      (width height maxGray : Nat),
    readFormat file = .ok format → skipComments .midLine (file.drop 2) = .ok rest0 →
    readNumber rest0 = .ok (width, rest1) → readNumber rest1 = .ok (height, rest2) →
    readNumber rest2 = .ok (maxGray, rest3) → 255 < maxGray →
    load p (.bytes file) = .error (.failed .range) ∧ compress p (.bytes file) sink s = (.stopped 11, s))
  ∧ ∀ (p : HostParams) (sink : OutputFile) (s : State) (kind : Byte) (width height maxGray rest : List Byte),
    kind = 0x32 ∨ kind = 0x35 →
    (width ≠ [] ∧ width.all isDigit) → (height ≠ [] ∧ height.all isDigit) → (maxGray ≠ [] ∧ maxGray.all isDigit) →
    255 < decimalValue maxGray →
    ∀ file, file = [0x50, kind, 0x0A] ++ width ++ [0x20] ++ height ++ [0x0A] ++ maxGray ++ [0x0A] ++ rest →
      load p (.bytes file) = .error (.failed .range) ∧ compress p (.bytes file) sink s = (.stopped 11, s)

/-- 40_host_loader_serializer.md R89: `linear[i*width+j] = grid[i][j]`, `height*width` bytes, for every grid. -/
def Obligations.SerializeIsRowMajor : Prop :=
  (∀ g : PixelGrid, g.wf →
    (serialize g).length = g.height * g.width
    ∧ ∀ i j, i < g.height → j < g.width →
        (serialize g)[i * g.width + j]? = (g.rows[i]?).bind (fun row => row[j]?))
  ∧ serialize ⟨3, 2, [[1, 2, 3], [4, 5, 6]]⟩ = [1, 2, 3, 4, 5, 6]

/-- 40_host_loader_serializer.md sections 1 and 2: `load` gives a fully populated grid of the header's dimensions or
none, and with `validatePixels` every intensity is at most `maxGray`; the pixels are the file's, in file order: the raw
bytes of P5, the decimal values of P2, never clamped. Where a value ends is the whitespace of log 14, and the byte before
P5 data is the one of log 15 (both PRESUMED). -/
def Obligations.LoadedGridIsFull : Prop :=
  ∀ (p : HostParams) (source : InputFile) (g : PixelGrid), load p source = .ok g →
    ∃ file h rest, source = .bytes file ∧ readHeader file = .ok (h, rest)
      ∧ g.wf ∧ g.width = h.width ∧ g.height = h.height ∧ 1 ≤ g.width ∧ 1 ≤ g.height ∧ h.maxGray ≤ 255
      ∧ (serialize g).length = g.height * g.width
      ∧ (p.validatePixels = true → g.bounded h.maxGray)
      ∧ (h.format = .p5 → serialize g = (rest.drop 1).take (h.width * h.height))
      ∧ (h.format = .p2 → ∃ tail, readValues (h.width * h.height) rest = .ok ((serialize g).map BitVec.toNat, tail))

/-- 40_host_loader_serializer.md sections 2 and 5: every failure to load ends with the exit status of its kind and leaves
the block untouched; unreadable input is an `IOError`; so is a P5 file with fewer bytes than pixels, unless
`validatePixels` finds one of them above `maxGray`, and a P2 file that ends before its last value, the earlier ones being
accepted; with `validatePixels` any P5 pixel above `maxGray`, and any P2 value above it that comes after accepted ones, is
a `RangeError`. The byte before P5 data is the one of log 15, and P2 values end at the whitespace of log 14 (both
PRESUMED). That a file both truncated and out of range is a `RangeError`, and that an unvalidated byte above `maxGray` is
accepted, so that such a short file is an `IOError`, are the model's choices (log 16). -/
def Obligations.LoadFailuresStopTheHost : Prop :=
  (∀ (p : HostParams) (source : InputFile) (sink : OutputFile) (s : State) (e : HostError),
    load p source = .error (.failed e) →
    compress p source sink s =
      (.stopped (match e with | .format => 10 | .range => 11 | .io => p.ioErrorExit), s))
  ∧ (∀ p : HostParams, load p .unreadable = .error (.failed .io))
  ∧ (∀ (p : HostParams) (file : List Byte) (h : ImageHeader) (rest : List Byte),
      readHeader file = .ok (h, rest) → h.format = .p5 → rest.length < 1 + h.width * h.height →
      (p.validatePixels = true → ∀ pixel ∈ rest.drop 1, pixel.toNat ≤ h.maxGray) →
      load p (.bytes file) = .error (.failed .io))
  ∧ (∀ (p : HostParams) (file : List Byte) (h : ImageHeader) (rest : List Byte) (i : Nat) (pixel : Byte),
      readHeader file = .ok (h, rest) → h.format = .p5 → p.validatePixels = true →
      i < h.width * h.height → (rest.drop 1)[i]? = some pixel → h.maxGray < pixel.toNat →
      load p (.bytes file) = .error (.failed .range))
  ∧ ∀ (p : HostParams) (file : List Byte) (h : ImageHeader) (rest tail : List Byte) (vs : List Nat),
      readHeader file = .ok (h, rest) → h.format = .p2 → vs.length < h.width * h.height →
      readValues vs.length rest = .ok (vs, tail) → (∀ v ∈ vs, pixelAccepted p h.maxGray v) →
      (tail.all isSpace = true → load p (.bytes file) = .error (.failed .io))
      ∧ (∀ v tail', readNumber tail = .ok (v, tail') → p.validatePixels = true → h.maxGray < v →
          load p (.bytes file) = .error (.failed .range))

/-- 40_host_loader_serializer.md sections 4 to 6: the reference driver goes on from a loaded image with its row-major
bytes, and from there (steps 2 to 8), from any state of the block, it writes the pipeline's output of an image that fits,
and with step 8 the decode side information of its packets and table; an output that cannot be written is an `IOError`,
and so is an image that does not fit, which leaves the block untouched. That `firstBit` is none where there is no packet,
the host reading no first `bitValue` then, that step 8 is a parameter, and that an unwritable output is found out after
the run are the model's choices (log 18). -/
def Obligations.DriverWritesThePipelineOutput : Prop :=
  (∀ (p : HostParams) (source : InputFile) (sink : OutputFile) (g : PixelGrid) (s : State), load p source = .ok g →
    compress p source sink s = compressLinear p sink (serialize g) s)
  ∧ ∀ (p : HostParams) (linear : List Byte) (s : State), s.cfg.wf →
    (linear.length ≤ s.cfg.nmax →
      (∃ t, t.runSuccessful ∧ compressLinear p .writable linear s =
        (.wrote (pipelineOutput linear)
          (if p.readSide then
            some { codewidth := codeWidth (pipelineTable linear).length, k := (pipelineTable linear).length,
                   npkt := (pipelinePackets linear).length,
                   runLengths := (pipelineTable linear).map FreqEntry.runLength,
                   firstBit := (pipelinePackets linear).head?.map RunPacket.bitValue }
          else none), t))
      ∧ ∃ t, compressLinear p .unwritable linear s = (.stopped p.ioErrorExit, t))
    ∧ (s.cfg.nmax < linear.length → ∀ sink, compressLinear p sink linear s = (.stopped p.ioErrorExit, s))

/-- 30_encoding.md section 5: each pseudo-instruction does what the lines of its expansion do, from every state, and from
a legal start `STAGES` ends in the same state as `RUN`. -/
def Obligations.PseudoInstructionsExpand : Prop :=
  (∀ s : State, s.phase = .load → s.err.ovf = false → s.err.nf = false →
    ∃ t, runScript [.stages] s = some (.next t) ∧ runScript [.run] s = some (.next t))
  ∧ (∀ s : State, runScript [.stages] s = runScript [.enc, .rank, .build, .pack] s)
  ∧ (∀ (s : State) (bs : List Nat), (∀ b ∈ bs, b ≤ 255) →
      runScript [.pushN bs] s = runScript (bs.map ScriptLine.push) s)
  ∧ (∀ (s : State) (m i : Nat), m < 2 ^ 32 → i < 2 ^ 32 →
      runScript [.peek m i] s = runScript [.wr 0x24 m, .wr 0x28 i, .rd 0x2C none, .rd 0x30 none] s)
  ∧ (∀ s : State, s.nout < 2 ^ 32 →
      runScript [.dumpOut] s = runScript (.rd 0x1C none :: (List.range s.nout).map (ScriptLine.peek 3)) s)
  ∧ ∀ s : State, s.k < 2 ^ 32 →
      runScript [.dumpTbl] s =
        runScript (.rd 0x14 none :: .rd 0x18 none :: (List.range s.k).map (ScriptLine.peek 2)) s
end

