-- ==== Sys2Proof/Laws/Decode.lean ====
section
/-! SUPPORT. The fields of a command word, and all that decoding one can answer (30_encoding.md R63 to R70). -/

namespace Sys2Proof

/-! ### The fields of a word put together from its parts -/

theorem opField_append (u : BitVec 24) (o : BitVec 8) : opField (u ++ o) = o := by
  apply BitVec.eq_of_getLsbD_eq
  intro i hi
  simp only [opField, BitVec.getLsbD_extractLsb']
  rw [BitVec.getLsbD_append]; simp [hi]

theorem imm24Field_append (u : BitVec 24) (o : BitVec 8) : imm24Field (u ++ o) = u := by
  apply BitVec.eq_of_getLsbD_eq
  intro i hi
  simp only [imm24Field, BitVec.getLsbD_extractLsb']
  rw [BitVec.getLsbD_append]; simp [hi]

theorem imm8Field_append (b : BitVec 8) (o : BitVec 8) : imm8Field ((0#16 ++ b : BitVec 24) ++ o) = b := by
  apply BitVec.eq_of_getLsbD_eq
  intro i hi
  simp only [imm8Field, BitVec.getLsbD_extractLsb']
  rw [BitVec.getLsbD_append, BitVec.getLsbD_append]; simp [hi]

theorem highField_append (b : BitVec 8) (o : BitVec 8) : highField ((0#16 ++ b : BitVec 24) ++ o) = 0 := by
  apply BitVec.eq_of_getLsbD_eq
  intro i hi
  simp only [highField, BitVec.getLsbD_extractLsb']
  rw [BitVec.getLsbD_append, BitVec.getLsbD_append]; simp [hi]
  split
  · omega
  · intro; omega

/-! ### A word is its fields -/

theorem word_split (w : Word) : w = imm24Field w ++ opField w := by
  apply BitVec.eq_of_getLsbD_eq
  intro i hi
  rw [BitVec.getLsbD_append]
  simp only [imm24Field, opField, BitVec.getLsbD_extractLsb']
  by_cases h : i < 8
  · simp [h]
  · simp [h, show i - 8 < 24 by omega, show 8 + (i - 8) = i by omega]

theorem imm24_split (w : Word) : imm24Field w = highField w ++ imm8Field w := by
  apply BitVec.eq_of_getLsbD_eq
  intro i hi
  rw [BitVec.getLsbD_append]
  simp only [imm24Field, highField, imm8Field, BitVec.getLsbD_extractLsb']
  by_cases h : i < 8
  · simp [h, hi]
  · simp [h, show i - 8 < 16 by omega, hi, show 16 + (i - 8) = 8 + i by omega]

/-! ### Decoding -/

/-- All that decoding can answer, and the fields of the word in each case. -/
theorem decode_cases (w : Word) :
   (decode w = .ok .nop ∧ imm24Field w = 0 ∧ opField w = 0) ∨
   (decode w = .ok .clr ∧ imm24Field w = 0 ∧ opField w = 1) ∨
   (decode w = .ok (.push (imm8Field w)) ∧ highField w = 0 ∧ opField w = 2) ∨
   (decode w = .ok .enc ∧ imm24Field w = 0 ∧ opField w = 3) ∨
   (decode w = .ok .rank ∧ imm24Field w = 0 ∧ opField w = 4) ∨
   (decode w = .ok .build ∧ imm24Field w = 0 ∧ opField w = 5) ∨
   (decode w = .ok .pack ∧ imm24Field w = 0 ∧ opField w = 6) ∨
   (decode w = .ok .run ∧ imm24Field w = 0 ∧ opField w = 7) ∨
   (decode w = .ok (.lookup (imm24Field w)) ∧ opField w = 8) ∨
   (decode w = .error .mustBeZero ∧ imm24Field w ≠ 0 ∧ (opField w).toNat ∈ [0, 1, 3, 4, 5, 6, 7]) ∨
   (decode w = .error .mustBeZero ∧ highField w ≠ 0 ∧ opField w = 2) ∨
   (decode w = .error .opcode ∧ 9 ≤ (opField w).toNat) := by
  have hop : ∀ n, n < 256 → (opField w).toNat = n → opField w = BitVec.ofNat 8 n := fun n hn h => by
    apply BitVec.eq_of_toNat_eq; simp [h, Nat.mod_eq_of_lt hn]
  unfold decode
  split <;> rename_i h
  · have := hop _ (by omega) h
    simp only [formatZ, this]
    by_cases hz : imm24Field w = 0 <;> simp [hz] <;> exact Classical.em _
  · have := hop _ (by omega) h
    simp only [formatZ, this]
    by_cases hz : imm24Field w = 0 <;> simp [hz] <;> exact Classical.em _
  · have := hop _ (by omega) h
    simp only [formatB, this]
    by_cases hz : highField w = 0 <;> simp [hz] <;> exact Classical.em _
  · have := hop _ (by omega) h
    simp only [formatZ, this]
    by_cases hz : imm24Field w = 0 <;> simp [hz] <;> exact Classical.em _
  · have := hop _ (by omega) h
    simp only [formatZ, this]
    by_cases hz : imm24Field w = 0 <;> simp [hz] <;> exact Classical.em _
  · have := hop _ (by omega) h
    simp only [formatZ, this]
    by_cases hz : imm24Field w = 0 <;> simp [hz] <;> exact Classical.em _
  · have := hop _ (by omega) h
    simp only [formatZ, this]
    by_cases hz : imm24Field w = 0 <;> simp [hz] <;> exact Classical.em _
  · have := hop _ (by omega) h
    simp only [formatZ, this]
    by_cases hz : imm24Field w = 0 <;> simp [hz] <;> exact Classical.em _
  · have := hop _ (by omega) h
    simp [formatL, this]
  · iterate 11 right
    refine ⟨rfl, ?_⟩
    have h' := (opField w).isLt
    by_contra hc
    simp only [not_le] at hc
    have hx : (opField w).toNat ≤ 8 := by omega
    generalize (opField w).toNat = n at *
    interval_cases n <;> simp_all

end Sys2Proof
end

