-- ==== Sys2Proof/Laws/Memory.lean ====
section
/-! SUPPORT. The laws of a memory: a read after a write, and that every write keeps the canonical form. -/

namespace Sys2Proof.Machine

variable {α : Type}

theorem entry?_put_same (m : Mem α) (i : Nat) (v : α) : Mem.entry? (Mem.put m i v) i = some v := by
  induction m with
  | nil => simp [Mem.put, Mem.entry?]
  | cons c m ih =>
    obtain ⟨j, w⟩ := c
    by_cases h1 : i < j
    · simp [Mem.put, Mem.entry?, h1]
    · by_cases h2 : i = j
      · simp [Mem.put, Mem.entry?, h2]
      · have h3 : ¬ j = i := fun h => h2 h.symm
        simp [Mem.put, Mem.entry?, h1, h2, h3, ih]

theorem entry?_put_other (m : Mem α) {i k : Nat} (v : α) (h : k ≠ i) :
    Mem.entry? (Mem.put m i v) k = Mem.entry? m k := by
  have h' : ¬ i = k := fun e => h e.symm
  induction m with
  | nil => simp [Mem.put, Mem.entry?, h']
  | cons c m ih =>
    obtain ⟨j, w⟩ := c
    by_cases h1 : i < j
    · simp [Mem.put, Mem.entry?, h1, h']
    · by_cases h2 : i = j
      · subst h2
        simp [Mem.put, Mem.entry?, h']
      · simp [Mem.put, Mem.entry?, h1, h2, ih]

/-- A read after a write: the value written at that entry, what was there at every other. -/
theorem entry?_put (m : Mem α) (i k : Nat) (v : α) :
    Mem.entry? (Mem.put m i v) k = if k = i then some v else Mem.entry? m k := by
  by_cases h : k = i
  · simp [h, entry?_put_same]
  · simp [h, entry?_put_other]

/-- The same for a run of writes from entry `i` on. -/
theorem entry?_putFrom (m : Mem α) (i k : Nat) (vs : List α) :
    Mem.entry? (Mem.putFrom m i vs) k =
      if i ≤ k ∧ k < i + vs.length then vs[k - i]? else Mem.entry? m k := by
  induction vs generalizing m i with
  | nil =>
    have h : ¬ (i ≤ k ∧ k < i + 0) := by omega
    simp only [Mem.putFrom, List.length_nil, if_neg h]
  | cons v vs ih =>
    simp only [Mem.putFrom, ih, entry?_put, List.length_cons]
    by_cases hk : k = i
    · subst hk
      have h1 : ¬ (k + 1 ≤ k ∧ k < k + 1 + vs.length) := by omega
      have h2 : k ≤ k ∧ k < k + (vs.length + 1) := by omega
      rw [if_neg h1, if_pos rfl, if_pos h2]
      simp
    · by_cases hr : i + 1 ≤ k ∧ k < i + 1 + vs.length
      · have h2 : i ≤ k ∧ k < i + (vs.length + 1) := by omega
        have h3 : k - i = (k - (i + 1)) + 1 := by omega
        rw [if_pos hr, if_pos h2, h3]
        simp
      · have h2 : ¬ (i ≤ k ∧ k < i + (vs.length + 1)) := by omega
        rw [if_neg hr, if_neg hk, if_neg h2]

/-- What a stage reads back of the entries it has written from entry 0 on. -/
theorem entry?_putFrom_zero (m : Mem α) (k : Nat) (vs : List α) :
    Mem.entry? (Mem.putFrom m 0 vs) k = if k < vs.length then vs[k]? else Mem.entry? m k := by
  simp [entry?_putFrom]

theorem keys_put (m : Mem α) (i : Nat) (v : α) (x : Nat) :
    x ∈ (Mem.put m i v).map Prod.fst ↔ x = i ∨ x ∈ m.map Prod.fst := by
  induction m with
  | nil => simp [Mem.put]
  | cons c m ih =>
    obtain ⟨j, w⟩ := c
    by_cases h1 : i < j
    · simp [Mem.put, h1]
    · by_cases h2 : i = j
      · subst h2
        simp [Mem.put]
      · simp only [Mem.put, h1, h2, if_false, List.map_cons, List.mem_cons, ih]
        constructor
        · rintro (h | h | h)
          · exact .inr (.inl h)
          · exact .inl h
          · exact .inr (.inr h)
        · rintro (h | h | h)
          · exact .inr (.inl h)
          · exact .inl h
          · exact .inr (.inr h)

/-- A write keeps the canonical form. -/
theorem put_wf {m : Mem α} (h : Mem.wf m) (i : Nat) (v : α) : Mem.wf (Mem.put m i v) := by
  induction m with
  | nil => simp [Mem.put, Mem.wf]
  | cons c m ih =>
    obtain ⟨j, w⟩ := c
    simp only [Mem.wf, List.map_cons, List.pairwise_cons] at h
    by_cases h1 : i < j
    · simp only [Mem.put, h1, if_true, Mem.wf, List.map_cons, List.pairwise_cons, List.mem_cons]
      exact ⟨fun x hx => hx.elim (fun e => e ▸ h1) (fun hx => lt_trans h1 (h.1 x hx)), h.1, h.2⟩
    · by_cases h2 : i = j
      · subst h2
        simp only [Mem.put, h1, if_true, if_false, Mem.wf, List.map_cons, List.pairwise_cons]
        exact h
      · simp only [Mem.put, h1, h2, if_false, Mem.wf, List.map_cons, List.pairwise_cons]
        refine ⟨fun x hx => ?_, ih h.2⟩
        rcases (keys_put m i v x).1 hx with rfl | hx
        · omega
        · exact h.1 x hx

/-- A run of writes keeps the canonical form. -/
theorem putFrom_wf {m : Mem α} (h : Mem.wf m) (i : Nat) (vs : List α) : Mem.wf (Mem.putFrom m i vs) := by
  induction vs generalizing m i with
  | nil => exact h
  | cons v vs ih => exact ih (put_wf h i v) (i + 1)

/-- A memory with nothing written is in canonical form. -/
theorem empty_wf : Mem.wf ([] : Mem α) := by simp [Mem.wf]

end Sys2Proof.Machine
end

