-- ==== Sys2Proof/Laws/State.lean ====
section
/-! SUPPORT. One lemma per field per named update of State, so that no proof unfolds a record update. -/

namespace Sys2Proof.Machine

/-! ### Raising a flag -/

@[simp] theorem raise_cfg (s : State) (f : ErrFlag) : (s.raise f).cfg = s.cfg := rfl
@[simp] theorem raise_phase (s : State) (f : ErrFlag) : (s.raise f).phase = s.phase := rfl
@[simp] theorem raise_err (s : State) (f : ErrFlag) : (s.raise f).err = s.err.set f := rfl
@[simp] theorem raise_nbytes (s : State) (f : ErrFlag) : (s.raise f).nbytes = s.nbytes := rfl
@[simp] theorem raise_npkt (s : State) (f : ErrFlag) : (s.raise f).npkt = s.npkt := rfl
@[simp] theorem raise_k (s : State) (f : ErrFlag) : (s.raise f).k = s.k := rfl
@[simp] theorem raise_codewidth (s : State) (f : ErrFlag) : (s.raise f).codewidth = s.codewidth := rfl
@[simp] theorem raise_nout (s : State) (f : ErrFlag) : (s.raise f).nout = s.nout := rfl
@[simp] theorem raise_lkp (s : State) (f : ErrFlag) : (s.raise f).lkp = s.lkp := rfl
@[simp] theorem raise_sel (s : State) (f : ErrFlag) : (s.raise f).sel = s.sel := rfl
@[simp] theorem raise_idx (s : State) (f : ErrFlag) : (s.raise f).idx = s.idx := rfl
@[simp] theorem raise_rleLen (s : State) (f : ErrFlag) : (s.raise f).rleLen = s.rleLen := rfl
@[simp] theorem raise_rleBit (s : State) (f : ErrFlag) : (s.raise f).rleBit = s.rleBit := rfl
@[simp] theorem raise_wstate (s : State) (f : ErrFlag) : (s.raise f).wstate = s.wstate := rfl
@[simp] theorem raise_inMem (s : State) (f : ErrFlag) : (s.raise f).inMem = s.inMem := rfl
@[simp] theorem raise_pkt (s : State) (f : ErrFlag) : (s.raise f).pkt = s.pkt := rfl
@[simp] theorem raise_tbl (s : State) (f : ErrFlag) : (s.raise f).tbl = s.tbl := rfl
@[simp] theorem raise_out (s : State) (f : ErrFlag) : (s.raise f).out = s.out := rfl
@[simp] theorem raise_draws (s : State) (f : ErrFlag) : (s.raise f).draws = s.draws := rfl
@[simp] theorem raise_bus (s : State) (f : ErrFlag) : (s.raise f).bus = s.bus := rfl
@[simp] theorem raise_replies (s : State) (f : ErrFlag) : (s.raise f).replies = s.replies := rfl

/-! ### A reply -/

@[simp] theorem reply_cfg (s : State) (w : Word) : (s.reply w).cfg = s.cfg := rfl
@[simp] theorem reply_phase (s : State) (w : Word) : (s.reply w).phase = s.phase := rfl
@[simp] theorem reply_err (s : State) (w : Word) : (s.reply w).err = s.err := rfl
@[simp] theorem reply_nbytes (s : State) (w : Word) : (s.reply w).nbytes = s.nbytes := rfl
@[simp] theorem reply_npkt (s : State) (w : Word) : (s.reply w).npkt = s.npkt := rfl
@[simp] theorem reply_k (s : State) (w : Word) : (s.reply w).k = s.k := rfl
@[simp] theorem reply_codewidth (s : State) (w : Word) : (s.reply w).codewidth = s.codewidth := rfl
@[simp] theorem reply_nout (s : State) (w : Word) : (s.reply w).nout = s.nout := rfl
@[simp] theorem reply_lkp (s : State) (w : Word) : (s.reply w).lkp = s.lkp := rfl
@[simp] theorem reply_sel (s : State) (w : Word) : (s.reply w).sel = s.sel := rfl
@[simp] theorem reply_idx (s : State) (w : Word) : (s.reply w).idx = s.idx := rfl
@[simp] theorem reply_rleLen (s : State) (w : Word) : (s.reply w).rleLen = s.rleLen := rfl
@[simp] theorem reply_rleBit (s : State) (w : Word) : (s.reply w).rleBit = s.rleBit := rfl
@[simp] theorem reply_wstate (s : State) (w : Word) : (s.reply w).wstate = s.wstate := rfl
@[simp] theorem reply_inMem (s : State) (w : Word) : (s.reply w).inMem = s.inMem := rfl
@[simp] theorem reply_pkt (s : State) (w : Word) : (s.reply w).pkt = s.pkt := rfl
@[simp] theorem reply_tbl (s : State) (w : Word) : (s.reply w).tbl = s.tbl := rfl
@[simp] theorem reply_out (s : State) (w : Word) : (s.reply w).out = s.out := rfl
@[simp] theorem reply_draws (s : State) (w : Word) : (s.reply w).draws = s.draws := rfl
@[simp] theorem reply_bus (s : State) (w : Word) : (s.reply w).bus = s.bus := rfl
@[simp] theorem reply_replies (s : State) (w : Word) : (s.reply w).replies = s.replies ++ [w] := rfl

/-! ### The pending events -/

@[simp] theorem withBus_cfg (s : State) (es : List BusEvent) : (s.withBus es).cfg = s.cfg := rfl
@[simp] theorem withBus_phase (s : State) (es : List BusEvent) : (s.withBus es).phase = s.phase := rfl
@[simp] theorem withBus_err (s : State) (es : List BusEvent) : (s.withBus es).err = s.err := rfl
@[simp] theorem withBus_nbytes (s : State) (es : List BusEvent) : (s.withBus es).nbytes = s.nbytes := rfl
@[simp] theorem withBus_npkt (s : State) (es : List BusEvent) : (s.withBus es).npkt = s.npkt := rfl
@[simp] theorem withBus_k (s : State) (es : List BusEvent) : (s.withBus es).k = s.k := rfl
@[simp] theorem withBus_codewidth (s : State) (es : List BusEvent) : (s.withBus es).codewidth = s.codewidth := rfl
@[simp] theorem withBus_nout (s : State) (es : List BusEvent) : (s.withBus es).nout = s.nout := rfl
@[simp] theorem withBus_lkp (s : State) (es : List BusEvent) : (s.withBus es).lkp = s.lkp := rfl
@[simp] theorem withBus_sel (s : State) (es : List BusEvent) : (s.withBus es).sel = s.sel := rfl
@[simp] theorem withBus_idx (s : State) (es : List BusEvent) : (s.withBus es).idx = s.idx := rfl
@[simp] theorem withBus_rleLen (s : State) (es : List BusEvent) : (s.withBus es).rleLen = s.rleLen := rfl
@[simp] theorem withBus_rleBit (s : State) (es : List BusEvent) : (s.withBus es).rleBit = s.rleBit := rfl
@[simp] theorem withBus_wstate (s : State) (es : List BusEvent) : (s.withBus es).wstate = s.wstate := rfl
@[simp] theorem withBus_inMem (s : State) (es : List BusEvent) : (s.withBus es).inMem = s.inMem := rfl
@[simp] theorem withBus_pkt (s : State) (es : List BusEvent) : (s.withBus es).pkt = s.pkt := rfl
@[simp] theorem withBus_tbl (s : State) (es : List BusEvent) : (s.withBus es).tbl = s.tbl := rfl
@[simp] theorem withBus_out (s : State) (es : List BusEvent) : (s.withBus es).out = s.out := rfl
@[simp] theorem withBus_draws (s : State) (es : List BusEvent) : (s.withBus es).draws = s.draws := rfl
@[simp] theorem withBus_bus (s : State) (es : List BusEvent) : (s.withBus es).bus = es := rfl
@[simp] theorem withBus_replies (s : State) (es : List BusEvent) : (s.withBus es).replies = s.replies := rfl

/-! ### Clearing -/

@[simp] theorem cleared_cfg (s : State) : (s.cleared).cfg = s.cfg := rfl
@[simp] theorem cleared_phase (s : State) : (s.cleared).phase = .load := rfl
@[simp] theorem cleared_err (s : State) : (s.cleared).err = ⟨false, false, false, false, false, false⟩ := rfl
@[simp] theorem cleared_nbytes (s : State) : (s.cleared).nbytes = 0 := rfl
@[simp] theorem cleared_npkt (s : State) : (s.cleared).npkt = 0 := rfl
@[simp] theorem cleared_k (s : State) : (s.cleared).k = 0 := rfl
@[simp] theorem cleared_codewidth (s : State) : (s.cleared).codewidth = 0 := rfl
@[simp] theorem cleared_nout (s : State) : (s.cleared).nout = 0 := rfl
@[simp] theorem cleared_lkp (s : State) : (s.cleared).lkp = ⟨0, false⟩ := rfl
@[simp] theorem cleared_sel (s : State) : (s.cleared).sel = 0 := rfl
@[simp] theorem cleared_idx (s : State) : (s.cleared).idx = 0 := rfl
@[simp] theorem cleared_rleLen (s : State) : (s.cleared).rleLen = 0 := rfl
@[simp] theorem cleared_rleBit (s : State) : (s.cleared).rleBit = ⟨false, true, true⟩ := rfl
@[simp] theorem cleared_wstate (s : State) : (s.cleared).wstate = ⟨0, 0⟩ := rfl
@[simp] theorem cleared_inMem (s : State) : (s.cleared).inMem = [] := rfl
@[simp] theorem cleared_pkt (s : State) : (s.cleared).pkt = [] := rfl
@[simp] theorem cleared_tbl (s : State) : (s.cleared).tbl = [] := rfl
@[simp] theorem cleared_out (s : State) : (s.cleared).out = [] := rfl
@[simp] theorem cleared_draws (s : State) : (s.cleared).draws = s.draws + 1 := rfl
@[simp] theorem cleared_bus (s : State) : (s.cleared).bus = s.bus := rfl
@[simp] theorem cleared_replies (s : State) : (s.cleared).replies = s.replies := rfl

/-! ### `ENC` -/

@[simp] theorem encStage_cfg (s : State) : (encStage s).cfg = s.cfg := rfl
@[simp] theorem encStage_phase (s : State) : (encStage s).phase = .encoded := rfl
@[simp] theorem encStage_err (s : State) : (encStage s).err = s.err := rfl
@[simp] theorem encStage_nbytes (s : State) : (encStage s).nbytes = s.nbytes := rfl
@[simp] theorem encStage_npkt (s : State) : (encStage s).npkt = (rleEncode s.inputBits).packets.length := rfl
@[simp] theorem encStage_k (s : State) : (encStage s).k = s.k := rfl
@[simp] theorem encStage_codewidth (s : State) : (encStage s).codewidth = s.codewidth := rfl
@[simp] theorem encStage_nout (s : State) : (encStage s).nout = s.nout := rfl
@[simp] theorem encStage_lkp (s : State) : (encStage s).lkp = s.lkp := rfl
@[simp] theorem encStage_sel (s : State) : (encStage s).sel = s.sel := rfl
@[simp] theorem encStage_idx (s : State) : (encStage s).idx = s.idx := rfl
@[simp] theorem encStage_rleLen (s : State) : (encStage s).rleLen = (rleEncode s.inputBits).len := rfl
@[simp] theorem encStage_rleBit (s : State) : (encStage s).rleBit = (rleEncode s.inputBits).reg := rfl
@[simp] theorem encStage_wstate (s : State) : (encStage s).wstate = s.wstate := rfl
@[simp] theorem encStage_inMem (s : State) : (encStage s).inMem = s.inMem := rfl
@[simp] theorem encStage_pkt (s : State) : (encStage s).pkt = Mem.putFrom s.pkt 0 (rleEncode s.inputBits).packets := rfl
@[simp] theorem encStage_tbl (s : State) : (encStage s).tbl = s.tbl := rfl
@[simp] theorem encStage_out (s : State) : (encStage s).out = s.out := rfl
@[simp] theorem encStage_draws (s : State) : (encStage s).draws = s.draws := rfl
@[simp] theorem encStage_bus (s : State) : (encStage s).bus = s.bus := rfl
@[simp] theorem encStage_replies (s : State) : (encStage s).replies = s.replies := rfl

/-! ### `RANK` -/

@[simp] theorem rankStage_cfg (s : State) : (rankStage s).cfg = s.cfg := rfl
@[simp] theorem rankStage_phase (s : State) : (rankStage s).phase = .ranked := rfl
@[simp] theorem rankStage_err (s : State) : (rankStage s).err = s.err := rfl
@[simp] theorem rankStage_nbytes (s : State) : (rankStage s).nbytes = s.nbytes := rfl
@[simp] theorem rankStage_npkt (s : State) : (rankStage s).npkt = s.npkt := rfl
@[simp] theorem rankStage_k (s : State) : (rankStage s).k = (rankRuns s.packetLengths).length := rfl
@[simp] theorem rankStage_codewidth (s : State) : (rankStage s).codewidth = s.codewidth := rfl
@[simp] theorem rankStage_nout (s : State) : (rankStage s).nout = s.nout := rfl
@[simp] theorem rankStage_lkp (s : State) : (rankStage s).lkp = s.lkp := rfl
@[simp] theorem rankStage_sel (s : State) : (rankStage s).sel = s.sel := rfl
@[simp] theorem rankStage_idx (s : State) : (rankStage s).idx = s.idx := rfl
@[simp] theorem rankStage_rleLen (s : State) : (rankStage s).rleLen = s.rleLen := rfl
@[simp] theorem rankStage_rleBit (s : State) : (rankStage s).rleBit = s.rleBit := rfl
@[simp] theorem rankStage_wstate (s : State) : (rankStage s).wstate = s.wstate := rfl
@[simp] theorem rankStage_inMem (s : State) : (rankStage s).inMem = s.inMem := rfl
@[simp] theorem rankStage_pkt (s : State) : (rankStage s).pkt = s.pkt := rfl
@[simp] theorem rankStage_tbl (s : State) : (rankStage s).tbl = Mem.putFrom s.tbl 0 (rankRuns s.packetLengths) := rfl
@[simp] theorem rankStage_out (s : State) : (rankStage s).out = s.out := rfl
@[simp] theorem rankStage_draws (s : State) : (rankStage s).draws = s.draws := rfl
@[simp] theorem rankStage_bus (s : State) : (rankStage s).bus = s.bus := rfl
@[simp] theorem rankStage_replies (s : State) : (rankStage s).replies = s.replies := rfl

/-! ### `BUILD` -/

@[simp] theorem buildStage_cfg (s : State) : (buildStage s).cfg = s.cfg := rfl
@[simp] theorem buildStage_phase (s : State) : (buildStage s).phase = .built := rfl
@[simp] theorem buildStage_err (s : State) : (buildStage s).err = s.err := rfl
@[simp] theorem buildStage_nbytes (s : State) : (buildStage s).nbytes = s.nbytes := rfl
@[simp] theorem buildStage_npkt (s : State) : (buildStage s).npkt = s.npkt := rfl
@[simp] theorem buildStage_k (s : State) : (buildStage s).k = s.k := rfl
@[simp] theorem buildStage_codewidth (s : State) : (buildStage s).codewidth = codeWidth s.k := rfl
@[simp] theorem buildStage_nout (s : State) : (buildStage s).nout = s.nout := rfl
@[simp] theorem buildStage_lkp (s : State) : (buildStage s).lkp = s.lkp := rfl
@[simp] theorem buildStage_sel (s : State) : (buildStage s).sel = s.sel := rfl
@[simp] theorem buildStage_idx (s : State) : (buildStage s).idx = s.idx := rfl
@[simp] theorem buildStage_rleLen (s : State) : (buildStage s).rleLen = s.rleLen := rfl
@[simp] theorem buildStage_rleBit (s : State) : (buildStage s).rleBit = s.rleBit := rfl
@[simp] theorem buildStage_wstate (s : State) : (buildStage s).wstate = s.wstate := rfl
@[simp] theorem buildStage_inMem (s : State) : (buildStage s).inMem = s.inMem := rfl
@[simp] theorem buildStage_pkt (s : State) : (buildStage s).pkt = s.pkt := rfl
@[simp] theorem buildStage_tbl (s : State) : (buildStage s).tbl = s.tbl := rfl
@[simp] theorem buildStage_out (s : State) : (buildStage s).out = s.out := rfl
@[simp] theorem buildStage_draws (s : State) : (buildStage s).draws = s.draws := rfl
@[simp] theorem buildStage_bus (s : State) : (buildStage s).bus = s.bus := rfl
@[simp] theorem buildStage_replies (s : State) : (buildStage s).replies = s.replies := rfl

/-! ### `LOOKUP` -/

@[simp] theorem lookupEffect_cfg (imm24 : BitVec 24) (s : State) : (lookupEffect imm24 s).cfg = s.cfg := rfl
@[simp] theorem lookupEffect_phase (imm24 : BitVec 24) (s : State) : (lookupEffect imm24 s).phase = s.phase := rfl
@[simp] theorem lookupEffect_err (imm24 : BitVec 24) (s : State) : (lookupEffect imm24 s).err = s.err := rfl
@[simp] theorem lookupEffect_nbytes (imm24 : BitVec 24) (s : State) : (lookupEffect imm24 s).nbytes = s.nbytes := rfl
@[simp] theorem lookupEffect_npkt (imm24 : BitVec 24) (s : State) : (lookupEffect imm24 s).npkt = s.npkt := rfl
@[simp] theorem lookupEffect_k (imm24 : BitVec 24) (s : State) : (lookupEffect imm24 s).k = s.k := rfl
@[simp] theorem lookupEffect_codewidth (imm24 : BitVec 24) (s : State) : (lookupEffect imm24 s).codewidth = s.codewidth := rfl
@[simp] theorem lookupEffect_nout (imm24 : BitVec 24) (s : State) : (lookupEffect imm24 s).nout = s.nout := rfl
@[simp] theorem lookupEffect_lkp (imm24 : BitVec 24) (s : State) : (lookupEffect imm24 s).lkp = lookupResult (lookupCode s.tableRuns (lookupKey imm24).toNat) := rfl
@[simp] theorem lookupEffect_sel (imm24 : BitVec 24) (s : State) : (lookupEffect imm24 s).sel = s.sel := rfl
@[simp] theorem lookupEffect_idx (imm24 : BitVec 24) (s : State) : (lookupEffect imm24 s).idx = s.idx := rfl
@[simp] theorem lookupEffect_rleLen (imm24 : BitVec 24) (s : State) : (lookupEffect imm24 s).rleLen = s.rleLen := rfl
@[simp] theorem lookupEffect_rleBit (imm24 : BitVec 24) (s : State) : (lookupEffect imm24 s).rleBit = s.rleBit := rfl
@[simp] theorem lookupEffect_wstate (imm24 : BitVec 24) (s : State) : (lookupEffect imm24 s).wstate = s.wstate := rfl
@[simp] theorem lookupEffect_inMem (imm24 : BitVec 24) (s : State) : (lookupEffect imm24 s).inMem = s.inMem := rfl
@[simp] theorem lookupEffect_pkt (imm24 : BitVec 24) (s : State) : (lookupEffect imm24 s).pkt = s.pkt := rfl
@[simp] theorem lookupEffect_tbl (imm24 : BitVec 24) (s : State) : (lookupEffect imm24 s).tbl = s.tbl := rfl
@[simp] theorem lookupEffect_out (imm24 : BitVec 24) (s : State) : (lookupEffect imm24 s).out = s.out := rfl
@[simp] theorem lookupEffect_draws (imm24 : BitVec 24) (s : State) : (lookupEffect imm24 s).draws = s.draws := rfl
@[simp] theorem lookupEffect_bus (imm24 : BitVec 24) (s : State) : (lookupEffect imm24 s).bus = s.bus := rfl
@[simp] theorem lookupEffect_replies (imm24 : BitVec 24) (s : State) : (lookupEffect imm24 s).replies = s.replies := rfl

end Sys2Proof.Machine
end

