-- ==== Sys2Proof/Laws/Ops.lean ====
section
/-! SUPPORT. What the shared operations can do, said once each: executing a command when it is legal, delivering an event,
reading a register. -/

namespace Sys2Proof.Machine

/-- A legal command has its effect. -/
theorem whenLegal_of_legal {i : Instr} {f : State → State} {s : State} (h : legal i s = true) :
    whenLegal i f s = .next (f s) := by simp [whenLegal, h]

/-- A command that is not legal sets `ERR.SEQ` and nothing else (41_control_commands.md R97). -/
theorem whenLegal_of_illegal {i : Instr} {f : State → State} {s : State} (h : legal i s = false) :
    whenLegal i f s = .next (s.raise .seq) := by simp [whenLegal, h]

/-- The whole effect of a command that is legal. -/
def effectOf : Instr → State → State
  | .nop => id
  | .clr => State.cleared
  | .push b => pushEffect b
  | .enc => encStage
  | .rank => rankStage
  | .build => buildStage
  | .pack => packStage
  | .run => runStages
  | .lookup n => lookupEffect n

/-- Every command is its effect, guarded by its legality. -/
theorem exec_eq (i : Instr) (s : State) : exec i s = whenLegal i (effectOf i) s := by cases i <;> rfl

/-- All that executing a command can do. -/
theorem exec_cases {i : Instr} {s t : State} (h : exec i s = .next t) :
    (legal i s = true ∧ t = effectOf i s) ∨ (legal i s = false ∧ t = s.raise .seq) := by
  rw [exec_eq] at h
  cases hl : legal i s with
  | true => rw [whenLegal_of_legal hl] at h; cases h; exact .inl ⟨rfl, rfl⟩
  | false => rw [whenLegal_of_illegal hl] at h; cases h; exact .inr ⟨rfl, rfl⟩

/-- What a write to `CMD` does: the command it decodes to, or `ERR.ILL`. -/
theorem commandWrite_cases (w : Word) (s : State) :
    (∃ i, decode w = .ok i ∧ commandWrite w s = exec i s)
      ∨ (∃ e, decode w = .error e ∧ commandWrite w s = .next (s.raise .ill)) := by
  cases h : decode w with
  | ok i => exact .inl ⟨i, rfl, by simp [commandWrite, h]⟩
  | error e => exact .inr ⟨e, rfl, by simp [commandWrite, h]⟩

/-- All that a write can do (20_memory.md R44, R45). -/
theorem busWrite_cases {addr : Nat} {v : Word} {s t : State} (h : busWrite addr v s = .next t) :
    (regAt? (offsetOf addr) = some .cmd ∧ ∃ i, decode v = .ok i ∧ exec i s = .next t)
      ∨ (regAt? (offsetOf addr) = some .cmd ∧ (∃ e, decode v = .error e) ∧ t = s.raise .ill)
      ∨ (regAt? (offsetOf addr) = some .sel ∧ t = { s with sel := v.extractLsb' 0 2 })
      ∨ (regAt? (offsetOf addr) = some .idx ∧ t = { s with idx := v })
      ∨ t = s.raise .addr := by
  unfold busWrite at h
  split at h
  · rename_i hr
    rcases commandWrite_cases v s with ⟨i, hd, he⟩ | ⟨e, hd, he⟩
    · exact .inl ⟨hr, i, hd, he ▸ h⟩
    · rw [he] at h
      cases h
      exact .inr (.inl ⟨hr, ⟨e, hd⟩, rfl⟩)
  · rename_i hr
    cases h
    exact .inr (.inr (.inl ⟨hr, rfl⟩))
  · rename_i hr
    cases h
    exact .inr (.inr (.inr (.inl ⟨hr, rfl⟩)))
  · cases h
    exact .inr (.inr (.inr (.inr rfl)))

/-- All that a read can do (R43, R45, R52): one word returned, and at most `ERR.IDX` or `ERR.ADDR` raised. -/
theorem busRead_cases (addr : Nat) (s : State) :
    (∃ w, busRead addr s = s.reply w) ∨ busRead addr s = (s.raise .idx).reply 0
      ∨ busRead addr s = (s.raise .addr).reply 0 := by
  unfold busRead
  split
  · rename_i r _
    cases r <;> simp only [readReg, windowRead]
    case rd0 => split <;> [exact .inl ⟨_, rfl⟩; exact .inr (.inl rfl)]
    case rd1 => split <;> [exact .inl ⟨_, rfl⟩; exact .inr (.inl rfl)]
    all_goals exact .inl ⟨_, rfl⟩
  · exact .inr (.inr rfl)

/-- All that a step can do. -/
theorem step_cases {s t : State} (h : step s = .next t) :
    (s.bus = [] ∧ t = s)
      ∨ ∃ e es, s.bus = e :: es ∧ busEvent e (s.withBus es) = .next t := by
  unfold step deliver at h
  split at h
  · rename_i hb
    cases h
    exact .inl ⟨hb, rfl⟩
  · rename_i e es hb
    exact .inr ⟨e, es, hb, h⟩

/-- All that one event can do. -/
theorem busEvent_cases {e : BusEvent} {s t : State} (h : busEvent e s = .next t) :
    (∃ addr, e = .read addr ∧ t = busRead addr s)
      ∨ (∃ addr v, e = .write addr v ∧ busWrite addr v s = .next t)
      ∨ ((e = .reset ∨ ∃ addr v, e = .writeCutByReset addr v) ∧ t = s.cleared) := by
  cases e with
  | read addr => cases h; exact .inl ⟨addr, rfl, rfl⟩
  | write addr v => exact .inr (.inl ⟨addr, v, rfl, h⟩)
  | reset => cases h; exact .inr (.inr ⟨.inl rfl, rfl⟩)
  | writeCutByReset addr v => cases h; exact .inr (.inr ⟨.inr ⟨addr, v, rfl⟩, rfl⟩)

end Sys2Proof.Machine
end

