-- ==== Sys2Proof/Laws/Encoder.lean ====
section
/-! SUPPORT. What the encoder's scan leaves after each bit, and so after all of them (42_rle_encoder.md R110 to R119). -/

namespace Sys2Proof.Machine

/-- Neighbours differ in their bit value. -/
abbrev Alternating (ps : List RunPacket) : Prop := ps.IsChain (fun a b => a.bitValue ≠ b.bitValue)

/-- The encoder after a nonempty stream: what it has retained, followed by the run it is in, is the stream. -/
structure RleAfter (bits : List Bool) (r : Rle) : Prop where
  none : r.reg.none = false
  drop : r.reg.drop = false
  lenPos : 1 ≤ r.len
  stream : expandPackets r.packets ++ List.replicate r.len r.reg.bit = bits
  pos : ∀ p ∈ r.packets, 1 ≤ p.length
  chain : Alternating (r.packets ++ [⟨r.len, r.reg.bit⟩])

theorem rleBit_first (b : Bool) : RleAfter [b] (rleBit rleStart b) where
  none := by simp [rleBit, rleStart, rleEmit]
  drop := by simp [rleBit, rleStart, rleEmit]
  lenPos := by simp [rleBit, rleStart, rleEmit]
  stream := by simp [rleBit, rleStart, rleEmit, expandPackets]
  pos := by simp [rleBit, rleStart, rleEmit]
  chain := by simp [rleBit, rleStart, rleEmit]

theorem expandPackets_append (ps qs : List RunPacket) :
    expandPackets (ps ++ qs) = expandPackets ps ++ expandPackets qs := by simp [expandPackets]

theorem expandPackets_singleton (p : RunPacket) :
    expandPackets [p] = List.replicate p.length p.bitValue := by simp [expandPackets]

theorem rleBit_next {bits : List Bool} {r : Rle} (h : RleAfter bits r) (b : Bool) :
    RleAfter (bits ++ [b]) (rleBit r b) := by
  obtain ⟨len, ⟨bit, non, drop⟩, ps⟩ := r
  obtain ⟨h1, h2, h3, h4, h5, h6⟩ := h
  simp only at h1 h2 h3 h4 h5 h6
  subst h1 h2
  by_cases hb : bit = b
  · subst hb
    refine ⟨by simp [rleBit], by simp [rleBit], by simp [rleBit], ?_, by simpa [rleBit] using h5, ?_⟩
    · simp only [rleBit, and_self, if_true]
      rw [← h4, List.replicate_add, List.append_assoc]
      rfl
    · simp only [rleBit, and_self, if_true, Alternating] at h6 ⊢
      rw [List.isChain_append] at h6 ⊢
      refine ⟨h6.1, by simp, ?_⟩
      intro x hx y hy
      have := h6.2.2 x hx ⟨len, bit⟩ (by simp)
      simp at hy
      subst hy
      exact this
  · refine ⟨by simp [rleBit, hb, rleEmit], by simp [rleBit, hb, rleEmit], by simp [rleBit, hb, rleEmit], ?_, ?_, ?_⟩
    · simp [rleBit, hb, rleEmit, expandPackets_append, expandPackets_singleton, h4]
    · simp only [rleBit, hb, rleEmit, and_false, if_false, Bool.false_eq_true, List.mem_append, List.mem_singleton]
      rintro p (hp | rfl)
      · exact h5 p hp
      · exact h3
    · simp only [rleBit, hb, rleEmit, and_false, if_false, Bool.false_eq_true, Alternating] at h6 ⊢
      rw [List.isChain_append]
      refine ⟨h6, by simp, ?_⟩
      simp [hb]

theorem rleScan_after (bits : List Bool) (b : Bool) : RleAfter (bits ++ [b]) ((bits ++ [b]).foldl rleBit rleStart) := by
  induction bits using List.reverseRecOn generalizing b with
  | nil => exact rleBit_first b
  | append_singleton bits c ih =>
    rw [List.foldl_append]
    exact rleBit_next (ih c) b

theorem rleEncode_nil : rleEncode [] = ⟨0, ⟨false, true, false⟩, []⟩ := by simp [rleEncode, rleStart, rleEmit]

theorem rleEncode_after {bits : List Bool} (h : bits ≠ []) :
    ∃ r, RleAfter bits r ∧ rleEncode bits = { r with packets := r.packets ++ [⟨r.len, r.reg.bit⟩] } := by
  obtain ⟨bits, b, rfl⟩ := List.eq_nil_or_concat' bits |>.resolve_left h
  have hr := rleScan_after bits b
  exact ⟨_, hr, by unfold rleEncode; rw [rleEmit, if_neg (by rw [hr.drop]; simp)]⟩

/-- The retained packets, written back as bits, are the input. -/
theorem rleEncode_stream (bits : List Bool) : expandPackets (rleEncode bits).packets = bits := by
  by_cases h : bits = []
  · subst h; simp [rleEncode_nil, expandPackets]
  · obtain ⟨r, hr, he⟩ := rleEncode_after h
    rw [he]
    simp only [expandPackets_append, expandPackets_singleton]
    exact hr.stream

/-- Every retained packet has length at least 1. -/
theorem rleEncode_pos (bits : List Bool) : ∀ p ∈ (rleEncode bits).packets, 1 ≤ p.length := by
  by_cases h : bits = []
  · subst h; simp [rleEncode_nil]
  · obtain ⟨r, hr, he⟩ := rleEncode_after h
    rw [he]
    simp only [List.mem_append, List.mem_singleton]
    rintro p (hp | rfl)
    · exact hr.pos p hp
    · exact hr.lenPos

/-- Neighbouring packets differ in their bit value. -/
theorem rleEncode_alternating (bits : List Bool) : Alternating (rleEncode bits).packets := by
  by_cases h : bits = []
  · subst h; simp [rleEncode_nil]
  · obtain ⟨r, hr, he⟩ := rleEncode_after h
    rw [he]
    exact hr.chain

theorem expandPackets_length (ps : List RunPacket) : (expandPackets ps).length = (ps.map RunPacket.length).sum := by
  induction ps with
  | nil => rfl
  | cons p ps ih =>
    simp only [expandPackets, List.flatMap_cons, List.length_append, List.length_replicate, List.map_cons,
      List.sum_cons] at ih ⊢
    omega

/-- The lengths sum to the number of bits. -/
theorem rleEncode_sum (bits : List Bool) : ((rleEncode bits).packets.map RunPacket.length).sum = bits.length := by
  rw [← expandPackets_length, rleEncode_stream]

/-- The first packet has been discarded by the end, empty input or not. -/
theorem rleEncode_drop (bits : List Bool) : (rleEncode bits).reg.drop = false := by
  by_cases h : bits = []
  · subst h; simp [rleEncode_nil]
  · obtain ⟨r, hr, he⟩ := rleEncode_after h
    rw [he]
    exact hr.drop

/-- Two packet sequences that alternate, of positive lengths, with the same expansion, are the same: the maximal runs
are unique. -/
theorem expandPackets_unique : ∀ (ps qs : List RunPacket), (∀ p ∈ ps, 1 ≤ p.length) → (∀ q ∈ qs, 1 ≤ q.length) →
    Alternating ps → Alternating qs → expandPackets ps = expandPackets qs → ps = qs
  | [], [], _, _, _, _, _ => rfl
  | [], q :: qs, _, hq, _, _, he => by
    have h := congrArg List.length he
    have := hq q (by simp)
    simp [expandPackets] at h
    omega
  | p :: ps, [], hp, _, _, _, he => by
    have h := congrArg List.length he
    have := hp p (by simp)
    simp [expandPackets] at h
    omega
  | p :: ps, q :: qs, hp, hq, hcp, hcq, he => by
    have hp1 := hp p (by simp)
    have hq1 := hq q (by simp)
    have hexp : ∀ (x : RunPacket) (xs : List RunPacket),
        expandPackets (x :: xs) = List.replicate x.length x.bitValue ++ expandPackets xs := fun x xs => by
      simp [expandPackets]
    have hbit : p.bitValue = q.bitValue := by
      have h := congrArg (·[0]?) he
      simp only [hexp] at h
      rw [List.getElem?_append_left (by simp; omega), List.getElem?_append_left (by simp; omega)] at h
      simpa [show 0 < p.length by omega, show 0 < q.length by omega] using h
    have key : ∀ (x y : RunPacket) (xs ys : List RunPacket), x.bitValue = y.bitValue → x.length < y.length →
        (∀ z ∈ xs, 1 ≤ z.length) → Alternating (x :: xs) → expandPackets (x :: xs) ≠ expandPackets (y :: ys) := by
      intro x y xs ys hb hl hpos hch h
      have h' := congrArg (·[x.length]?) h
      simp only [hexp] at h'
      rw [List.getElem?_append_right (by simp), List.getElem?_append_left (by simpa using hl)] at h'
      cases xs with
      | nil => simp [expandPackets, hl] at h'
      | cons z zs =>
        have hz := hpos z (by simp)
        rw [hexp, List.getElem?_append_left (by simp; omega)] at h'
        simp [hl, show 0 < z.length by omega] at h'
        have := (List.isChain_cons_cons.1 hch).1
        exact this (by rw [hb, h'])
    have hlen : p.length = q.length := by
      rcases lt_trichotomy p.length q.length with h | h | h
      · exact absurd he (key p q ps qs hbit h (fun z hz => hp z (by simp [hz])) hcp)
      · exact h
      · exact absurd he.symm (key q p qs ps hbit.symm h (fun z hz => hq z (by simp [hz])) hcq)
    have hpq : p = q := by
      cases p; cases q; simp_all
    subst hpq
    rw [hexp, hexp] at he
    have := expandPackets_unique ps qs (fun z hz => hp z (by simp [hz])) (fun z hz => hq z (by simp [hz]))
      hcp.tail hcq.tail (List.append_cancel_left he)
    rw [this]

end Sys2Proof.Machine
end

