-- ==== Sys2Proof/Laws/Ranker.lean ====
section
/-! SUPPORT. The ranked table of a sequence of lengths: its entries, their counts, their order (43_frequency_ranker.md R125
to R129). -/

namespace Sys2Proof.Machine

/-- What the grouping leaves: one entry per distinct length, its count, in first-seen order (R125). -/
structure Grouped (lens : List Nat) (es : List FreqEntry) : Prop where
  cover : ∀ len, len ∈ es.map FreqEntry.runLength ↔ len ∈ lens
  counts : ∀ e ∈ es, e.count = lens.count e.runLength
  firstSeen : (es.map FreqEntry.runLength).Pairwise (fun a b => lens.idxOf a < lens.idxOf b)

/-- The run lengths after one step of the grouping: a new one at the end, or the same ones. -/
theorem countRun_runs (es : List FreqEntry) (len : Nat) :
    (countRun es len).map FreqEntry.runLength =
      if len ∈ es.map FreqEntry.runLength then es.map FreqEntry.runLength
      else es.map FreqEntry.runLength ++ [len] := by
  induction es with
  | nil => simp [countRun]
  | cons e es ih =>
    by_cases h : e.runLength = len
    · simp [countRun, h]
    · have h' : ¬ len = e.runLength := fun x => h x.symm
      simp only [countRun, h, if_false, List.map_cons, ih, List.mem_cons, h', false_or]
      split <;> simp

/-- The counts after one step of the grouping. -/
theorem countRun_counts {es : List FreqEntry} {len : Nat} {f : Nat → Nat}
    (h : ∀ e ∈ es, e.count = f e.runLength) (hnew : len ∉ es.map FreqEntry.runLength → f len = 0)
    (hd : (es.map FreqEntry.runLength).Nodup) :
    ∀ e ∈ countRun es len, e.count = if e.runLength = len then f len + 1 else f e.runLength := by
  induction es with
  | nil => simp [countRun, hnew]
  | cons x es ih =>
    intro e he
    by_cases hx : x.runLength = len
    · simp only [countRun, hx, if_true, List.mem_cons] at he
      rcases he with rfl | he
      · simp [hx, h x (by simp)]
      · have hne : e.runLength ≠ len := by
          intro hc
          simp only [List.map_cons, List.nodup_cons] at hd
          exact hd.1 (List.mem_map.2 ⟨e, he, by rw [hc, hx]⟩)
        rw [if_neg hne]
        exact h e (by simp [he])
    · simp only [countRun, hx, if_false, List.mem_cons] at he
      rcases he with rfl | he
      · rw [if_neg hx]
        exact h e (by simp)
      · refine ih (fun y hy => h y (by simp [hy])) ?_ (by simp at hd; simpa using hd.2) e he
        intro hn
        refine hnew ?_
        simp only [List.map_cons, List.mem_cons, not_or]
        exact ⟨fun hc => hx hc.symm, hn⟩

theorem nodup_of_firstSeen {lens runs : List Nat}
    (h : runs.Pairwise (fun a b => lens.idxOf a < lens.idxOf b)) : runs.Nodup := by
  refine h.imp ?_
  intro a b hab he
  subst he
  exact absurd hab (lt_irrefl _)

theorem countRun_grouped {lens : List Nat} {es : List FreqEntry} (h : Grouped lens es) (len : Nat) :
    Grouped (lens ++ [len]) (countRun es len) := by
  have hcover := h.cover
  have hidx : ∀ a ∈ lens, (lens ++ [len]).idxOf a = lens.idxOf a := fun a ha => List.idxOf_append_of_mem ha
  refine ⟨?_, ?_, ?_⟩
  · intro x
    rw [countRun_runs]
    by_cases hm : len ∈ es.map FreqEntry.runLength
    · rw [if_pos hm, hcover, List.mem_append, List.mem_singleton]
      exact ⟨.inl, fun hx => hx.elim id (fun e => e ▸ (hcover len).1 hm)⟩
    · rw [if_neg hm, List.mem_append, List.mem_append, hcover]
  · intro e he
    have := countRun_counts (f := fun x => lens.count x) h.counts (len := len)
      (fun hn => List.count_eq_zero.2 (fun hc => hn ((hcover len).2 hc)))
      (nodup_of_firstSeen h.firstSeen) e he
    rw [this, List.count_append]
    by_cases hl : e.runLength = len
    · simp [hl]
    · have hl' : ¬ len = e.runLength := fun x => hl x.symm
      simp [hl, hl']
  · rw [countRun_runs]
    have hold : (es.map FreqEntry.runLength).Pairwise
        (fun a b => (lens ++ [len]).idxOf a < (lens ++ [len]).idxOf b) := by
      refine h.firstSeen.imp_of_mem ?_
      intro a b ha hb hab
      rw [hidx a ((hcover a).1 ha), hidx b ((hcover b).1 hb)]
      exact hab
    by_cases hm : len ∈ es.map FreqEntry.runLength
    · rw [if_pos hm]
      exact hold
    · rw [if_neg hm, List.pairwise_append]
      refine ⟨hold, by simp, ?_⟩
      intro a ha b hb
      simp only [List.mem_singleton] at hb
      subst hb
      have ha' := (hcover a).1 ha
      have hb' : b ∉ lens := fun hc => hm ((hcover b).2 hc)
      rw [hidx a ha', List.idxOf_append_of_notMem hb']
      have := List.idxOf_lt_length_of_mem ha'
      omega

/-- The grouping of a sequence of lengths (R125). -/
theorem groupRuns_grouped (lens : List Nat) : Grouped lens (groupRuns lens) := by
  induction lens using List.reverseRecOn with
  | nil => exact ⟨by simp [groupRuns], by simp [groupRuns], by simp [groupRuns]⟩
  | append_singleton lens len ih =>
    rw [groupRuns, List.foldl_append]
    exact countRun_grouped ih len

/-- The order of R126: the larger count first, ties by first appearance. -/
def Before (lens : List Nat) (x y : FreqEntry) : Prop :=
  y.count < x.count ∨ (x.count = y.count ∧ lens.idxOf x.runLength < lens.idxOf y.runLength)

theorem insertRanked_perm (es : List FreqEntry) (e : FreqEntry) : (insertRanked es e).Perm (es ++ [e]) := by
  induction es with
  | nil => exact List.Perm.refl _
  | cons x es ih =>
    by_cases h : x.count < e.count
    · simp only [insertRanked, h, if_true]
      exact List.perm_append_comm (l₁ := [e])
    · simp only [insertRanked, h, if_false, List.cons_append]
      exact ih.cons x

/-- Inserting an entry first seen after all the others keeps the order of R126. -/
theorem insertRanked_before {lens : List Nat} {es : List FreqEntry} {e : FreqEntry}
    (h : es.Pairwise (Before lens)) (hlast : ∀ x ∈ es, lens.idxOf x.runLength < lens.idxOf e.runLength) :
    (insertRanked es e).Pairwise (Before lens) := by
  induction es with
  | nil => simp [insertRanked]
  | cons x es ih =>
    rw [List.pairwise_cons] at h
    by_cases hc : x.count < e.count
    · simp only [insertRanked, hc, if_true, List.pairwise_cons, List.mem_cons]
      refine ⟨?_, h⟩
      rintro y (rfl | hy)
      · exact .inl hc
      · rcases h.1 y hy with hlt | ⟨heq, _⟩
        · exact .inl (by omega)
        · exact .inl (by omega)
    · simp only [insertRanked, hc, if_false, List.pairwise_cons]
      refine ⟨?_, ih h.2 (fun y hy => hlast y (by simp [hy]))⟩
      intro y hy
      rcases List.mem_append.1 ((insertRanked_perm es e).mem_iff.1 hy) with hy | hy
      · exact h.1 y hy
      · simp only [List.mem_singleton] at hy
        subst hy
        rcases Nat.lt_or_ge y.count x.count with hlt | hge
        · exact .inl hlt
        · exact .inr ⟨by omega, hlast x (by simp)⟩

theorem sortRanked_append (es : List FreqEntry) (e : FreqEntry) :
    sortRanked (es ++ [e]) = insertRanked (sortRanked es) e := by
  simp [sortRanked]

theorem sortRanked_perm (es : List FreqEntry) : (sortRanked es).Perm es := by
  induction es using List.reverseRecOn with
  | nil => exact List.Perm.refl _
  | append_singleton es e ih =>
    rw [sortRanked_append]
    exact (insertRanked_perm _ _).trans (ih.append_right [e])

/-- The sort puts first-seen entries in the order of R126. -/
theorem sortRanked_before {lens : List Nat} {es : List FreqEntry}
    (h : (es.map FreqEntry.runLength).Pairwise (fun a b => lens.idxOf a < lens.idxOf b)) :
    (sortRanked es).Pairwise (Before lens) := by
  induction es using List.reverseRecOn with
  | nil => simp [sortRanked]
  | append_singleton es e ih =>
    rw [List.map_append, List.pairwise_append] at h
    rw [sortRanked_append]
    refine insertRanked_before (ih h.1) ?_
    intro x hx
    exact h.2.2 x.runLength (List.mem_map.2 ⟨x, (sortRanked_perm es).mem_iff.1 hx, rfl⟩) e.runLength (by simp)

/-- The ranked table is in the order of R126. -/
theorem rankRuns_before (lens : List Nat) : (rankRuns lens).Pairwise (Before lens) :=
  sortRanked_before (groupRuns_grouped lens).firstSeen

/-- Its run lengths are exactly the lengths that occur. -/
theorem rankRuns_cover (lens : List Nat) (len : Nat) :
    len ∈ (rankRuns lens).map FreqEntry.runLength ↔ len ∈ lens := by
  rw [rankRuns, ((sortRanked_perm (groupRuns lens)).map FreqEntry.runLength).mem_iff, (groupRuns_grouped lens).cover]

/-- Its counts are the numbers of occurrences. -/
theorem rankRuns_counts (lens : List Nat) : ∀ e ∈ rankRuns lens, e.count = lens.count e.runLength :=
  fun e he => (groupRuns_grouped lens).counts e ((sortRanked_perm _).mem_iff.1 he)

/-- Its run lengths are pairwise distinct. -/
theorem rankRuns_nodup (lens : List Nat) : ((rankRuns lens).map FreqEntry.runLength).Nodup :=
  ((sortRanked_perm (groupRuns lens)).map FreqEntry.runLength).nodup_iff.2
    (nodup_of_firstSeen (groupRuns_grouped lens).firstSeen)

/-- There are no more entries than packets (R129). -/
theorem rankRuns_length_le (lens : List Nat) : (rankRuns lens).length ≤ lens.length := by
  have h := (rankRuns_nodup lens).subperm (fun len h => (rankRuns_cover lens len).1 h)
  simpa using h.length_le

end Sys2Proof.Machine
end

