-- ==== Sys2Proof/Laws/Writer.lean ====
section
/-! SUPPORT. The code width, the lookup, and what the writer holds after each bit (44_code_table.md R135 to R139,
45_bit_packed_writer.md R146 to R155). -/

namespace Sys2Proof.Machine

/-! ### The code table -/

theorem codeWidth_of_le_one {k : Nat} (h : k ≤ 1) : codeWidth k = 0 := by simp [codeWidth, h]

/-- Every code fits: `k <= 2^CodeWidth(k)` (R138). -/
theorem le_two_pow_codeWidth (k : Nat) : k ≤ 2 ^ codeWidth k := by
  unfold codeWidth
  split
  · simpa using ‹k ≤ 1›
  · have := @Nat.lt_log2_self (k - 1)
    omega

/-- No narrower width does: every smaller `v` has `2^v < k` (R135). -/
theorem two_pow_lt_of_lt_codeWidth {k v : Nat} (h : v < codeWidth k) : 2 ^ v < k := by
  unfold codeWidth at h
  split at h
  · omega
  · have h1 : 2 ^ v ≤ 2 ^ Nat.log2 (k - 1) := Nat.pow_le_pow_right (by omega) (by omega)
    have h2 := Nat.log2_self_le (n := k - 1) (by omega)
    omega

/-- The width is monotone in the bound it must cover. -/
theorem codeWidth_le {k v : Nat} (h : k ≤ 2 ^ v) : codeWidth k ≤ v := by
  by_contra hc
  have := two_pow_lt_of_lt_codeWidth (k := k) (v := v) (by omega)
  omega

/-- A lookup finds the first index of the run length (R139). -/
theorem lookupCode_of_mem {runs : List Nat} {len : Nat} (h : len ∈ runs) :
    lookupCode runs len = some (runs.idxOf len) := by
  induction runs with
  | nil => simp at h
  | cons r runs ih =>
    by_cases hr : r = len
    · simp [lookupCode, hr, List.findIdx?_cons]
    · have hm : len ∈ runs := by
        rcases List.mem_cons.1 h with e | e
        · exact absurd e.symm hr
        · exact e
      have := ih hm
      simp only [lookupCode] at this
      simp [lookupCode, List.findIdx?_cons, hr, this]

/-- A lookup of an absent run length misses (R139). -/
theorem lookupCode_of_not_mem {runs : List Nat} {len : Nat} (h : len ∉ runs) : lookupCode runs len = none := by
  rw [lookupCode, List.findIdx?_eq_none_iff]
  intro x hx
  simp only [beq_eq_false_iff_ne, ne_eq]
  rintro rfl
  exact h hx

/-! ### The writer -/

theorem byteBits_length (b : Byte) : (byteBits b).length = 8 := rfl

/-- The writer after a stream of bits: its complete bytes and the bits its accumulator holds are the stream, and the
positions of the accumulator not reached hold 0 (R153). -/
structure WriterAfter (bits : List Bool) (w : Writer) : Prop where
  stream : w.bytes.flatMap byteBits ++ (byteBits w.acc).take w.cur.toNat = bits
  zeros : (byteBits w.acc).drop w.cur.toNat = List.replicate (8 - w.cur.toNat) false

theorem writerStart_after : WriterAfter [] writerStart where
  stream := by simp [writerStart]
  zeros := by decide

theorem cursor_cases (c : BitVec 3) : c = 0 ∨ c = 1 ∨ c = 2 ∨ c = 3 ∨ c = 4 ∨ c = 5 ∨ c = 6 ∨ c = 7 := by
  revert c
  decide

/-- One bit more (R146). -/
theorem putBit_after {bits : List Bool} {w : Writer} (h : WriterAfter bits w) (b : Bool) :
    WriterAfter (bits ++ [b]) (putBit w b) := by
  obtain ⟨acc, cur, bytes⟩ := w
  obtain ⟨hs, hz⟩ := h
  simp only at hs hz
  subst hs
  rcases cursor_cases cur with rfl | rfl | rfl | rfl | rfl | rfl | rfl | rfl <;>
    simp [byteBits, List.replicate] at hz <;>
    constructor <;>
    simp [putBit, byteBits, hz]

theorem putBits_after {bits : List Bool} {w : Writer} (h : WriterAfter bits w) (more : List Bool) :
    WriterAfter (bits ++ more) (more.foldl putBit w) := by
  induction more generalizing bits w with
  | nil => simpa using h
  | cons b more ih =>
    have := ih (putBit_after h b)
    simpa using this

/-- How many bytes a stream of `n` bits takes after the flush: `ceil(n / 8)` (R155). -/
theorem flush_length {bits : List Bool} {w : Writer} (h : WriterAfter bits w) :
    (flush w).bytes.length = (bits.length + 7) / 8 := by
  have hlen := congrArg List.length h.stream
  have hc := w.cur.isLt
  have hbl : (w.bytes.flatMap byteBits).length = 8 * w.bytes.length := by
    induction w.bytes with
    | nil => rfl
    | cons b bs ih => simp only [List.flatMap_cons, List.length_append, ih, byteBits_length, List.length_cons]; omega
  simp only [List.length_append, List.length_take, byteBits_length, hbl] at hlen
  by_cases h0 : w.cur = 0
  · simp only [flush, h0, if_true]
    rw [h0] at hlen
    simp at hlen
    omega
  · have : w.cur.toNat ≠ 0 := fun e => h0 (BitVec.eq_of_toNat_eq (by simpa using e))
    simp only [flush, h0, if_false, List.length_append, List.length_singleton]
    omega

/-- The flushed bytes, read most significant bit first, are the stream and then zeros (R148, 20_memory.md R61). -/
theorem flush_stream {bits : List Bool} {w : Writer} (h : WriterAfter bits w) :
    ∃ n, (flush w).bytes.flatMap byteBits = bits ++ List.replicate n false := by
  by_cases h0 : w.cur = 0
  · refine ⟨0, ?_⟩
    have hs := h.stream
    rw [h0] at hs
    simp only [flush, h0, if_true, List.replicate_zero, List.append_nil]
    simpa using hs
  · refine ⟨8 - w.cur.toNat, ?_⟩
    simp only [flush, h0, if_false, List.flatMap_append, List.flatMap_singleton]
    rw [← h.stream, ← h.zeros, List.append_assoc, List.take_append_drop]

theorem codeBits_length (code width : Nat) : (codeBits code width).length = width := by
  induction width with
  | zero => rfl
  | succ n ih => simp [codeBits, ih]

/-- Bit `j` of a code's bits, most significant first (R147). -/
theorem codeBits_get (code : Nat) {width j : Nat} (h : j < width) :
    (codeBits code width)[j]? = some (code.testBit (width - 1 - j)) := by
  induction width generalizing j with
  | zero => omega
  | succ n ih =>
    cases j with
    | zero => simp [codeBits]
    | succ j =>
      simp only [codeBits, List.getElem?_cons_succ]
      rw [ih (by omega)]
      congr 2
      omega

/-- The bits `PACK` puts for a sequence of lengths. -/
def packBits (runs : List Nat) (width : Nat) (lens : List Nat) : List Bool :=
  lens.flatMap (fun len => codeBits (runs.idxOf len) width)

theorem packBits_length (runs : List Nat) (width : Nat) (lens : List Nat) :
    (packBits runs width lens).length = lens.length * width := by
  induction lens with
  | nil => simp [packBits]
  | cons len lens ih =>
    simp only [packBits, List.flatMap_cons, List.length_append, codeBits_length, List.length_cons] at ih ⊢
    rw [ih]
    ring

/-- When every length is in the table, `PACK` writes all the codes. -/
theorem packRuns_written {runs : List Nat} {width : Nat} {lens : List Nat} (w : Writer) (h : ∀ len ∈ lens, len ∈ runs) :
    packRuns runs width lens w = .written ((packBits runs width lens).foldl putBit w) := by
  induction lens generalizing w with
  | nil => rfl
  | cons len lens ih =>
    rw [packRuns, lookupCode_of_mem (h len (by simp))]
    simp only [ih _ (fun x hx => h x (by simp [hx])), packBits, List.flatMap_cons, List.foldl_append, putCode]

/-- When some length is not, it stops at a miss (R150). -/
theorem packRuns_missed {runs : List Nat} {width : Nat} {lens : List Nat} (w : Writer)
    (h : ∃ len ∈ lens, len ∉ runs) : ∃ w', packRuns runs width lens w = .missed w' := by
  induction lens generalizing w with
  | nil => simp at h
  | cons len lens ih =>
    by_cases hl : len ∈ runs
    · rw [packRuns, lookupCode_of_mem hl]
      obtain ⟨x, hx, hn⟩ := h
      rcases List.mem_cons.1 hx with rfl | hx
      · exact absurd hl hn
      · exact ih _ ⟨x, hx, hn⟩
    · exact ⟨w, by rw [packRuns, lookupCode_of_not_mem hl]⟩

end Sys2Proof.Machine
end

