-- ==== Sys2Proof/Laws/Stages.lean ====
section
/-! SUPPORT. What each command reads and leaves in the memories, as the lists of valid entries. -/

namespace Sys2Proof.Machine

/-- Reading back the first entries of a memory that a stage has written from entry 0 on gives what it wrote. -/
theorem map_range_putFrom {α : Type} (m : Mem α) (vs : List α) (d : Nat → α) :
    (List.range vs.length).map (fun i => (Mem.entry? (Mem.putFrom m 0 vs) i).getD (d i)) = vs := by
  apply List.ext_getElem
  · simp
  · intro i h1 h2
    simp [entry?_putFrom_zero, h2]

/-! ### `PUSH` -/

theorem inAt_push (s : State) (b : Byte) (i : Nat) :
    State.inAt { s with inMem := Mem.put s.inMem s.nbytes b, nbytes := s.nbytes + 1 } i =
      if i = s.nbytes then b else s.inAt i := by
  simp only [State.inAt, entry?_put]
  split <;> simp

/-! ### `ENC` -/

theorem pktAt_encStage (s : State) (i : Nat) :
    (encStage s).pktAt i = ((rleEncode s.inputBits).packets[i]?).getD (s.pktAt i) := by
  simp only [State.pktAt, encStage_pkt, encStage_draws, entry?_putFrom_zero]
  split
  · simp [*]
  · rename_i h
    simp [List.getElem?_eq_none (Nat.le_of_not_lt h)]

theorem packets_encStage (s : State) : (encStage s).packets = (rleEncode s.inputBits).packets :=
  map_range_putFrom _ _ _

theorem inputBytes_encStage (s : State) : (encStage s).inputBytes = s.inputBytes := rfl

theorem inputBits_length (s : State) : s.inputBits.length = 8 * s.nbytes := by
  have h : ∀ l : List Byte, (l.flatMap byteBits).length = 8 * l.length := by
    intro l
    induction l with
    | nil => rfl
    | cons b l ih => simp only [List.flatMap_cons, List.length_append, ih, byteBits_length, List.length_cons]; omega
  simp [State.inputBits, h, State.inputBytes]

theorem packets_length (s : State) : s.packets.length = s.npkt := by simp [State.packets]

theorem packetLengths_length (s : State) : s.packetLengths.length = s.npkt := by
  simp [State.packetLengths, packets_length]

theorem packets_getElem (s : State) {i : Nat} (h : i < s.npkt) : s.packets[i]? = some (s.pktAt i) := by
  simp [State.packets, h]

theorem packetLengths_getElem (s : State) {i : Nat} (h : i < s.npkt) :
    s.packetLengths[i]? = some (s.pktAt i).length := by
  simp [State.packetLengths, packets_getElem s h]

theorem mem_packetLengths (s : State) (len : Nat) :
    len ∈ s.packetLengths ↔ ∃ i, i < s.npkt ∧ (s.pktAt i).length = len := by
  simp [State.packetLengths, State.packets]

/-! ### `RANK` -/

theorem tblAt_rankStage (s : State) (i : Nat) :
    (rankStage s).tblAt i = ((rankRuns s.packetLengths)[i]?).getD (s.tblAt i) := by
  simp only [State.tblAt, rankStage_tbl, rankStage_draws, entry?_putFrom_zero]
  split
  · simp [*]
  · rename_i h
    simp [List.getElem?_eq_none (Nat.le_of_not_lt h)]

theorem table_rankStage (s : State) : (rankStage s).table = rankRuns s.packetLengths :=
  map_range_putFrom _ _ _

theorem packets_rankStage (s : State) : (rankStage s).packets = s.packets := rfl

theorem table_length (s : State) : s.table.length = s.k := by simp [State.table]

theorem tableRuns_length (s : State) : s.tableRuns.length = s.k := by simp [State.tableRuns, table_length]

theorem table_getElem (s : State) {i : Nat} (h : i < s.k) : s.table[i]? = some (s.tblAt i) := by
  simp [State.table, h]

theorem tableRuns_getElem (s : State) {i : Nat} (h : i < s.k) : s.tableRuns[i]? = some (s.tblAt i).runLength := by
  simp [State.tableRuns, table_getElem s h]

theorem mem_tableRuns (s : State) (len : Nat) :
    len ∈ s.tableRuns ↔ ∃ i, i < s.k ∧ (s.tblAt i).runLength = len := by
  simp [State.tableRuns, State.table]

/-! ### `PACK` -/

/-- The state a complete `PACK` leaves. -/
def packWritten (s : State) (w : Writer) : State :=
  { s with out := Mem.putFrom s.out 0 (flush w).bytes, nout := (flush w).bytes.length, wstate := ⟨0, 0⟩,
           phase := .packed }

/-- The state an aborted `PACK` leaves (45_bit_packed_writer.md R150). -/
def packAborted (s : State) (w : Writer) : State :=
  { s with err := s.err.set .nf, out := Mem.putFrom s.out 0 w.bytes, nout := 0, wstate := ⟨0, 0⟩ }

/-- All that `PACK` can do: every code written and flushed, or, when a length is not in the table, the abort. -/
theorem packStage_cases (s : State) :
    ((∀ len ∈ s.packetLengths, len ∈ s.tableRuns)
        ∧ packStage s = packWritten s ((packBits s.tableRuns s.codewidth s.packetLengths).foldl putBit writerStart))
      ∨ ((∃ len ∈ s.packetLengths, len ∉ s.tableRuns) ∧ ∃ w, packStage s = packAborted s w) := by
  by_cases h : ∀ len ∈ s.packetLengths, len ∈ s.tableRuns
  · refine .inl ⟨h, ?_⟩
    simp only [packStage, packRuns_written writerStart h]
    rfl
  · have h' : ∃ len ∈ s.packetLengths, len ∉ s.tableRuns := by
      by_contra hc
      exact h fun x hx => by
        by_contra hn
        exact hc ⟨x, hx, hn⟩
    refine .inr ⟨h', ?_⟩
    obtain ⟨w, hw⟩ := packRuns_missed (width := s.codewidth) writerStart h'
    refine ⟨w, ?_⟩
    simp only [packStage, hw]
    rfl

theorem outputBytes_packWritten (s : State) (w : Writer) : (packWritten s w).outputBytes = (flush w).bytes :=
  map_range_putFrom _ _ _

/-- The writer a complete `PACK` ends with holds exactly the code bits. -/
theorem packWriter_after (runs : List Nat) (width : Nat) (lens : List Nat) :
    WriterAfter (packBits runs width lens) ((packBits runs width lens).foldl putBit writerStart) := by
  simpa using putBits_after writerStart_after (packBits runs width lens)

/-! ### `RUN` -/

/-- After `ENC`, `RANK` and `BUILD` no lookup of `PACK` can miss (45_bit_packed_writer.md R154). -/
theorem runStages_written (s : State) :
    ∃ w, runStages s = packWritten (buildStage (rankStage (encStage s))) w := by
  rcases packStage_cases (buildStage (rankStage (encStage s))) with ⟨_, h⟩ | ⟨⟨len, h1, h2⟩, _⟩
  · exact ⟨_, h⟩
  · refine absurd ?_ h2
    have : (buildStage (rankStage (encStage s))).tableRuns = (rankStage (encStage s)).table.map FreqEntry.runLength :=
      rfl
    rw [this, table_rankStage, rankRuns_cover]
    exact h1

end Sys2Proof.Machine
end

