-- ==== Sys2Proof/Laws/Bus.lean ====
section
/-! SUPPORT. The words of the registers, the register an offset names, and what a step that delivers a read or a write
is. -/

namespace Sys2Proof.Machine

/-! ### Offsets -/

theorem offsetOf_eq {addr n : Nat} (h : addr % 256 = n) : offsetOf addr = BitVec.ofNat 8 n := by
  subst h
  apply BitVec.eq_of_toNat_eq
  simp [offsetOf]

/-- The register map (10_state.md R9): every register at its offset, nothing anywhere else. -/
theorem regAt?_eq (off : BitVec 8) : regAt? off =
    if off = 0x00 then some .cmd else if off = 0x04 then some .status else if off = 0x08 then some .err
    else if off = 0x0C then some .nbytes else if off = 0x10 then some .npkt else if off = 0x14 then some .k
    else if off = 0x18 then some .codewidth else if off = 0x1C then some .nout else if off = 0x20 then some .lkp
    else if off = 0x24 then some .sel else if off = 0x28 then some .idx else if off = 0x2C then some .rd0
    else if off = 0x30 then some .rd1 else if off = 0x34 then some .rleLen else if off = 0x38 then some .rleBit
    else if off = 0x3C then some .wstate else none := by
  revert off
  decide +kernel

theorem regAt?_offset (r : Reg) : regAt? r.offset = some r := by cases r <;> decide

theorem regAt?_cmd {addr : Nat} (h : addr % 256 = 0) : regAt? (offsetOf addr) = some .cmd := by
  rw [offsetOf_eq h]
  decide

/-- Only offset 0 is `CMD`. -/
theorem offset_of_cmd {addr : Nat} (h : regAt? (offsetOf addr) = some .cmd) : addr % 256 = 0 := by
  have hall : ∀ n, n < 256 → regAt? (BitVec.ofNat 8 n) = some .cmd → n = 0 := by decide +kernel
  rw [offsetOf_eq rfl] at h
  exact hall _ (Nat.mod_lt _ (by omega)) h

/-- Only the word of `CLR` decodes to `CLR`. -/
theorem word_of_clr {w : Word} (h : decode w = .ok .clr) : w = 0x00000001 := by
  have hw := word_split w
  rcases decode_cases w with ⟨h', _⟩ | ⟨_, h1, h2⟩ | ⟨h', _⟩ | ⟨h', _⟩ | ⟨h', _⟩ | ⟨h', _⟩ | ⟨h', _⟩ | ⟨h', _⟩ | ⟨h', _⟩
    | ⟨h', _⟩ | ⟨h', _⟩ | ⟨h', _⟩
  case inr.inl => rw [h1, h2] at hw; exact hw
  all_goals rw [h] at h'; cases h'

/-! ### The registers as numbers -/

theorem statusWord_eq (s : State) : s.statusWord = BitVec.ofNat 32 (s.phase.number + 8 * s.fatal.toNat) := by
  unfold State.statusWord
  cases s.phase <;> cases s.fatal <;> decide

theorem errWord_eq (e : Err) : e.word = BitVec.ofNat 32 (e.ovf.toNat + 2 * e.seq.toNat + 4 * e.ill.toNat
    + 8 * e.nf.toNat + 16 * e.idx.toNat + 32 * e.addr.toNat) := by
  obtain ⟨a, b, c, d, e, f⟩ := e
  revert a b c d e f
  decide

theorem lkpWord_eq (l : Lkp) : l.word = BitVec.ofNat 32 (l.code.toNat + 2 ^ 31 * l.nf.toNat) := by
  obtain ⟨c, n⟩ := l
  apply BitVec.eq_of_toNat_eq
  have := c.isLt
  simp only [Lkp.word]
  rw [BitVec.toNat_append]
  cases n
  · simp
    omega
  · simp only [BitVec.toNat_ofBool, Bool.toNat_true, BitVec.toNat_ofNat]
    rw [← Nat.shiftLeft_add_eq_or_of_lt c.isLt]
    omega

theorem rleBitWord_eq (r : RleBit) :
    r.word = BitVec.ofNat 32 ((r.bit && !r.none).toNat + 2 * r.none.toNat + 4 * r.drop.toNat) := by
  obtain ⟨a, b, c⟩ := r
  revert a b c
  decide

theorem wstateWord_eq (w : WState) : w.word = BitVec.ofNat 32 (w.acc.toNat + 256 * w.cur.toNat) := by
  obtain ⟨a, c⟩ := w
  apply BitVec.eq_of_toNat_eq
  have := a.isLt
  have := c.isLt
  simp only [WState.word]
  rw [BitVec.toNat_append, BitVec.toNat_append, ← Nat.shiftLeft_add_eq_or_of_lt a.isLt]
  simp
  omega

/-! ### The window -/

/-- The window is in range exactly below the count of the selected memory (20_memory.md R48 to R52). -/
theorem window_isSome (s : State) : s.window.isSome = decide (s.idx.toNat < s.selectedCount) := by
  unfold State.window State.selectedCount
  dsimp only
  split
  · split <;> simp [*]
  · split
    · split <;> simp [*]
    · split <;> split <;> simp [*]

/-! ### Steps -/

theorem step_read (s : State) (addr : Nat) (rest : List BusEvent) :
    step { s with bus := .read addr :: rest } = .next (busRead addr { s with bus := rest }) := rfl

theorem step_write (s : State) (addr : Nat) (v : Word) (rest : List BusEvent) :
    step { s with bus := .write addr v :: rest } = busWrite addr v { s with bus := rest } := rfl

/-- Every command answers a next state (60_exceptions.md R160). -/
theorem exec_next (i : Instr) (s : State) : ∃ t, exec i s = .next t := by
  rw [exec_eq]
  unfold whenLegal
  split <;> exact ⟨_, rfl⟩

/-- So does every write. -/
theorem busWrite_next (addr : Nat) (v : Word) (s : State) : ∃ t, busWrite addr v s = .next t := by
  unfold busWrite
  split
  · unfold commandWrite
    split
    · exact exec_next _ _
    · exact ⟨_, rfl⟩
  all_goals exact ⟨_, rfl⟩

/-- All that a command can do to the flags. -/
theorem exec_err {i : Instr} {s t : State} (h : exec i s = .next t) :
    t.err = s.err
      ∨ (t = s.raise .seq ∧ legal i s = false)
      ∨ ((∃ b, i = .push b) ∧ s.nbytes = s.cfg.nmax ∧ t = s.raise .ovf ∧ legal i s = true)
      ∨ (i = .pack ∧ t.err = s.err.set .nf ∧ legal i s = true)
      ∨ (i = .clr ∧ t = s.cleared) := by
  rcases exec_cases h with ⟨hl, rfl⟩ | ⟨hl, rfl⟩
  · cases i
    case clr => exact .inr (.inr (.inr (.inr ⟨rfl, rfl⟩)))
    case push b =>
      by_cases hc : s.nbytes = s.cfg.nmax
      · exact .inr (.inr (.inl ⟨⟨b, rfl⟩, hc, by simp [effectOf, pushEffect, hc], hl⟩))
      · exact .inl (by simp [effectOf, pushEffect, hc])
    case pack =>
      rcases packStage_cases s with ⟨_, h⟩ | ⟨_, w, h⟩
      · exact .inl (by simp [effectOf, h, packWritten])
      · exact .inr (.inr (.inr (.inl ⟨rfl, by simp [effectOf, h, packAborted], hl⟩)))
    case run =>
      obtain ⟨w, h⟩ := runStages_written s
      exact .inl (by simp [effectOf, h, packWritten])
    all_goals exact .inl rfl
  · exact .inr (.inl ⟨rfl, hl⟩)

/-- All that a step can do to the flags: keep them, raise one, or clear them all (60_exceptions.md section 3, R168). -/
theorem step_err {s t : State} (h : step s = .next t) :
    t.err = s.err ∨ (∃ f, t.err = s.err.set f)
      ∨ (∃ e es, s.bus = e :: es ∧ clearingEvent e ∧ t = (s.withBus es).cleared) := by
  rcases step_cases h with ⟨_, rfl⟩ | ⟨e, es, hb, he⟩
  · exact .inl rfl
  rcases busEvent_cases he with ⟨addr, rfl, rfl⟩ | ⟨addr, v, rfl, hw⟩ | ⟨hc, rfl⟩
  · rcases busRead_cases addr (s.withBus es) with ⟨w, hr⟩ | hr | hr <;> rw [hr]
    · exact .inl rfl
    · exact .inr (.inl ⟨.idx, rfl⟩)
    · exact .inr (.inl ⟨.addr, rfl⟩)
  · rcases busWrite_cases hw with ⟨hr, i, hd, hi⟩ | ⟨_, _, rfl⟩ | ⟨_, rfl⟩ | ⟨_, rfl⟩ | rfl
    · rcases exec_err hi with h | ⟨rfl, _⟩ | ⟨_, _, rfl, _⟩ | ⟨_, h, _⟩ | ⟨rfl, rfl⟩
      · exact .inl h
      · exact .inr (.inl ⟨.seq, rfl⟩)
      · exact .inr (.inl ⟨.ovf, rfl⟩)
      · exact .inr (.inl ⟨.nf, h⟩)
      · exact .inr (.inr ⟨_, es, hb, ⟨offset_of_cmd hr, word_of_clr hd⟩, rfl⟩)
    · exact .inr (.inl ⟨.ill, rfl⟩)
    · exact .inl rfl
    · exact .inl rfl
    · exact .inr (.inl ⟨.addr, rfl⟩)
  · exact .inr (.inr ⟨e, es, hb, by rcases hc with rfl | ⟨_, _, rfl⟩ <;> trivial, rfl⟩)

/-- `raise` sets its flag and no other (R160). -/
theorem set_get (e : Err) (f g : ErrFlag) : (e.set f).get g = (decide (g = f) || e.get g) := by
  cases f <;> cases g <;> rfl

end Sys2Proof.Machine
end

