-- ==== Sys2Proof/Laws/Host.lean ====
section
/-! SUPPORT. What the host's loops can do: reading pixels, cutting them into rows, delivering a list of events. -/

namespace Sys2Proof.Machine

/-! ### Reading pixels -/

/-- An accepted pixel is the value read, and within `maxGray` where that is validated (40_host_loader_serializer.md R87,
R92). -/
theorem pixelOf_ok {p : HostParams} {maxGray v : Nat} {b : Byte} (h : pixelOf p maxGray v = .ok b) :
    b.toNat = v ∧ (p.validatePixels = true → v ≤ maxGray) := by
  unfold pixelOf at h
  split at h
  · cases h
  · split at h
    · cases h
    · cases h
      rename_i h1 h2
      refine ⟨by simp; omega, fun hv => ?_⟩
      by_contra hc
      exact h1 ⟨hv, by omega⟩

/-- What the readers of pixels promise of their result. -/
abbrev PixelsRead (p : HostParams) (maxGray n : Nat) (pixels : List Byte) : Prop :=
  pixels.length = n ∧ (p.validatePixels = true → ∀ b ∈ pixels, b.toNat ≤ maxGray)

theorem pixelsRead_cons {p : HostParams} {maxGray v n : Nat} {b : Byte} {pixels : List Byte}
    (hb : pixelOf p maxGray v = .ok b) (h : PixelsRead p maxGray n pixels) :
    PixelsRead p maxGray (n + 1) (b :: pixels) := by
  obtain ⟨h1, h2⟩ := pixelOf_ok hb
  refine ⟨by simp [h.1], fun hv x hx => ?_⟩
  rcases List.mem_cons.1 hx with rfl | hx
  · exact h1 ▸ h2 hv
  · exact h.2 hv x hx

theorem except_bind_ok {ε α β : Type} {x : Except ε α} {f : α → Except ε β} {b : β} (h : (x >>= f) = .ok b) :
    ∃ a, x = .ok a ∧ f a = .ok b := by
  cases x with
  | error e => cases h
  | ok a => exact ⟨a, rfl, h⟩

theorem readP2Pixels_ok {p : HostParams} {maxGray n : Nat} {file pixels rest : List Byte}
    (h : readP2Pixels p maxGray n file = .ok (pixels, rest)) : PixelsRead p maxGray n pixels := by
  induction n generalizing file pixels rest with
  | zero => cases h; exact ⟨rfl, fun _ _ hb => by cases hb⟩
  | succ n ih =>
    obtain ⟨⟨v, rest1⟩, _, h⟩ := except_bind_ok h
    obtain ⟨b, hb, h⟩ := except_bind_ok h
    obtain ⟨⟨more, rest2⟩, hm, h⟩ := except_bind_ok h
    cases h
    exact pixelsRead_cons hb (ih hm)

theorem readP5Pixels_ok {p : HostParams} {maxGray n : Nat} {raw pixels rest : List Byte}
    (h : readP5Pixels p maxGray n raw = .ok (pixels, rest)) : PixelsRead p maxGray n pixels := by
  induction n generalizing raw pixels rest with
  | zero => cases h; exact ⟨rfl, fun _ _ hb => by cases hb⟩
  | succ n ih =>
    cases raw with
    | nil => cases h
    | cons b raw =>
      obtain ⟨b, hb, h⟩ := except_bind_ok h
      obtain ⟨⟨more, rest2⟩, hm, h⟩ := except_bind_ok h
      cases h
      exact pixelsRead_cons hb (ih hm)

/-- A value the loader takes is its byte. -/
theorem pixelOf_eq {p : HostParams} {maxGray v : Nat} (h : pixelAccepted p maxGray v) :
    pixelOf p maxGray v = .ok (BitVec.ofNat 8 v) := by
  have h1 : ¬ (p.validatePixels = true ∧ maxGray < v) := fun hc => by have := h.2 hc.1; omega
  have h2 : ¬ 255 < v := by have := h.1; omega
  simp [pixelOf, h1, h2]

/-- The P2 pixels are the values of the file, in order. -/
theorem readP2Pixels_values {p : HostParams} {maxGray n : Nat} {file pixels rest : List Byte}
    (h : readP2Pixels p maxGray n file = .ok (pixels, rest)) :
    readValues n file = .ok (pixels.map BitVec.toNat, rest) := by
  induction n generalizing file pixels rest with
  | zero => cases h; rfl
  | succ n ih =>
    obtain ⟨⟨v, rest1⟩, hv, h⟩ := except_bind_ok h
    obtain ⟨b, hb, h⟩ := except_bind_ok h
    obtain ⟨⟨more, rest2⟩, hm, h⟩ := except_bind_ok h
    cases h
    simp only [readValues, hv, ih hm, bind, Except.bind, List.map_cons, (pixelOf_ok hb).1]

/-- After accepted values the P2 reader goes on with what follows them. -/
theorem readP2Pixels_after {p : HostParams} {maxGray k : Nat} {vs : List Nat} {file tail : List Byte}
    (h : readValues vs.length file = .ok (vs, tail)) (ha : ∀ v ∈ vs, pixelAccepted p maxGray v) :
    readP2Pixels p maxGray (vs.length + k) file =
      (readP2Pixels p maxGray k tail).map (fun r => (vs.map (BitVec.ofNat 8) ++ r.1, r.2)) := by
  induction vs generalizing file with
  | nil =>
    cases h
    simp only [List.length_nil, Nat.zero_add, List.map_nil, List.nil_append]
    generalize readP2Pixels p maxGray k _ = r
    cases r <;> rfl
  | cons v vs ih =>
    obtain ⟨⟨v', rest1⟩, hv, h⟩ := except_bind_ok h
    obtain ⟨⟨more, rest2⟩, hm, h⟩ := except_bind_ok h
    cases h
    have hl : (v :: vs).length + k = (vs.length + k) + 1 := by simp only [List.length_cons]; omega
    rw [hl, readP2Pixels]
    simp only [hv, pixelOf_eq (ha v (by simp)), ih hm (fun x hx => ha x (by simp [hx])), bind, Except.bind]
    cases readP2Pixels p maxGray k tail <;> rfl

/-- The P5 pixels are the bytes of the file, in order. -/
theorem readP5Pixels_bytes {p : HostParams} {maxGray n : Nat} {raw pixels rest : List Byte}
    (h : readP5Pixels p maxGray n raw = .ok (pixels, rest)) : raw = pixels ++ rest := by
  induction n generalizing raw pixels rest with
  | zero => cases h; rfl
  | succ n ih =>
    cases raw with
    | nil => cases h
    | cons b raw =>
      obtain ⟨c, hc, h⟩ := except_bind_ok h
      obtain ⟨⟨more, rest2⟩, hm, h⟩ := except_bind_ok h
      cases h
      rw [BitVec.eq_of_toNat_eq (pixelOf_ok hc).1, ih hm, List.cons_append]

/-- With nothing but whitespace left there is no next integer (R86, R92). -/
theorem readNumber_end {file : List Byte} (h : file.all isSpace = true) : readNumber file = .error (.failed .io) := by
  have hd : file.dropWhile isSpace = [] := List.dropWhile_eq_nil_iff.2 (by simpa using h)
  simp [readNumber, hd, frontToken]

/-! ### Rows -/

/-- Cutting as many pixels as a grid holds gives its rows, and putting the rows together gives the pixels back. -/
theorem gridRows_ok {width height : Nat} {pixels : List Byte} (h : pixels.length = width * height) :
    PixelGrid.wf ⟨width, height, gridRows width height pixels⟩ ∧ (gridRows width height pixels).flatten = pixels := by
  induction height generalizing pixels with
  | zero =>
    have : pixels = [] := by simpa using h
    subst this
    exact ⟨⟨rfl, fun _ hr => by cases hr⟩, rfl⟩
  | succ n ih =>
    have hmul : width * (n + 1) = width * n + width := Nat.mul_succ width n
    have hrest : (pixels.drop width).length = width * n := by rw [List.length_drop]; omega
    obtain ⟨⟨hl, hw⟩, hf⟩ := ih hrest
    refine ⟨⟨by simp only [gridRows, List.length_cons]; exact congrArg (· + 1) hl, ?_⟩, ?_⟩
    · intro row hr
      rcases List.mem_cons.1 hr with rfl | hr
      · simp only [List.length_take]
        omega
      · exact hw row hr
    · simp only [gridRows, List.flatten_cons, hf, List.take_append_drop]

/-! ### Delivering events -/

/-- Every event answers a next state. -/
theorem busEvent_next (e : BusEvent) (s : State) : ∃ t, busEvent e s = .next t := by
  cases e with
  | write addr v => exact busWrite_next addr v s
  | _ => exact ⟨_, rfl⟩

/-- So does every list of events. -/
theorem deliverAll_next (es : List BusEvent) (s : State) : ∃ t, deliverAll es s = .next t := by
  induction es generalizing s with
  | nil => exact ⟨s, rfl⟩
  | cons e es ih =>
    obtain ⟨t, ht⟩ := busEvent_next e s
    obtain ⟨u, hu⟩ := ih t
    exact ⟨u, by simp [deliverAll, ht, hu]⟩

/-- Delivering two lists is delivering the first and then the second. -/
theorem deliverAll_append (es fs : List BusEvent) {s t : State} (h : deliverAll es s = .next t) :
    deliverAll (es ++ fs) s = deliverAll fs t := by
  induction es generalizing s with
  | nil => cases h; rfl
  | cons e es ih =>
    obtain ⟨u, hu⟩ := busEvent_next e s
    simp only [deliverAll, hu, List.cons_append] at h ⊢
    exact ih h

/-- A script runs line by line (30_encoding.md R72): the events of its first line, then the rest. -/
theorem runScript_cons {l : ScriptLine} {es : List BusEvent} {s t : State} (ls : List ScriptLine)
    (he : l.expand s = some es) (h : deliverAll es s = .next t) : runScript (l :: ls) s = runScript ls t := by
  simp [runScript, he, h]

end Sys2Proof.Machine
end

