-- ==== Sys2Proof/Laws/PerInstr.lean ====
section
/-! SUPPORT. Statements made per command: the word of every command lies in its row of the opcode map (30_encoding.md
R69). -/

namespace Sys2Proof.Laws.RowWord

/-- The command's word selects its row, and its opcode field is the row's opcode. -/
def Statement (i : Instr) : Prop := encode i &&& i.maskBits = i.matchBits ∧ opField (encode i) = i.op

theorem nop : Statement .nop := by unfold Statement; decide
theorem clr : Statement .clr := by unfold Statement; decide
theorem enc : Statement .enc := by unfold Statement; decide
theorem rank : Statement .rank := by unfold Statement; decide
theorem build : Statement .build := by unfold Statement; decide
theorem pack : Statement .pack := by unfold Statement; decide
theorem run : Statement .run := by unfold Statement; decide

theorem push (imm8 : Byte) : Statement (.push imm8) := by
  refine ⟨?_, ?_⟩
  · apply BitVec.eq_of_getLsbD_eq
    intro i hi
    simp only [encode, Instr.upper, Instr.op, Instr.maskBits, Instr.matchBits, BitVec.getLsbD_and, BitVec.getLsbD_append]
    interval_cases i <;> simp
  · apply BitVec.eq_of_getLsbD_eq
    intro i hi
    simp only [opField, BitVec.getLsbD_extractLsb', encode, Instr.upper, Instr.op]
    rw [BitVec.getLsbD_append]
    simp [hi]

theorem lookup (imm24 : BitVec 24) : Statement (.lookup imm24) := by
  refine ⟨?_, ?_⟩
  · apply BitVec.eq_of_getLsbD_eq
    intro i hi
    simp only [encode, Instr.upper, Instr.op, Instr.maskBits, Instr.matchBits, BitVec.getLsbD_and, BitVec.getLsbD_append]
    interval_cases i <;> simp
  · apply BitVec.eq_of_getLsbD_eq
    intro i hi
    simp only [opField, BitVec.getLsbD_extractLsb', encode, Instr.upper, Instr.op]
    rw [BitVec.getLsbD_append]
    simp [hi]

end Sys2Proof.Laws.RowWord
end

