-- ==== Sys2Proof/Tests/Slice0.lean ====
section
/-! SUPPORT. The model's own tests: expected values from spec/95_test_vectors.md (the vector or program named) or from the
rule named, and a witness for the hypotheses of each obligation. -/

namespace Sys2Proof.Tests

open Sys2Proof Sys2Proof.Machine

set_option Elab.async false

/-! ### Small states -/

/-- A memory that holds a list from entry 0 on. -/
def listed {α : Type} (vs : List α) : Mem α := (List.range vs.length).zip vs

/-- Phase `LOAD` with these bytes pushed. -/
def atLoad (bytes : List Byte) : State := { State.reset with inMem := listed bytes, nbytes := bytes.length }

/-- Phase `ENCODED` with these packets. -/
def atEncoded (bytes : List Byte) (ps : List RunPacket) : State :=
  { atLoad bytes with phase := .encoded, pkt := listed ps, npkt := ps.length, rleBit := ⟨false, false, false⟩ }

/-- Phase `RANKED` with this table. -/
def atRanked (bytes : List Byte) (ps : List RunPacket) (es : List FreqEntry) : State :=
  { atEncoded bytes ps with phase := .ranked, tbl := listed es, k := es.length }

/-- Phase `BUILT` with this width. -/
def atBuilt (bytes : List Byte) (ps : List RunPacket) (es : List FreqEntry) (width : Nat) : State :=
  { atRanked bytes ps es with phase := .built, codewidth := width }

/-- Phase `PACKED` with this output. -/
def atPacked (bytes : List Byte) (ps : List RunPacket) (es : List FreqEntry) (width : Nat) (out : List Byte) : State :=
  { atBuilt bytes ps es width with phase := .packed, out := listed out, nout := out.length }

/-- The bytes of vector V7. -/
def bytes7 : List Byte := [0xF0, 0x33, 0x80]

/-- Its packets. -/
def packets7 : List RunPacket := [⟨4, true⟩, ⟨6, false⟩, ⟨2, true⟩, ⟨2, false⟩, ⟨3, true⟩, ⟨7, false⟩]

/-- Its ranked table. -/
def table7 : List FreqEntry := [⟨2, 2⟩, ⟨4, 1⟩, ⟨6, 1⟩, ⟨3, 1⟩, ⟨7, 1⟩]

def load7 : State := atLoad bytes7
def encoded7 : State := { atEncoded bytes7 packets7 with rleLen := 7 }
def ranked7 : State := { atRanked bytes7 packets7 table7 with rleLen := 7 }
def built7 : State := { atBuilt bytes7 packets7 table7 3 with rleLen := 7 }
def packed7 : State := { atPacked bytes7 packets7 table7 3 [0x28, 0x07, 0x00] with rleLen := 7 }

/-- `NMAX = 2`, two bytes pushed (program P4). -/
def full2 : State := { atLoad [0xFF, 0x00] with cfg := ⟨2⟩ }

/-- Vector E21: the state after the overflow. -/
def overflowed2 : State := { full2 with err := ⟨true, false, false, false, false, false⟩ }

/-- 95_test_vectors.md section 9: the constructed state whose `PACK` misses at once or after one code. -/
def missing (es : List FreqEntry) (width : Nat) : State := atBuilt [0xF8] [⟨4, true⟩, ⟨5, false⟩] es width

/-- The next state of an outcome. -/
def nextOf (o : Host.Outcome State Fault Refusal) : Option State :=
  match o with
  | .next t => some t
  | .fault _ => none
  | .refused _ => none

/-- The state after one bus event. -/
def after (e : BusEvent) (s : State) : Option State := nextOf (step { s with bus := [e] })

/-- What a host sees after one bus event: the words returned, `ERR`, `STATUS`. -/
def seen (e : BusEvent) (s : State) : Option (List Word × Word × Word) :=
  (after e s).map (fun t => (t.replies, t.err.word, t.statusWord))

/-! ### Well-formedness refuses what is ill formed -/

theorem test_wf_nmax_zero : ¬ Config.wf ⟨0⟩ := by decide
theorem test_wf_nmax_large : ¬ Config.wf ⟨2 ^ 20 + 1⟩ := by decide
theorem test_wf_nmax_bounds : Config.wf ⟨1⟩ ∧ Config.wf ⟨2 ^ 20⟩ := by decide
theorem test_wf_exit_success : ¬ HostParams.wf ⟨true, 0, false⟩ := by decide
theorem test_wf_exit_format : ¬ HostParams.wf ⟨true, 10, false⟩ := by decide
theorem test_wf_exit_range : ¬ HostParams.wf ⟨true, 11, false⟩ := by decide
theorem test_wf_exit_ok : HostParams.wf ⟨false, 12, false⟩ := by decide
theorem test_wf_push_operand : ¬ pushOperandWf 256 ∧ pushOperandWf 255 := by decide
theorem test_wf_lookup_operand : ¬ lookupOperandWf (2 ^ 24) ∧ lookupOperandWf (2 ^ 24 - 1) := by decide
theorem test_wf_line_refused : pushLine 256 = none ∧ lookupLine (2 ^ 24) = none := by decide
theorem test_wf_instr : Instr.wf (.push 0xFF) ∧ Instr.wf (.lookup 0xFFFFFF) := by decide

/-! ### Decoding: the words of 95_test_vectors.md section 8, bits written out from 30_encoding.md R63 and R69 -/

theorem test_decode_nop : decode 0b00000000000000000000000000000000 = .ok .nop := by decide
theorem test_decode_clr : decode 0b00000000000000000000000000000001 = .ok .clr := by decide
theorem test_decode_push : decode 0b00000000000000001010101000000010 = .ok (.push 0xAA) := by decide
theorem test_decode_push_max : decode 0x0000FF02 = .ok (.push 0xFF) := by decide
theorem test_decode_enc : decode 0b00000000000000000000000000000011 = .ok .enc := by decide
theorem test_decode_rank : decode 0b00000000000000000000000000000100 = .ok .rank := by decide
theorem test_decode_build : decode 0b00000000000000000000000000000101 = .ok .build := by decide
theorem test_decode_pack : decode 0b00000000000000000000000000000110 = .ok .pack := by decide
theorem test_decode_run : decode 0b00000000000000000000000000000111 = .ok .run := by decide
theorem test_decode_lookup : decode 0b00000000000000000000011000001000 = .ok (.lookup 6) := by decide
theorem test_decode_lookup_max : decode 0xFFFFFF08 = .ok (.lookup 16777215) := by decide
theorem test_decode_illegal_must_be_zero :
    [0x00010002, 0xFF00AA02, 0x00000103, 0x80000004, 0x00000100, 0x00000101].map decode =
      List.replicate 6 (.error .mustBeZero) := by decide
theorem test_decode_illegal_opcode :
    [0x00000009, 0x000000FF, 0xFFFFFFFF].map decode = List.replicate 3 (.error .opcode) := by decide
theorem test_encode_push : encode (.push 0x33) = 0x00003302 := by decide
theorem test_encode_lookup : encode (.lookup 7) = 0x00000708 := by decide
theorem test_table_word :
    decodeTableWord 32 0x00000608 = some (.lookup 6) ∧ decodeTableWord 32 0x00010002 = none
      ∧ decodeTableWord 8 0xFF08 = some (.lookup 0) := by decide

/-- A table word given to `withFetchWord` is what the next step executes, from reset, for a word of each row. -/
theorem test_fetch_runs_the_word :
    ∀ p ∈ [((0x00000000 : Nat), Instr.nop), (0x00000001, .clr), (0x0000AA02, .push 0xAA), (0x00000003, .enc),
        (0x00000004, .rank), (0x00000005, .build), (0x00000006, .pack), (0x00000007, .run), (0x00000608, .lookup 6)],
      nextOf (step (State.reset.withFetchWord 32 p.1)) = nextOf (exec p.2 State.reset)
        ∧ (nextOf (exec p.2 State.reset)).isSome := by decide +kernel

/-! ### One step of each command -/

/-- Program P3: `NOP` leaves the state. -/
theorem test_nop : after (.write 0 0x00000000) packed7 = some packed7 := by decide +kernel

/-- Program P3: `CLR` clears the flags and restores `RLE_BIT = 6`. -/
theorem test_clr :
    (after (.write 0 0x00000001) { packed7 with err := ⟨false, true, true, false, true, true⟩ }).map
      (fun t => (t.err.word, t.statusWord, t.rleBit.word, t.nbytes)) = some (0, 0, 6, 0) := by decide +kernel

/-- Vector E24: `CLR` is executed in the fatal state. -/
theorem test_clr_fatal : seen (.write 0 0x00000001) overflowed2 = some ([], 0, 0) := by decide +kernel

/-- Program P2: the second `PUSH`. -/
theorem test_push :
    (after (.write 0 0x00003302) (atLoad [0xF0])).map (fun t => (t.nbytes, t.inputBytes, t.err.word)) =
      some (2, [0xF0, 0x33], 0) := by decide +kernel

/-- Vector E21: overflow. -/
theorem test_push_overflow : after (.write 0 0x00001102) full2 = some overflowed2 := by decide +kernel

/-- Vector V7. -/
theorem test_enc :
    (after (.write 0 0x00000003) load7).map (fun t => (t.packets, t.npkt, t.rleLen, t.rleBit.word, t.statusWord)) =
      some (packets7, 6, 7, 0, 1) := by decide +kernel

/-- Vector V1: the empty input leaves the sentinel. -/
theorem test_enc_empty :
    (after (.write 0 0x00000003) State.reset).map (fun t => (t.packets, t.rleLen, t.rleBit.word, t.statusWord)) =
      some ([], 0, 2, 1) := by decide +kernel

/-- Vector V7. -/
theorem test_rank :
    (after (.write 0 0x00000004) encoded7).map (fun t => (t.table, t.k, t.statusWord)) = some (table7, 5, 2) := by
  decide +kernel

/-- Vector V10: two tie groups, each in first-seen order. -/
theorem test_rank_ties :
    (after (.write 0 0x00000004) (atEncoded [] ([1, 7, 2, 6, 3, 5, 4, 4, 5, 3].map (⟨·, true⟩)))).map State.table =
      some [⟨3, 2⟩, ⟨5, 2⟩, ⟨4, 2⟩, ⟨1, 1⟩, ⟨7, 1⟩, ⟨2, 1⟩, ⟨6, 1⟩] := by decide +kernel

/-- Vector V7. -/
theorem test_build : after (.write 0 0x00000005) ranked7 = some built7 := by decide +kernel

/-- 95_test_vectors.md section 5, the table of `CodeWidth`. -/
theorem test_code_width :
    [0, 1, 2, 3, 4, 5, 7, 8, 9, 15, 16, 17, 31, 32, 33, 1023, 1024, 1025, 4096, 4097, 8388608].map codeWidth =
      [0, 0, 1, 2, 2, 3, 3, 3, 4, 4, 4, 5, 5, 5, 6, 10, 10, 11, 12, 13, 23] := by decide +kernel

/-- Vector V7. -/
theorem test_pack : after (.write 0 0x00000006) built7 = some packed7 := by decide +kernel

/-- 95_test_vectors.md section 9: the abort, at the second packet, after two bits. -/
theorem test_pack_abort :
    (after (.write 0 0x00000006) (missing [⟨4, 1⟩, ⟨9, 1⟩] 2)).map
      (fun t => (t.err.word, t.statusWord, t.nout, t.wstate.word)) = some (0x08, 0x0000000B, 0, 0) := by decide +kernel

/-- Vector V14. -/
theorem test_run :
    (after (.write 0 0x00000007) (atLoad [0x9C, 0x3E, 0x07, 0xF0, 0x0F, 0xFF])).map
      (fun t => (t.npkt, t.k, t.codewidth, t.outputBytes, t.statusWord)) =
      some (9, 9, 4, [0x01, 0x23, 0x45, 0x67, 0x80], 4) := by decide +kernel

/-- Program P5: the empty input. -/
theorem test_run_empty :
    after (.write 0 0x00000007) State.reset =
      some { State.reset with phase := .packed, rleBit := ⟨false, true, false⟩ } := by decide +kernel

/-- Program P2: `LOOKUP 6`, then a key that misses; `ERR.NF` stays 0. -/
theorem test_lookup :
    (after (.write 0 0x00000608) built7).map (fun t => (t.lkp.word, t.err.word)) = some (2, 0) := by decide +kernel

theorem test_lookup_miss :
    (after (.write 0 0x00000508) packed7).map (fun t => (t.lkp.word, t.err.word)) = some (0x80000000, 0) := by
  decide +kernel

/-! ### Bus access, window, errors: 95_test_vectors.md section 9 -/

/-- E1 to E8. -/
theorem test_reads_at_reset :
    seen (.read 0x04) State.reset = some ([0], 0, 0) ∧ seen (.read 0x38) State.reset = some ([6], 0, 0)
      ∧ seen (.read 0x00) State.reset = some ([0], 0, 0) ∧ seen (.read 0x2C) State.reset = some ([0], 0x10, 0)
      ∧ seen (.read 0x30) State.reset = some ([0], 0x10, 0) ∧ seen (.read 0x40) State.reset = some ([0], 0x20, 0)
      ∧ seen (.read 0xFC) State.reset = some ([0], 0x20, 0) ∧ seen (.read 0x05) State.reset = some ([0], 0x20, 0) := by
  decide +kernel

/-- E9 to E11. -/
theorem test_bad_writes :
    seen (.write 0x04 0xFFFFFFFF) State.reset = some ([], 0x20, 0)
      ∧ seen (.write 0x08 0x00000000) State.reset = some ([], 0x20, 0)
      ∧ seen (.write 0x01 0x00000003) State.reset = some ([], 0x20, 0) := by decide +kernel

/-- E12, E13. -/
theorem test_sel_idx :
    (after (.write 0x24 0xFFFFFFFE) State.reset).map State.sel = some 2
      ∧ (after (.write 0x28 0xFFFFFFFF) State.reset).map State.idx = some 0xFFFFFFFF := by decide +kernel

/-- E14 to E17. -/
theorem test_seq_and_ill :
    seen (.write 0 0x00000004) State.reset = some ([], 0x02, 0)
      ∧ seen (.write 0 0x00000608) State.reset = some ([], 0x02, 0)
      ∧ seen (.write 0 0x00000009) State.reset = some ([], 0x04, 0)
      ∧ seen (.write 0 0x00000103) encoded7 = some ([], 0x04, 1) := by decide +kernel

/-- E20, E22, E23. -/
theorem test_refused_commands :
    seen (.write 0 0x00000007) packed7 = some ([], 0x02, 4) ∧ seen (.write 0 0x00000007) overflowed2 = some ([], 0x03, 8)
      ∧ seen (.write 0 0x00002202) overflowed2 = some ([], 0x03, 8) := by decide +kernel

/-- E25 to E29. -/
theorem test_window :
    seen (.read 0x2C) { packed7 with sel := 3, idx := 3 } = some ([0], 0x10, 4)
      ∧ seen (.read 0x2C) { packed7 with sel := 3, idx := 2 } = some ([0], 0, 4)
      ∧ seen (.read 0x2C) { packed7 with sel := 1, idx := 1 } = some ([6], 0, 4)
      ∧ seen (.read 0x30) { packed7 with sel := 1, idx := 1 } = some ([0], 0, 4)
      ∧ seen (.read 0x2C) { packed7 with sel := 2, idx := 0 } = some ([2], 0, 4)
      ∧ seen (.read 0x30) { packed7 with sel := 2, idx := 0 } = some ([2], 0, 4)
      ∧ seen (.read 0x2C) { packed7 with sel := 0, idx := 1 } = some ([0x33], 0, 4)
      ∧ seen (.read 0x30) { packed7 with sel := 0, idx := 1 } = some ([0], 0, 4) := by decide +kernel

/-- 20_memory.md R41: only the low 8 bits of a bus address count. -/
theorem test_upper_address_bits : seen (.read 0x12345604) packed7 = some ([4], 0, 4) := by decide +kernel

/-- 70_reset_and_hazards.md R186, R188. -/
theorem test_reset_events :
    (after .reset packed7).map (fun t => (t.phase, t.nbytes, t.rleBit.word)) = some (.load, 0, 6)
      ∧ after (.writeCutByReset 0 0x00000007) load7 = after .reset load7 := by decide +kernel

/-- The trace of `PutBit` for V7 (95_test_vectors.md section 6), after bits 6, 8 and 15. -/
theorem test_put_bit_trace :
    [false, false, true, false, true, false].foldl putBit writerStart = ⟨0x28, 6, []⟩
      ∧ [false, false].foldl putBit ⟨0x28, 6, []⟩ = ⟨0, 0, [0x28]⟩
      ∧ [true, true].foldl putBit ⟨0, 5, [0x28]⟩ = ⟨0x06, 7, [0x28]⟩ := by decide

/-- The trace of `RleBit` for V4 (section 3): the first bit, and the first 0. -/
theorem test_rle_bit_trace :
    rleBit rleStart true = ⟨1, ⟨true, false, false⟩, []⟩
      ∧ rleBit ⟨4, ⟨true, false, false⟩, []⟩ false = ⟨1, ⟨false, false, false⟩, [⟨4, true⟩]⟩ := by decide

/-! ### Host files and script lines: 95_test_vectors.md section 10, 30_encoding.md R72 to R74 -/

def bytesOf (text : List Char) : List Byte := text.map (fun c => BitVec.ofNat 8 c.toNat)

def hostDefault : HostParams := ⟨false, 12, false⟩

/-- A file given as text. -/
def fileOf (text : List Char) : InputFile := .bytes (bytesOf text)

/-- H1. -/
theorem test_load_h1 :
    load hostDefault (fileOf "P2\n2 2\n255\n255 255\n255 255\n".toList) =
      .ok ⟨2, 2, [[255, 255], [255, 255]]⟩ := by decide +kernel

/-- H2. -/
theorem test_load_h2 :
    (load hostDefault (fileOf "P2\n# a comment\n# another\n3 2\n9\n1 2 3\n4 5 6\n".toList)).map serialize =
      .ok [1, 2, 3, 4, 5, 6] := by decide +kernel

/-- H3, H9. -/
theorem test_load_format :
    load hostDefault (fileOf "P3\n2 2\n255\n".toList) = .error (.failed .format)
      ∧ load hostDefault (fileOf "p5\n".toList) = .error (.failed .format)
      ∧ load hostDefault (fileOf "P5x\n".toList) = .error (.failed .format) := by decide +kernel

/-- H4, H5. -/
theorem test_load_range :
    load hostDefault (fileOf "P2\n2 2\n300\n".toList) = .error (.failed .range)
      ∧ load hostDefault (fileOf "P2\n2 2\n256\n0 0 0 0\n".toList) = .error (.failed .range) := by decide +kernel

/-- H6. -/
theorem test_load_truncated :
    load hostDefault (fileOf "P2\n2 2\n255\n1 2 3\n".toList) = .error (.failed .io) := by decide +kernel

/-- H7. -/
theorem test_load_h7 :
    (load hostDefault (.bytes (bytesOf "P5\n1 1\n255\n".toList ++ [0xAA]))).map serialize = .ok [0xAA] := by decide +kernel

/-- H8. -/
theorem test_load_h8 :
    load ⟨true, 12, false⟩ (fileOf "P2\n2 1\n10\n11 3\n".toList) = .error (.failed .range)
      ∧ (load ⟨false, 12, false⟩ (fileOf "P2\n2 1\n10\n11 3\n".toList)).map serialize = .ok [0x0B, 0x03] := by
  decide +kernel

/-- H1 through the driver: scenario S6, an empty output file. -/
theorem test_driver_s6 :
    (compress hostDefault (fileOf "P2\n2 2\n255\n255 255\n255 255\n".toList) .writable State.reset).1 = .wrote [] none := by
  decide +kernel

/-- V7 through the driver, with the side information a host would save (program P2). -/
theorem test_driver_side :
    (compressLinear ⟨false, 12, true⟩ .writable bytes7 State.reset).1 =
      .wrote [0x28, 0x07, 0x00] (some ⟨3, 5, 6, [2, 4, 6, 3, 7], some true⟩) := by decide +kernel

/-- R92: unreadable input, unwritable output; R95: an image that does not fit. -/
theorem test_driver_io :
    compress hostDefault .unreadable .writable packed7 = (.stopped 12, packed7)
      ∧ (compressLinear hostDefault .unwritable [0x01] State.reset).1 = .stopped 12
      ∧ compressLinear hostDefault .writable [1, 2, 3] full2 = (.stopped 12, full2) := by decide +kernel

/-- R80, R92: a P5 byte above `maxGray`, validated and not; a P5 file one byte short. -/
theorem test_load_p5 :
    load ⟨true, 12, false⟩ (.bytes (bytesOf "P5\n1 1\n10\n".toList ++ [0xFF])) = .error (.failed .range)
      ∧ (load hostDefault (.bytes (bytesOf "P5\n1 1\n10\n".toList ++ [0xFF]))).map serialize = .ok [0xFF]
      ∧ load hostDefault (.bytes (bytesOf "P5\n2 1\n10\n".toList ++ [0x05])) = .error (.failed .io) := by
  decide +kernel

/-- Log 16, the model's choice: a comment line before the format token. -/
theorem test_comment_before_format :
    load hostDefault (fileOf "# c\nP2\n1 1\n9\n7\n".toList) = .error (.failed .format) := by decide +kernel

theorem test_read_lines :
    readLine "PUSH 0xAA        ; WR CMD, 0x0000AA02".toList = some (.push 0xAA)
      ∧ readLine "RD STATUS    -> 0x00000004".toList = some (.rd 4 (some 4))
      ∧ readLine "WR CMD, 0b1".toList = some (.wr 0 1) ∧ readLine "WR CMD, 0b2".toList = none
      ∧ readLine "RD ERR -> word".toList = none
      ∧ readLine "WR 0x40, 0x00000000 ; reserved offset".toList = some (.wr 0x40 0)
      ∧ readLine "PEEK 3, 1".toList = some (.peek 3 1)
      ∧ readLine "PUSHN 0xF0, 51, 0x80".toList = some (.pushN [0xF0, 51, 0x80])
      ∧ readLine "STAGES".toList = some .stages ∧ readLine "BUILDS".toList = none := by decide +kernel

/-- Logs 19 and 20, the model's choices: a line that is only a comment is none, and a comment line after a blank one is
skipped. -/
theorem test_blank_lines :
    readLine "   ; only a comment".toList = none
      ∧ (load hostDefault (fileOf "P2\n\n# c\n\n# d\n1 1\n9\n7\n".toList)).map serialize = .ok [7] := by
  decide +kernel

/-- Log 21, the model's choices: a line without its comma, one with one more, and an offset above `0xFF`, which is a bus
address of `STATUS`. -/
theorem test_loose_lines :
    readLine "WR CMD 1".toList = some (.wr 0 1) ∧ readLine "PUSH 1,".toList = some (.push 1)
      ∧ readLine "RD 0x104".toList = some (.rd 0x104 none)
      ∧ (ScriptLine.rd 0x104 none).expand State.reset = some [.read 0x104]
      ∧ (BitVec.ofNat 8 0x104) = Reg.status.offset := by decide +kernel

/-- A listing's stated values (program P3, its first lines), and one that is not what is read. -/
theorem test_listing :
    listingHolds [.rank, .rd 0x08 (some 2), .wr 0 9, .rd 0x08 (some 6)] State.reset = true
      ∧ listingHolds [.rank, .rd 0x08 (some 3)] State.reset = false := by decide +kernel

/-- `PEEK 1, 1` after V7 (program P2). -/
theorem test_peek :
    (runScript [.peek 1 1] packed7).bind nextOf =
      some { packed7 with sel := 1, idx := 1, replies := [6, 0] } := by decide +kernel


/-! ### Witnesses: states and operands that meet the hypotheses of the obligations -/

theorem below_last {n : Nat} {P : Nat → Prop} (h : ∀ i, i < n - 1 → P i) : ∀ i, i + 1 < n → P i :=
  fun i hi => h i (by omega)

theorem packed7_inv : packed7.Inv := by
  constructor
  case alternates => exact below_last (by decide +kernel)
  case countsDescend => exact below_last (by decide +kernel)
  all_goals decide +kernel

theorem built7_inv : built7.Inv := by
  constructor
  case alternates => exact below_last (by decide +kernel)
  case countsDescend => exact below_last (by decide +kernel)
  all_goals decide +kernel

theorem ranked7_inv : ranked7.Inv := by
  constructor
  case alternates => exact below_last (by decide +kernel)
  case countsDescend => exact below_last (by decide +kernel)
  all_goals decide +kernel

theorem encoded7_inv : encoded7.Inv := by
  constructor
  case alternates => exact below_last (by decide +kernel)
  case countsDescend => exact below_last (by decide +kernel)
  all_goals decide +kernel

theorem load7_inv : load7.Inv := by
  constructor
  case alternates => exact below_last (by decide +kernel)
  case countsDescend => exact below_last (by decide +kernel)
  all_goals decide +kernel

theorem packed7_artifacts : packed7.Artifacts := by constructor <;> decide +kernel

theorem witness_EncodeOfDecodeIsTheWord : decode 0x0000AA02 = .ok (.push 0xAA) := by decide

theorem witness_IllegalWordRaisesIllOnly :
    illegalWord 0x00000009 ∧ illegalWord 0x00000100 ∧ illegalWord 0x00010002 ∧ (0x100 : Nat) % 256 = 0 := by
  unfold illegalWord
  decide

/-- The clauses of R69 at their edges: the last opcode, the operands all ones, one bit too many. -/
theorem witness_CommandWordsDecodeByTheirRow :
    (0x0000FF02 : Word) &&& 0xFFFF00FF = 0x00000002 ∧ (0xFFFFFF08 : Word) &&& 0x000000FF = 0x00000008
      ∧ ((0x00000009 : Word) ∉ [(0 : Word), 1, 3, 4, 5, 6, 7] ∧ (0x00000009 : Word) &&& 0xFFFF00FF ≠ 0x00000002
        ∧ (0x00000009 : Word) &&& 0x000000FF ≠ 0x00000008) := by decide

theorem witness_StepRunsTheDecodedCommand : (0 : Nat) % 256 = 0 ∧ decode 0x00000003 = .ok .enc := by decide

theorem witness_IdleStepKeepsTheState : packed7.bus = [] := by decide

theorem witness_ConfigurationNeverChanges : (nextOf (step full2)).isSome := by decide +kernel

/-- Each clause at its edge: `0x3C` is good, `0x40` is not, `0x3D` is not; `0x28` takes a write, `0x2C` does not. -/
theorem witness_AddressErrors :
    ((0x40 : Nat) % 256 % 4 ≠ 0 ∨ 0x40 ≤ (0x40 : Nat) % 256) ∧ ((0x3D : Nat) % 256 % 4 ≠ 0 ∨ 0x40 ≤ (0x3D : Nat) % 256)
      ∧ ¬ ((0x3C : Nat) % 256 % 4 ≠ 0 ∨ 0x40 ≤ (0x3C : Nat) % 256) ∧ (0x2C : Nat) % 256 ∈ readOnlyOffsets
      ∧ ¬ ((0x28 : Nat) % 256 % 4 ≠ 0 ∨ 0x40 ≤ (0x28 : Nat) % 256 ∨ (0x28 : Nat) % 256 ∈ readOnlyOffsets) := by decide

theorem witness_RegisterReadsReturnTheirFields : (0x13C : Nat) % 256 = 0x3C := by decide

/-- Every memory of the window, at the last entry in range. -/
theorem witness_WindowInRangeReadsTheEntry :
    [((0 : BitVec 2), (2 : Word)), (1, 5), (2, 4), (3, 2)].all
      (fun p => decide (p.2.toNat < State.selectedCount { packed7 with sel := p.1, idx := p.2 })) = true := by
  decide +kernel

/-- Every memory of the window, at the first entry out of range; and the states its last clause names. -/
theorem witness_WindowOutOfRangeRaisesIdx :
    [((0 : BitVec 2), (3 : Word)), (1, 6), (2, 5), (3, 3)].all
        (fun p => decide (State.selectedCount { packed7 with sel := p.1, idx := p.2 } ≤ p.2.toNat)) = true
      ∧ (State.reset.phase = .load ∧ State.reset.nbytes = 0) ∧ (load7.phase = .load ∧ (1 : BitVec 2) = 1)
      ∧ encoded7.phase.number < 2 ∧ built7.phase.number < 4 := by decide +kernel

theorem witness_WritesByOffset :
    (0x00 : Nat) % 256 = 0x00 ∧ (0x24 : Nat) % 256 = 0x24 ∧ (0x28 : Nat) % 256 = 0x28
      ∧ ((0xFC : Nat) % 256 % 4 = 0 ∧ (0xFC : Nat) % 256 ≠ 0 ∧ (0xFC : Nat) % 256 ≠ 0x24 ∧ (0xFC : Nat) % 256 ≠ 0x28) := by
  decide

theorem witness_AtMostOneFlagARises :
    (after (.write 0 0x00001102) full2).map (fun t => (t.err.get .ovf, full2.err.get .ovf, full2.err.get .seq)) =
      some (true, false, false) := by decide +kernel

theorem witness_FlagsAreSticky :
    (after (.write 0 0x00000000) overflowed2).isSome ∧ overflowed2.err.get .ovf = true := by decide +kernel

theorem witness_FlagsAreSticky_cleared : clearingEvent (.write 0x00 0x00000001) ∧ clearingEvent .reset :=
  ⟨⟨rfl, rfl⟩, trivial⟩

theorem witness_OverflowIsRaisedByPushOnly :
    full2.phase = .load ∧ full2.err.ovf = false ∧ full2.err.nf = false ∧ full2.nbytes = full2.cfg.nmax := by decide

theorem witness_OverflowIsRaisedByPushOnly_rises :
    (nextOf (exec (.push 0x11) full2)).map (fun t => t.err.ovf) = some true ∧ full2.err.ovf = false := by
  decide +kernel

/-- The fatal states: after an overflow, and a constructed one in `BUILT` with `ERR.NF` set. -/
theorem witness_FatalStateIsFailFast :
    overflowed2.err.ovf = true
      ∧ ((State.raise built7 .nf).err.nf = true ∧ (State.raise built7 .nf).phase = .built)
      ∧ ((0x3C : Nat) % 256 % 4 = 0 ∧ (0x3C : Nat) % 256 < 0x40)
      ∧ State.idx { overflowed2 with idx := 1 } = 1 ∧ 1 < State.selectedCount { overflowed2 with idx := 1 }
      ∧ (nextOf (step overflowed2)).isSome := by decide +kernel

theorem witness_FatalStateIsFailFast_flags :
    (⟨true, true, true, false, true, true⟩ : Err).ovf = overflowed2.err.ovf
      ∧ (⟨true, true, true, false, true, true⟩ : Err).nf = overflowed2.err.nf := by decide

theorem witness_ClrRestoresTheResetState :
    (nextOf (exec (.push 0x22) overflowed2)).isSome ∧ (Instr.push 0x22) ≠ .clr ∧ overflowed2.err.get .ovf = true := by
  decide +kernel

/-- A command refused for its phase, and one for the fatal state. -/
theorem witness_RefusedCommandRaisesSeqOnly :
    ¬ commandAllowed .rank load7 ∧ ¬ commandAllowed .enc overflowed2 ∧ ¬ commandAllowed (.lookup 1) ranked7 := by
  simp [commandAllowed, load7, atLoad, overflowed2, ranked7, atRanked, State.reset, State.resetWith]

/-- Every command is allowed in some state. -/
theorem witness_PhaseAfterACommand :
    commandAllowed .nop packed7 ∧ commandAllowed .clr packed7 ∧ commandAllowed (.push 0) load7 ∧ commandAllowed .enc load7
      ∧ commandAllowed .rank encoded7 ∧ commandAllowed .build ranked7 ∧ commandAllowed .pack built7
      ∧ commandAllowed .run load7 ∧ commandAllowed (.lookup 6) packed7 := by
  simp [commandAllowed, load7, encoded7, ranked7, built7, packed7, atLoad, atEncoded, atRanked, atBuilt, atPacked,
    State.reset, State.resetWith]

theorem witness_PhaseMovesOneForward : (after (.write 0 0x00000003) load7).map State.phase = some .encoded := by
  decide +kernel

theorem witness_PushAppendsItsByte :
    load7.phase = .load ∧ load7.err.ovf = false ∧ load7.err.nf = false ∧ load7.nbytes ≠ load7.cfg.nmax := by decide

/-- Also for the other statements about a command in phase `LOAD`: `RunIsTheFourStages`, `RunCompletesSuccessfully`,
`EncLengthsSumToTheBits`, `EncBitValuesAlternate`, `PseudoInstructionsExpand`. -/
theorem witness_EncLeavesTheMaximalRuns : load7.phase = .load ∧ load7.err.ovf = false ∧ load7.err.nf = false := by decide

/-- With the two clauses on the number of bytes, empty and one byte. -/
theorem witness_EncWorkingRegisters :
    (State.reset.phase = .load ∧ State.reset.err.ovf = false ∧ State.reset.err.nf = false ∧ State.reset.nbytes = 0)
      ∧ ((atLoad [0xF0]).phase = .load ∧ (atLoad [0xF0]).err.ovf = false ∧ (atLoad [0xF0]).err.nf = false
        ∧ 0 < (atLoad [0xF0]).nbytes) := by decide

/-- Every clause: empty, all 0, all 1, the two alternating inputs. -/
theorem witness_EncCornerCases :
    State.reset.nbytes = 0
      ∧ (0 < (atLoad [0x00]).nbytes ∧ ∀ i, i < (atLoad [0x00]).nbytes → (atLoad [0x00]).inAt i = 0x00)
      ∧ (0 < (atLoad [0xFF]).nbytes ∧ ∀ i, i < (atLoad [0xFF]).nbytes → (atLoad [0xFF]).inAt i = 0xFF)
      ∧ (∀ i, i < (atLoad [0xAA, 0xAA]).nbytes → (atLoad [0xAA, 0xAA]).inAt i = 0xAA)
      ∧ (∀ i, i < (atLoad [0x55]).nbytes → (atLoad [0x55]).inAt i = 0x55) := by decide +kernel

/-- Also for `RankAgreesWithTheReferenceAlgorithm`. -/
theorem witness_RankGroupsAndOrders :
    encoded7.phase = .encoded ∧ encoded7.err.ovf = false ∧ encoded7.err.nf = false := by decide

/-- The reference algorithm on V7 leaves the table of the vector. -/
theorem test_reference_rank :
    (referenceRank encoded7).table = table7 ∧ (referenceRank encoded7).k = 5 := by decide +kernel

/-- Every clause: a `K` at most 1, a `K` of at least 2, `K = 5`, and states where `BUILD` is refused. -/
theorem witness_BuildSetsTheCodeWidth :
    (ranked7.phase = .ranked ∧ ranked7.err.ovf = false ∧ ranked7.err.nf = false ∧ ranked7.k = 5)
      ∧ (atRanked [0xF0] [⟨4, true⟩, ⟨4, false⟩] [⟨4, 2⟩]).k ≤ 1
      ∧ (atRanked [0x01] [⟨7, false⟩, ⟨1, true⟩] [⟨7, 1⟩, ⟨1, 1⟩]).k = 2
      ∧ load7.phase ≠ .ranked ∧ overflowed2.err.ovf = true := by decide

/-- Every clause: the first entry, the last entry, a length that is not there, key 0 and key `2^23 + 1` under the
invariant (`packed7_inv`), and a phase that has no table. -/
theorem witness_LookupAnswersTheCode :
    packed7.phase = .packed
      ∧ (0 < packed7.k ∧ (packed7.tblAt 0).runLength = (2 : BitVec 24).toNat)
      ∧ (4 < packed7.k ∧ (packed7.tblAt 4).runLength = (7 : BitVec 24).toNat
        ∧ ∀ j, j < 4 → (packed7.tblAt j).runLength ≠ (7 : BitVec 24).toNat)
      ∧ (∀ t, t < packed7.k → (packed7.tblAt t).runLength ≠ (5 : BitVec 24).toNat)
      ∧ (0 : BitVec 24).toNat = 0 ∧ 2 ^ 23 < (8388609 : BitVec 24).toNat
      ∧ (load7.phase ≠ .built ∧ load7.phase ≠ .packed) := by decide +kernel

theorem witness_LookupOfAnEntryIsItsIndex : built7.Inv ∧ built7.phase = .built ∧ 4 < built7.k :=
  ⟨built7_inv, rfl, by decide⟩

theorem witness_PackWritesTheCodeBits :
    built7.phase = .built ∧ built7.err.ovf = false ∧ built7.err.nf = false
      ∧ ∀ p, p < built7.npkt → ∃ i, i < built7.k ∧ (built7.tblAt i).runLength = (built7.pktAt p).length := by
  decide +kernel

theorem witness_PackAbortsOnAMiss :
    (missing [⟨4, 1⟩] 0).phase = .built ∧ (missing [⟨4, 1⟩] 0).err.ovf = false ∧ (missing [⟨4, 1⟩] 0).err.nf = false
      ∧ ∃ p, p < (missing [⟨4, 1⟩] 0).npkt
        ∧ ∀ i, i < (missing [⟨4, 1⟩] 0).k →
          ((missing [⟨4, 1⟩] 0).tblAt i).runLength ≠ ((missing [⟨4, 1⟩] 0).pktAt p).length := by
  refine ⟨rfl, rfl, rfl, 1, by decide, by decide +kernel⟩

theorem witness_PackNeverMissesUnderTheInvariant : built7.Inv ∧ built7.phase = .built ∧ built7.err.ovf = false :=
  ⟨built7_inv, rfl, rfl⟩

/-- Vectors V7 and V13: the same lengths, the bit values inverted. -/
def packets13 : List RunPacket := [⟨4, false⟩, ⟨6, true⟩, ⟨2, false⟩, ⟨2, true⟩, ⟨3, false⟩, ⟨7, true⟩]

theorem witness_PackIgnoresBitValues :
    (atBuilt [] packets13 table7 3).phase = .built ∧ (atBuilt [] packets13 table7 3).err.ovf = false
      ∧ (atBuilt [] packets13 table7 3).err.nf = false
      ∧ built7.packetLengths = (atBuilt [] packets13 table7 3).packetLengths
      ∧ built7.tableRuns = (atBuilt [] packets13 table7 3).tableRuns
      ∧ built7.codewidth = (atBuilt [] packets13 table7 3).codewidth := by decide +kernel

/-- Vectors V7 and V13. -/
theorem witness_InvertedInputGivesTheSameOutput :
    (atLoad [0x0F, 0xCC, 0x7F]).phase = .load ∧ (atLoad [0x0F, 0xCC, 0x7F]).err.ovf = false
      ∧ (atLoad [0x0F, 0xCC, 0x7F]).err.nf = false ∧ (atLoad [0x0F, 0xCC, 0x7F]).nbytes = load7.nbytes
      ∧ ∀ i, i < load7.nbytes → (atLoad [0x0F, 0xCC, 0x7F]).inAt i = ~~~ load7.inAt i := by decide +kernel

/-- Two states that differ (`IDX`) and hold the same input. -/
theorem witness_OutputAndSideInformationDetermineTheInput :
    (nextOf (exec .run load7)).isSome ∧ (nextOf (exec .run { load7 with idx := 9 })).isSome
      ∧ (nextOf (exec .run load7)).map (fun t => (t.outputBytes, t.codewidth, t.tableRuns, t.npkt, (t.pktAt 0).bitValue)) =
        (nextOf (exec .run { load7 with idx := 9 })).map
          (fun t => (t.outputBytes, t.codewidth, t.tableRuns, t.npkt, (t.pktAt 0).bitValue)) := by decide +kernel

theorem witness_StepKeepsTheInvariant : built7.Inv ∧ (after (.write 0 0x00000006) built7).isSome :=
  ⟨built7_inv, by decide +kernel⟩

theorem witness_StepKeepsTheArtifacts : packed7.Artifacts ∧ (after (.write 0 0x00000708) packed7).isSome :=
  ⟨packed7_artifacts, by decide +kernel⟩

theorem witness_ResetMeetsTheInvariants : Config.standard.wf := by decide

/-- For every clause an instruction that it speaks of, with its next state. -/
theorem witness_EachMemoryHasOneWritingCommand :
    (nextOf (exec (.push 0x11) load7)).isSome ∧ (nextOf (exec .enc load7)).isSome
      ∧ Instr.enc ∉ [.rank, .run, .clr] ∧ (Instr.push 0x11) ∉ [.enc, .run, .clr] := by decide +kernel

/-- A complete `PACK` and an aborted one. -/
theorem witness_StagesWriteNoOtherEntry :
    Instr.pack ∈ [.enc, .rank, .build, .pack, .run]
      ∧ (nextOf (exec .pack built7)).map State.phase = some .packed
      ∧ (nextOf (exec .pack (missing [⟨4, 1⟩, ⟨9, 1⟩] 2))).map State.phase = some .built := by decide +kernel

theorem witness_CapacitiesSuffice : packed7.Inv := packed7_inv

theorem witness_OtherFormatTokensFail :
    frontToken [0x50, 0x32, 0x0A] = [0x50, 0x32] ∧ frontToken [0x50, 0x35, 0x0A] = [0x50, 0x35]
      ∧ frontToken [0x50, 0x33, 0x0A] ≠ [0x50, 0x32] ∧ frontToken [0x50, 0x33, 0x0A] ≠ [0x50, 0x35] := by decide

/-- A header with a comment line and `maxGray = 256`, as the loader reads it. -/
theorem witness_LargeMaxGrayFails_header :
    readFormat (bytesOf "P2\n# c\n2 1\n256\n".toList) = .ok .p2
      ∧ skipComments .midLine ((bytesOf "P2\n# c\n2 1\n256\n".toList).drop 2) = .ok (bytesOf "2 1\n256\n".toList)
      ∧ readNumber (bytesOf "2 1\n256\n".toList) = .ok (2, bytesOf " 1\n256\n".toList)
      ∧ readNumber (bytesOf " 1\n256\n".toList) = .ok (1, bytesOf "\n256\n".toList)
      ∧ readNumber (bytesOf "\n256\n".toList) = .ok (256, bytesOf "\n".toList) := by decide +kernel

/-- The least rejected value, 256. -/
theorem witness_LargeMaxGrayFails :
    ([0x32] : List Byte) ≠ [] ∧ ([0x32] : List Byte).all isDigit = true
      ∧ ([0x32, 0x35, 0x36] : List Byte).all isDigit = true ∧ 255 < decimalValue [0x32, 0x35, 0x36]
      ∧ decimalValue [0x32, 0x35, 0x36] = 256 := by decide

theorem witness_SerializeIsRowMajor :
    PixelGrid.wf ⟨3, 2, [[1, 2, 3], [4, 5, 6]]⟩ ∧ 1 < (⟨3, 2, [[1, 2, 3], [4, 5, 6]]⟩ : PixelGrid).height := by decide

/-- Both formats, with a pixel at the bound, validated, and one at 0. -/
theorem witness_LoadedGridIsFull :
    load ⟨true, 12, false⟩ (fileOf "P2\n2 1\n9\n9 0\n".toList) = .ok ⟨2, 1, [[9, 0]]⟩
      ∧ load ⟨true, 12, false⟩ (.bytes (bytesOf "P5\n1 2\n9\n".toList ++ [0x09, 0x00])) = .ok ⟨1, 2, [[9], [0]]⟩ := by
  decide +kernel

/-- Every clause: a failing file, a P5 file one byte short whose byte is at the bound, a last P5 pixel just above
`maxGray`. -/
theorem witness_LoadFailuresStopTheHost :
    load hostDefault (fileOf "P3\n".toList) = .error (.failed .format)
      ∧ readHeader (bytesOf "P5\n2 1\n9\n".toList ++ [0x09]) = .ok (⟨.p5, 2, 1, 9⟩, [0x0A, 0x09])
      ∧ ([0x0A, 0x09] : List Byte).length < 1 + 2 * 1
      ∧ (([0x0A, 0x09] : List Byte).drop 1).all (fun pixel => decide (pixel.toNat ≤ 9)) = true
      ∧ readHeader (bytesOf "P5\n2 1\n9\n".toList ++ [0x09, 0x0A]) = .ok (⟨.p5, 2, 1, 9⟩, [0x0A, 0x09, 0x0A])
      ∧ 1 < 2 * 1 ∧ (([0x0A, 0x09, 0x0A] : List Byte).drop 1)[1]? = some 0x0A
      ∧ 9 < (0x0A : Byte).toNat := by decide +kernel

/-- The clauses about P2: after one accepted value of two, at the bound, the file ends, or a value just above `maxGray`
comes. -/
theorem witness_LoadFailuresStopTheHost_p2 :
    readHeader (bytesOf "P2\n2 1\n9\n9\n".toList) = .ok (⟨.p2, 2, 1, 9⟩, bytesOf "\n9\n".toList)
      ∧ readValues 1 (bytesOf "\n9\n".toList) = .ok ([9], bytesOf "\n".toList)
      ∧ (bytesOf "\n".toList).all isSpace = true
      ∧ readHeader (bytesOf "P2\n2 1\n9\n9 10\n".toList) = .ok (⟨.p2, 2, 1, 9⟩, bytesOf "\n9 10\n".toList)
      ∧ readValues 1 (bytesOf "\n9 10\n".toList) = .ok ([9], bytesOf " 10\n".toList)
      ∧ readNumber (bytesOf " 10\n".toList) = .ok (10, bytesOf "\n".toList)
      ∧ pixelAccepted ⟨true, 12, false⟩ 9 9 ∧ [9].length < 2 * 1 ∧ 9 < 10 := by decide +kernel

theorem witness_DriverWritesThePipelineOutput_loaded :
    load hostDefault (fileOf "P2\n1 1\n9\n7\n".toList) = .ok ⟨1, 1, [[7]]⟩ := by decide +kernel

/-- At the edge of `NMAX = 2`: two pixels fit, three do not. -/
theorem witness_DriverWritesThePipelineOutput :
    full2.cfg.wf ∧ ([0xFF, 0x00] : List Byte).length ≤ full2.cfg.nmax
      ∧ full2.cfg.nmax < ([0xFF, 0x00, 0x11] : List Byte).length := by decide

/-- Operands at the edges of their ranges, and counts that are 32-bit numbers. -/
theorem witness_PseudoInstructionsExpand :
    (∀ b ∈ [0, 255], b ≤ 255) ∧ 3 < 2 ^ 32 ∧ 2 ^ 32 - 1 < 2 ^ 32 ∧ packed7.nout < 2 ^ 32 ∧ packed7.k < 2 ^ 32
      ∧ load7.phase = .load ∧ load7.err.ovf = false ∧ load7.err.nf = false := by decide

end Sys2Proof.Tests
end

section
/-! The reset state (10_state.md R34): what a reset and `CLR` do, and what every register reads after them. -/

namespace Sys2Proof.Machine

/-! ### Reset and `CLR` -/

/-- A reset event clears the block (70_reset_and_hazards.md R186). -/
theorem step_reset (s : State) (rest : List BusEvent) :
    step { s with bus := .reset :: rest } = .next (State.cleared { s with bus := rest }) := rfl

/-- `CLR` clears the block in every state (41_control_commands.md R100). -/
theorem exec_clr (s : State) : exec .clr s = .next s.cleared := by
  rw [exec_eq, whenLegal_of_legal rfl]
  rfl

/-! ### Reads of the reset state -/

/-- A read at a register's offset reads that register. -/
theorem busRead_offset (r : Reg) (s : State) : busRead r.offset.toNat s = readReg r s := by
  have hoff : offsetOf r.offset.toNat = r.offset := by simp [offsetOf]
  rw [busRead, hoff, regAt?_offset]

/-- A window register read out of range returns 0 and raises `ERR.IDX` (20_memory.md R52). -/
theorem windowRead_of_count_le {s : State} (h : s.selectedCount ≤ s.idx.toNat) (pick : Word × Word → Word) :
    windowRead pick s = (s.raise .idx).reply 0 := by
  have hnone : s.window = none := by
    rw [← Option.not_isSome_iff_eq_none, window_isSome]
    simpa using h
  rw [windowRead, hnone]

/-- The value column of the reset table, for the registers that hold one. -/
def Reg.resetWord : Reg → Word
  | .rleBit => 0x00000006
  | _ => 0

/-- The registers outside the read window, by offset. -/
def plainRegs : List Reg :=
  [.cmd, .status, .err, .nbytes, .npkt, .k, .codewidth, .nout, .lkp, .sel, .idx, .rleLen, .rleBit, .wstate]

theorem readReg_reset {r : Reg} (hr : r ∈ plainRegs) (c : Config) (d : Nat) :
    readReg r { State.resetWith c with draws := d } =
      { State.resetWith c with draws := d, replies := [r.resetWord] } := by
  cases r
  case rd0 => exact absurd hr (by decide)
  case rd1 => exact absurd hr (by decide)
  case status => exact congrArg (State.reply _) (statusWord_eq _)
  case err => exact congrArg (State.reply _) (errWord_eq _)
  case lkp => exact congrArg (State.reply _) (lkpWord_eq _)
  case rleBit => exact congrArg (State.reply _) (rleBitWord_eq _)
  case wstate => exact congrArg (State.reply _) (wstateWord_eq _)
  all_goals rfl

/-- After a reset all counts are 0, so both window registers are out of range. -/
theorem windowRead_reset (pick : Word × Word → Word) (c : Config) (d : Nat) :
    windowRead pick { State.resetWith c with draws := d } =
      { State.resetWith c with draws := d, err := ⟨false, false, false, false, true, false⟩, replies := [0] } :=
  windowRead_of_count_le (s := { State.resetWith c with draws := d }) (Nat.le_refl 0) pick

/-- The first step after a reset that delivers a read at a register's offset. -/
theorem step_read_reset (r : Reg) (c : Config) (d : Nat) :
    step { State.resetWith c with draws := d, bus := [.read r.offset.toNat] } =
      .next (readReg r { State.resetWith c with draws := d }) :=
  congrArg Host.Outcome.next (busRead_offset r _)

/-- Settles O20: both events leave `State.cleared`; of the registers, the two of the window read out of range and every
other one its reset value. -/
theorem resetStateHasTheResetValues : Obligations.ResetStateHasTheResetValues := by
  refine ⟨fun s rest => ⟨s.draws + 1, step_reset s rest, exec_clr _⟩, fun c d => ⟨?_, ?_, rfl, rfl, rfl, rfl, rfl, rfl⟩⟩
  · have hplain : ∀ p ∈ plainRegs.map (fun r => (r.offset.toNat, r.resetWord)),
        step { State.resetWith c with draws := d, bus := [.read p.1] } =
          .next { State.resetWith c with draws := d, replies := [p.2] } := by
      rw [List.forall_mem_map]
      intro r hr
      rw [step_read_reset, readReg_reset hr]
    exact hplain
  · rintro addr (rfl | rfl)
    · exact (step_read_reset .rd0 c d).trans (congrArg _ (windowRead_reset Prod.fst c d))
    · exact (step_read_reset .rd1 c d).trans (congrArg _ (windowRead_reset Prod.snd c d))

end Sys2Proof.Machine
end

section
/-! The bus by offset (20_memory.md R41 to R45): the register an address names, what a read leaves of the flags, and
which of the three writes an offset takes. -/

namespace Sys2Proof.Machine

/-! ### The register an address names -/

/-- A register is named by its own offset alone (10_state.md R9). -/
theorem offset_of_regAt? {off : BitVec 8} {r : Reg} (h : regAt? off = some r) : off = r.offset := by
  have hall : ∀ off : BitVec 8, ∀ r ∈ regAt? off, off = r.offset := by decide +kernel
  exact hall off r h

theorem regAt?_offsetOf_iff (addr : Nat) (r : Reg) :
    regAt? (offsetOf addr) = some r ↔ addr % 256 = r.offset.toNat := by
  constructor
  · intro h
    rw [← offset_of_regAt? h]
    simp [offsetOf]
  · intro h
    rw [offsetOf_eq h, BitVec.ofNat_toNat, BitVec.setWidth_eq, regAt?_offset]

/-- No register stands at a misaligned offset or at a reserved one (R42, 10_state.md R25). -/
theorem regAt?_offsetOf_eq_none_iff (addr : Nat) :
    regAt? (offsetOf addr) = none ↔ addr % 256 % 4 ≠ 0 ∨ 0x40 ≤ addr % 256 := by
  have hall : ∀ n < 256, regAt? (BitVec.ofNat 8 n) = none ↔ n % 4 ≠ 0 ∨ 0x40 ≤ n := by decide +kernel
  rw [offsetOf_eq rfl]
  exact hall _ (Nat.mod_lt _ (by decide))

/-! ### Reads -/

theorem busRead_of_offset {addr : Nat} {r : Reg} (h : addr % 256 = r.offset.toNat) (s : State) :
    busRead addr s = readReg r s := by
  rw [busRead, (regAt?_offsetOf_iff addr r).2 h]

theorem busRead_of_no_register {addr : Nat} (h : addr % 256 % 4 ≠ 0 ∨ 0x40 ≤ addr % 256) (s : State) :
    busRead addr s = (s.raise .addr).reply 0 := by
  rw [busRead, (regAt?_offsetOf_eq_none_iff addr).2 h]

/-- A window register read in range returns a word and raises nothing (R48 to R51). -/
theorem windowRead_of_lt_count {s : State} (h : s.idx.toNat < s.selectedCount) (pick : Word × Word → Word) :
    ∃ w, windowRead pick s = s.reply w := by
  have hsome : s.window.isSome := by simpa [window_isSome] using h
  obtain ⟨d, hd⟩ := Option.isSome_iff_exists.1 hsome
  exact ⟨pick d, by rw [windowRead, hd]⟩

theorem windowRead_addr (pick : Word × Word → Word) (s : State) : (windowRead pick s).err.addr = s.err.addr := by
  rcases Nat.lt_or_ge s.idx.toNat s.selectedCount with h | h
  · obtain ⟨w, hw⟩ := windowRead_of_lt_count h pick
    rw [hw, reply_err]
  · rw [windowRead_of_count_le h]
    rfl

/-- A read of a register leaves `ERR.ADDR` as it was (R45). -/
theorem readReg_addr (r : Reg) (s : State) : (readReg r s).err.addr = s.err.addr := by
  cases r
  case rd0 => exact windowRead_addr Prod.fst s
  case rd1 => exact windowRead_addr Prod.snd s
  all_goals rfl

theorem busRead_addr {addr : Nat} (h : ¬ (addr % 256 % 4 ≠ 0 ∨ 0x40 ≤ addr % 256)) (s : State) :
    (busRead addr s).err.addr = s.err.addr := by
  rw [← regAt?_offsetOf_eq_none_iff] at h
  obtain ⟨r, hr⟩ := Option.ne_none_iff_exists'.1 h
  rw [busRead, hr]
  exact readReg_addr r s

/-- The two window registers are read alike, by their place in the pair of window words. -/
theorem busRead_window {addr : Nat} (h : addr % 256 = 0x2C ∨ addr % 256 = 0x30) :
    ∃ pick, ∀ s, busRead addr s = windowRead pick s := by
  rcases h with h | h
  · exact ⟨Prod.fst, busRead_of_offset (r := .rd0) h⟩
  · exact ⟨Prod.snd, busRead_of_offset (r := .rd1) h⟩

/-! ### Writes -/

theorem busWrite_cmd {addr : Nat} (h : addr % 256 = 0x00) (v : Word) (s : State) :
    busWrite addr v s = commandWrite v s := by
  rw [busWrite, regAt?_cmd h]

theorem busWrite_sel {addr : Nat} (h : addr % 256 = 0x24) (v : Word) (s : State) :
    busWrite addr v s = .next { s with sel := v.extractLsb' 0 2 } := by
  rw [busWrite, (regAt?_offsetOf_iff addr .sel).2 h]

theorem busWrite_idx {addr : Nat} (h : addr % 256 = 0x28) (v : Word) (s : State) :
    busWrite addr v s = .next { s with idx := v } := by
  rw [busWrite, (regAt?_offsetOf_iff addr .idx).2 h]

/-- Every other offset refuses the write, whether or not a register stands there (R44). -/
theorem busWrite_refused {addr : Nat} (hcmd : addr % 256 ≠ 0x00) (hsel : addr % 256 ≠ 0x24) (hidx : addr % 256 ≠ 0x28)
    (v : Word) (s : State) : busWrite addr v s = .next (s.raise .addr) := by
  unfold busWrite
  split
  · exact absurd ((regAt?_offsetOf_iff addr .cmd).1 ‹_›) hcmd
  · exact absurd ((regAt?_offsetOf_iff addr .sel).1 ‹_›) hsel
  · exact absurd ((regAt?_offsetOf_iff addr .idx).1 ‹_›) hidx
  · rfl

/-- The offsets R45 lists for writes are all but those of `CMD`, `SEL` and `IDX`. -/
theorem write_refused_iff {off : Nat} :
    (off % 4 ≠ 0 ∨ 0x40 ≤ off ∨ off ∈ readOnlyOffsets) ↔ off ≠ 0x00 ∧ off ≠ 0x24 ∧ off ≠ 0x28 := by
  simp only [readOnlyOffsets, List.mem_cons, List.not_mem_nil, or_false]
  omega

/-- No command raises `ERR.ADDR`. -/
theorem exec_addr {i : Instr} {s t : State} (h : exec i s = .next t) (ht : t.err.addr = true) : s.err.addr = true := by
  rcases exec_err h with he | ⟨rfl, -⟩ | ⟨-, -, rfl, -⟩ | ⟨-, he, -⟩ | ⟨-, rfl⟩
  · rwa [he] at ht
  · exact ht
  · exact ht
  · rwa [he] at ht
  · exact absurd ht (by simp)

theorem commandWrite_addr (w : Word) (s : State) :
    ∃ t, commandWrite w s = .next t ∧ (t.err.addr = true → s.err.addr = true) := by
  rcases commandWrite_cases w s with ⟨i, -, hw⟩ | ⟨e, -, hw⟩
  · obtain ⟨t, ht⟩ := exec_next i s
    exact ⟨t, hw.trans ht, exec_addr ht⟩
  · exact ⟨s.raise .ill, hw, id⟩

/-- A write to `CMD`, `SEL` or `IDX` does not raise `ERR.ADDR` (R45). -/
theorem busWrite_addr {addr : Nat} (h : addr % 256 = 0x00 ∨ addr % 256 = 0x24 ∨ addr % 256 = 0x28) (v : Word)
    (s : State) : ∃ t, busWrite addr v s = .next t ∧ (t.err.addr = true → s.err.addr = true) := by
  rcases h with h | h | h
  · rw [busWrite_cmd h]
    exact commandWrite_addr v s
  · exact ⟨_, busWrite_sel h v s, id⟩
  · exact ⟨_, busWrite_idx h v s, id⟩

/-! ### The statements -/

/-- Settles O10: a bad read and a refused write are `State.raise .addr`; any other access does not raise the flag. -/
theorem addressErrors : Obligations.AddressErrors := by
  intro s addr rest
  refine ⟨fun h => ?_, fun h => ⟨_, step_read s addr rest, busRead_addr h _⟩, fun v h => ?_, fun v h => ?_, rfl⟩
  · rw [step_read, busRead_of_no_register h]
    rfl
  · obtain ⟨hcmd, hsel, hidx⟩ := write_refused_iff.1 h
    rw [step_write, busWrite_refused hcmd hsel hidx]
    rfl
  · rw [write_refused_iff] at h
    rw [step_write]
    exact busWrite_addr (by omega) v _

/-- Under the invariant a memory whose stage has not run, and in `LOAD` an empty `IN`, has no valid entry. -/
theorem selectedCount_eq_zero {s : State} (hs : s.Inv)
    (h : (s.phase = .load ∧ s.nbytes = 0) ∨ (s.phase = .load ∧ s.sel = 1) ∨ (s.phase.number < 2 ∧ s.sel = 2)
      ∨ (s.phase.number < 4 ∧ s.sel = 3)) : s.selectedCount = 0 := by
  rcases h with ⟨hp, hn⟩ | ⟨hp, hsel⟩ | ⟨hp, hsel⟩ | ⟨hp, hsel⟩
  · have hnum : s.phase.number = 0 := by rw [hp]; rfl
    simp [State.selectedCount, hn, hs.noPackets hp, hs.noTable (by omega), hs.noOutput (by omega)]
  · simp [State.selectedCount, hsel, hs.noPackets hp]
  · simp [State.selectedCount, hsel, hs.noTable hp]
  · simp [State.selectedCount, hsel, hs.noOutput hp]

/-- Settles O14: both window registers are `windowRead`, out of range and in range. -/
theorem windowOutOfRangeRaisesIdx : Obligations.WindowOutOfRangeRaisesIdx := by
  intro s rest addr haddr
  obtain ⟨pick, hread⟩ := busRead_window haddr
  refine ⟨fun h => ?_, fun h => ?_, selectedCount_eq_zero⟩
  · rw [step_read, hread, windowRead_of_count_le (s := { s with bus := rest }) h]
    rfl
  · obtain ⟨w, hw⟩ := windowRead_of_lt_count (s := { s with bus := rest }) h pick
    exact ⟨w, by rw [step_read, hread, hw]; rfl⟩

/-- Settles O15: a write is one of the four equations of `busWrite`. -/
theorem writesByOffset : Obligations.WritesByOffset := by
  intro s addr v rest
  refine ⟨fun h => ?_, fun h => busWrite_sel h v _, fun h => busWrite_idx h v _,
    fun _ hcmd hsel hidx => busWrite_refused hcmd hsel hidx v _⟩
  rw [step_write, busWrite_cmd h]
  rcases commandWrite_cases v { s with bus := rest } with ⟨i, hd, hw⟩ | ⟨e, hd, hw⟩
  · rw [hw, hd]
  · rw [hw, hd]
    rfl

end Sys2Proof.Machine
end

section
/-! The output stream (20_memory.md R61): bit `u` of `OUT` as a place in the bytes, and the code bits a complete `PACK`
leaves there. -/

namespace Sys2Proof.Machine

/-- Blocks of one length `n` laid end to end: place `p * n + j` is place `j` of block `p`. -/
theorem getElem?_flatMap_block {α β : Type} {f : α → List β} {n : Nat} (hf : ∀ a, (f a).length = n) {l : List α}
    {p j : Nat} (hp : p < l.length) (hj : j < n) : (l.flatMap f)[p * n + j]? = (f l[p])[j]? := by
  induction l generalizing p with
  | nil => exact absurd hp (Nat.not_lt_zero p)
  | cons a l ih =>
    rw [List.flatMap_cons]
    cases p with
    | zero => rw [List.getElem?_append_left (by rw [hf]; omega)]; simp
    | succ p =>
      have hplace : (p + 1) * n + j = (f a).length + (p * n + j) := by rw [hf]; ring
      rw [hplace, List.getElem?_append_right (Nat.le_add_right _ _), Nat.add_sub_cancel_left,
        ih (Nat.lt_of_succ_lt_succ hp)]
      rfl

theorem byteBits_getElem? (b : Byte) {j : Nat} (h : j < 8) : (byteBits b)[j]? = some (b.getLsbD (7 - j)) := by
  interval_cases j <;> rfl

/-- R61: the valid output bytes, most significant bit first, are the output bits in order. -/
theorem outputBytes_bit (s : State) {u : Nat} (h : u < 8 * s.nout) :
    (s.outputBytes.flatMap byteBits)[u]? = some (s.outputBit u) := by
  have hbyte : u / 8 < s.outputBytes.length := by simp [State.outputBytes]; omega
  have hplace : u = u / 8 * 8 + u % 8 := by omega
  have hbit : u % 8 < 8 := Nat.mod_lt _ (by decide)
  calc (s.outputBytes.flatMap byteBits)[u]?
      = (s.outputBytes.flatMap byteBits)[u / 8 * 8 + u % 8]? := by rw [← hplace]
    _ = (byteBits s.outputBytes[u / 8])[u % 8]? := getElem?_flatMap_block byteBits_length hbyte hbit
    _ = some (s.outputBit u) := by
      rw [byteBits_getElem? _ hbit]
      simp [State.outputBytes, State.outputBit]

/-- Bit `j` of the code of packet `p` stands at place `p * width + j` (45_bit_packed_writer.md R147). -/
theorem packBits_getElem? (runs : List Nat) {width : Nat} {lens : List Nat} {p j : Nat} (hp : p < lens.length)
    (hj : j < width) :
    (packBits runs width lens)[p * width + j]? = some ((runs.idxOf lens[p]).testBit (width - 1 - j)) := by
  rw [packBits, getElem?_flatMap_block (fun _ => codeBits_length _ _) hp hj, codeBits_get _ hj]

/-- The bits a complete `PACK` of state `s` puts. -/
def State.codeStream (s : State) : List Bool := packBits s.tableRuns s.codewidth s.packetLengths

theorem codeStream_length (s : State) : s.codeStream.length = s.npkt * s.codewidth := by
  rw [State.codeStream, packBits_length, packetLengths_length]

theorem codeStream_getElem? (s : State) {p j : Nat} (hp : p < s.npkt) (hj : j < s.codewidth) :
    s.codeStream[p * s.codewidth + j]? =
      some ((s.tableRuns.idxOf (s.pktAt p).length).testBit (s.codewidth - 1 - j)) := by
  obtain ⟨hlt, hget⟩ := List.getElem?_eq_some_iff.1 (packetLengths_getElem s hp)
  rw [State.codeStream, packBits_getElem? _ hlt hj, hget]

/-- The output bits of a complete `PACK` are the code stream and then zeros. -/
theorem packWritten_bit {s : State} {w : Writer} (hw : WriterAfter s.codeStream w) {u : Nat}
    (hu : u < 8 * (packWritten s w).nout) : (packWritten s w).outputBit u = (s.codeStream[u]?).getD false := by
  obtain ⟨n, hstream⟩ := flush_stream hw
  have hbit := outputBytes_bit (packWritten s w) hu
  rw [outputBytes_packWritten, hstream] at hbit
  rcases Nat.lt_or_ge u s.codeStream.length with h | h
  · rw [List.getElem?_append_left h] at hbit
    rw [hbit, Option.getD_some]
  · rw [List.getElem?_append_right h] at hbit
    rw [List.getElem?_eq_none h, Option.getD_none]
    exact List.eq_of_mem_replicate (List.mem_of_getElem? hbit)

theorem packWritten_nout {s : State} {w : Writer} (hw : WriterAfter s.codeStream w) :
    (packWritten s w).nout = (s.npkt * s.codewidth + 7) / 8 :=
  (flush_length hw).trans (by rw [codeStream_length])

/-- `PACK` completes when it is legal and every length is in the table (45_bit_packed_writer.md R149). -/
theorem exec_pack_written {s : State} (hphase : s.phase = .built) (hovf : s.err.ovf = false) (hnf : s.err.nf = false)
    (hall : ∀ len ∈ s.packetLengths, len ∈ s.tableRuns) :
    ∃ w, WriterAfter s.codeStream w ∧ exec .pack s = .next (packWritten s w) := by
  have hlegal : legal .pack s = true := by simp [legal, State.fatal, hphase, hovf, hnf]
  refine ⟨_, packWriter_after _ _ _, ?_⟩
  rw [exec_eq, whenLegal_of_legal hlegal]
  rcases packStage_cases s with ⟨-, h⟩ | ⟨⟨len, hmem, hmiss⟩, -⟩
  · exact congrArg _ h
  · exact absurd (hall len hmem) hmiss

/-- Settles O41: the flushed bytes are the code stream and then zeros, read back bit by bit. -/
theorem packWritesTheCodeBits : Obligations.PackWritesTheCodeBits := by
  intro s hphase hovf hnf hfound
  have hall : ∀ len ∈ s.packetLengths, len ∈ s.tableRuns := by
    intro len hlen
    obtain ⟨p, hp, rfl⟩ := (mem_packetLengths s len).1 hlen
    exact (mem_tableRuns s _).2 (hfound p hp)
  obtain ⟨w, hw, hexec⟩ := exec_pack_written hphase hovf hnf hall
  have hnout := packWritten_nout hw
  refine ⟨packWritten s w, hexec, rfl, hnout, fun p j hp hj => ?_, fun u hu hlt => ?_, rfl, rfl⟩
  · have hcode := codeStream_getElem? s hp hj
    obtain ⟨hlt, -⟩ := List.getElem?_eq_some_iff.1 hcode
    rw [codeStream_length] at hlt
    rw [packWritten_bit hw (by omega), hcode, Option.getD_some]
  · rw [packWritten_bit hw hlt, List.getElem?_eq_none (by rwa [codeStream_length]), Option.getD_none]

end Sys2Proof.Machine
end

section
/-! The words of the opcode map (30_encoding.md R63 to R70): a command is decoded from its own word and no other, the
word of a command lies in the row its fields select, and every remaining word is illegal. -/

namespace Sys2Proof

/-! ### Decoding and encoding -/

theorem opField_encode (i : Instr) : opField (encode i) = i.op := opField_append _ _

theorem imm24Field_encode (i : Instr) : imm24Field (encode i) = i.upper := imm24Field_append _ _

theorem highField_encode_push (b : Byte) : highField (encode (.push b)) = 0 := highField_append b _

theorem imm8Field_encode_push (b : Byte) : imm8Field (encode (.push b)) = b := imm8Field_append b _

theorem eq_encode_of_fields {w : Word} {i : Instr} (hupper : imm24Field w = i.upper) (hop : opField w = i.op) :
    w = encode i :=
  calc w = imm24Field w ++ opField w := word_split w
    _ = encode i := by rw [hupper, hop, encode]

/-- The upper bits of a word of format B (R63). -/
theorem imm24Field_eq_push_upper {w : Word} (hhigh : highField w = 0) :
    imm24Field w = (Instr.push (imm8Field w)).upper := by
  rw [imm24_split, hhigh, Instr.upper]

/-- No bit of an encoding is dropped. -/
theorem decode_encode (i : Instr) : decode (encode i) = .ok i := by
  cases i
  case push b =>
    rw [decode, opField_encode]
    change formatB .push (encode (.push b)) = _
    rw [formatB, if_pos (highField_encode_push b), imm8Field_encode_push]
  case lookup n =>
    rw [decode, opField_encode]
    change formatL .lookup (encode (.lookup n)) = _
    rw [formatL, imm24Field_encode]
    rfl
  all_goals decide

/-- Decoding answers the command whose word this is, or the word is one that R70 calls illegal. -/
theorem decode_ok_or_illegal (w : Word) :
    (∃ i, decode w = .ok i ∧ w = encode i) ∨ ((∃ e, decode w = .error e) ∧ Machine.illegalWord w) := by
  rcases decode_cases w with ⟨h, hzero, hop⟩ | ⟨h, hzero, hop⟩ | ⟨h, hhigh, hop⟩ | ⟨h, hzero, hop⟩ | ⟨h, hzero, hop⟩
    | ⟨h, hzero, hop⟩ | ⟨h, hzero, hop⟩ | ⟨h, hzero, hop⟩ | ⟨h, hop⟩ | ⟨h, hupper, hop⟩ | ⟨h, hhigh, hop⟩ | ⟨h, hop⟩
  · exact .inl ⟨.nop, h, eq_encode_of_fields hzero hop⟩
  · exact .inl ⟨.clr, h, eq_encode_of_fields hzero hop⟩
  · exact .inl ⟨.push _, h, eq_encode_of_fields (imm24Field_eq_push_upper hhigh) hop⟩
  · exact .inl ⟨.enc, h, eq_encode_of_fields hzero hop⟩
  · exact .inl ⟨.rank, h, eq_encode_of_fields hzero hop⟩
  · exact .inl ⟨.build, h, eq_encode_of_fields hzero hop⟩
  · exact .inl ⟨.pack, h, eq_encode_of_fields hzero hop⟩
  · exact .inl ⟨.run, h, eq_encode_of_fields hzero hop⟩
  · exact .inl ⟨.lookup _, h, eq_encode_of_fields rfl hop⟩
  · exact .inr ⟨⟨_, h⟩, .inr (.inl ⟨hop, hupper⟩)⟩
  · exact .inr ⟨⟨_, h⟩, .inr (.inr ⟨congrArg BitVec.toNat hop, hhigh⟩)⟩
  · exact .inr ⟨⟨_, h⟩, .inl hop⟩

/-- A word decodes to the command it encodes and to no other. -/
theorem decode_eq_ok_iff {w : Word} {i : Instr} : decode w = .ok i ↔ w = encode i := by
  constructor
  · intro h
    rcases decode_ok_or_illegal w with ⟨j, hj, hw⟩ | ⟨⟨e, he⟩, -⟩
    · cases h.symm.trans hj
      exact hw
    · cases h.symm.trans he
  · rintro rfl
    exact decode_encode i

theorem decode_error_iff {w : Word} : (∃ e, decode w = .error e) ↔ ∀ i, w ≠ encode i := by
  simp only [ne_eq, ← decode_eq_ok_iff]
  cases decode w <;> simp

/-! ### The rows of the opcode map -/

theorem and_opMask (w : Word) : w &&& 0x000000FF = 0#24 ++ opField w :=
  calc w &&& 0x000000FF = (imm24Field w ++ opField w) &&& (0#24 ++ BitVec.allOnes 8) := by rw [← word_split]; rfl
    _ = 0#24 ++ opField w := by rw [BitVec.and_append, BitVec.and_zero, BitVec.and_allOnes]

theorem and_pushMask (w : Word) : w &&& 0xFFFF00FF = (highField w ++ 0#8) ++ opField w :=
  calc w &&& 0xFFFF00FF
      = ((highField w ++ imm8Field w) ++ opField w) &&& ((BitVec.allOnes 16 ++ 0#8) ++ BitVec.allOnes 8) := by
        rw [← imm24_split, ← word_split]; rfl
    _ = (highField w ++ 0#8) ++ opField w := by
        rw [BitVec.and_append, BitVec.and_append, BitVec.and_zero, BitVec.and_allOnes, BitVec.and_allOnes]

/-- The row of `LOOKUP` (R69). -/
theorem eq_encode_lookup_iff (w : Word) (n : BitVec 24) :
    w = encode (.lookup n) ↔ w &&& 0x000000FF = 0x00000008 ∧ n = imm24Field w := by
  constructor
  · rintro rfl
    exact ⟨(Laws.RowWord.lookup n).1, (imm24Field_encode (.lookup n)).symm⟩
  · rintro ⟨hrow, rfl⟩
    rw [and_opMask] at hrow
    have hop : opField w = 8 := (opField_append _ _).symm.trans (congrArg opField hrow)
    exact eq_encode_of_fields rfl hop

/-- The row of `PUSH` (R69). -/
theorem eq_encode_push_iff (w : Word) (b : Byte) :
    w = encode (.push b) ↔ w &&& 0xFFFF00FF = 0x00000002 ∧ b = imm8Field w := by
  constructor
  · rintro rfl
    exact ⟨(Laws.RowWord.push b).1, (imm8Field_encode_push b).symm⟩
  · rintro ⟨hrow, rfl⟩
    rw [and_pushMask] at hrow
    have hop : opField w = 2 := (opField_append _ _).symm.trans (congrArg opField hrow)
    have hupper : highField w ++ 0#8 = 0#16 ++ 0#8 := (imm24Field_append _ _).symm.trans (congrArg imm24Field hrow)
    exact eq_encode_of_fields (imm24Field_eq_push_upper ((BitVec.append_left_inj _).1 hupper)) hop

/-- The words outside every row: not the one word of a command without operand, and in neither row of the other two. -/
theorem forall_ne_encode_iff (w : Word) :
    (∀ i, w ≠ encode i) ↔
      w ∉ [(0 : Word), 1, 3, 4, 5, 6, 7] ∧ w &&& 0xFFFF00FF ≠ 0x00000002 ∧ w &&& 0x000000FF ≠ 0x00000008 := by
  have hplain : [(0 : Word), 1, 3, 4, 5, 6, 7] = [Instr.nop, .clr, .enc, .rank, .build, .pack, .run].map encode := rfl
  constructor
  · intro h
    refine ⟨fun hmem => ?_, fun hrow => h _ ((eq_encode_push_iff w _).2 ⟨hrow, rfl⟩),
      fun hrow => h _ ((eq_encode_lookup_iff w _).2 ⟨hrow, rfl⟩)⟩
    rw [hplain] at hmem
    obtain ⟨i, -, hi⟩ := List.mem_map.1 hmem
    exact h i hi.symm
  · rintro ⟨hmem, hpush, hlookup⟩ i rfl
    cases i
    case push b => exact hpush (Laws.RowWord.push b).1
    case lookup n => exact hlookup (Laws.RowWord.lookup n).1
    all_goals exact hmem (by decide)

/-- Settles O1: a word decodes to a command when it is the command's word, and that word is the command's row with the
operand bits read off. -/
theorem commandWordsDecodeByTheirRow : Obligations.CommandWordsDecodeByTheirRow := by
  intro w
  have hfull : w &&& 0xFFFFFFFF = w := BitVec.and_allOnes
  rw [hfull]
  exact ⟨decode_eq_ok_iff, decode_eq_ok_iff, fun b => decode_eq_ok_iff.trans (eq_encode_push_iff w b), decode_eq_ok_iff,
    decode_eq_ok_iff, decode_eq_ok_iff, decode_eq_ok_iff, decode_eq_ok_iff,
    fun n => decode_eq_ok_iff.trans (eq_encode_lookup_iff w n), decode_error_iff.trans (forall_ne_encode_iff w)⟩

end Sys2Proof

namespace Sys2Proof.Machine

/-! ### Illegal words -/

/-- The word of a command is none of the three cases of R70. -/
theorem not_illegalWord_encode (i : Instr) : ¬ illegalWord (encode i) := by
  have hop : (encode i).extractLsb' 0 8 = i.op := opField_encode i
  have hupper : (encode i).extractLsb' 8 24 = i.upper := imm24Field_encode i
  rw [illegalWord, hop, hupper]
  cases i
  case push b =>
    have hhigh : (encode (.push b)).extractLsb' 16 16 = 0 := highField_encode_push b
    simp [Instr.op, hhigh]
  all_goals simp [Instr.op, Instr.upper]

/-- R70 names exactly the words the decoder rejects. -/
theorem illegalWord_iff_decode_error (w : Word) : illegalWord w ↔ ∃ e, decode w = .error e := by
  rw [decode_error_iff]
  constructor
  · rintro h i rfl
    exact not_illegalWord_encode i h
  · intro h
    rcases decode_ok_or_illegal w with ⟨i, -, hw⟩ | ⟨-, hill⟩
    · exact absurd hw (h i)
    · exact hill

/-- A write of an illegal word to `CMD` executes nothing (R70). -/
theorem commandWrite_of_illegalWord {w : Word} (h : illegalWord w) (s : State) :
    commandWrite w s = .next (s.raise .ill) := by
  obtain ⟨e, he⟩ := (illegalWord_iff_decode_error w).1 h
  rw [commandWrite, he]

/-- Settles O5: the decoder rejects the words of R70, and a write of one to `CMD` is `State.raise .ill`. -/
theorem illegalWordRaisesIllOnly : Obligations.IllegalWordRaisesIllOnly := by
  refine fun w => ⟨illegalWord_iff_decode_error w, fun h s addr rest haddr => ⟨?_, rfl⟩⟩
  rw [step_write, busWrite_cmd haddr, commandWrite_of_illegalWord h]
  rfl

end Sys2Proof.Machine
end

section
/-! The serialized grid (40_host_loader_serializer.md R89): the rows of a well-formed grid are blocks of one width, laid
end to end. -/

namespace Sys2Proof.Machine

theorem serialize_length {g : PixelGrid} (hg : g.wf) : (serialize g).length = g.height * g.width := by
  obtain ⟨hheight, hwidth⟩ := hg
  have hconst : ∀ n ∈ g.rows.map List.length, n = g.width := List.forall_mem_map.2 hwidth
  rw [serialize, List.length_flatten, List.sum_eq_card_nsmul _ _ hconst, List.length_map, hheight, smul_eq_mul]

/-- A well-formed grid as the list of its rows, each with its width: the same blocks as in `serialize`. -/
theorem serialize_eq_flatMap {g : PixelGrid} (hwidth : ∀ row ∈ g.rows, row.length = g.width) :
    serialize g = (g.rows.attachWith (fun row => row.length = g.width) hwidth).flatMap Subtype.val := by
  rw [List.flatMap_def, List.attachWith_map_subtype_val, serialize]

theorem serialize_getElem? {g : PixelGrid} (hg : g.wf) {i j : Nat} (hi : i < g.height) (hj : j < g.width) :
    (serialize g)[i * g.width + j]? = (g.rows[i]?).bind (fun row => row[j]?) := by
  obtain ⟨hheight, hwidth⟩ := hg
  have hrow : i < g.rows.length := hheight ▸ hi
  rw [serialize_eq_flatMap hwidth, getElem?_flatMap_block Subtype.property (by rwa [List.length_attachWith]) hj,
    List.getElem_attachWith, List.getElem?_eq_getElem hrow, Option.bind_some]

/-- Settles O55: row `i` of a well-formed grid is block `i` of its serialization. -/
theorem serializeIsRowMajor : Obligations.SerializeIsRowMajor :=
  ⟨fun _ hg => ⟨serialize_length hg, fun _ _ hi hj => serialize_getElem? hg hi hj⟩, rfl⟩

end Sys2Proof.Machine
end

section
/-! The phase protocol (41_control_commands.md R96 to R100): the guard of a command is its row of the table, a command
that is not allowed raises `ERR.SEQ`, and one that is allowed leaves the phase of the table's last column. -/

namespace Sys2Proof.Machine

/-! ### The table of R96 -/

/-- The guard of the commands that need one phase and no fatal flag. -/
theorem phase_and_not_fatal_iff (s : State) (p : Phase) :
    (decide (s.phase = p) && !s.fatal) = true ↔ s.phase = p ∧ s.err.ovf = false ∧ s.err.nf = false := by
  simp [State.fatal]

/-- The guard the commands are executed under is the table of R96. -/
theorem legal_iff_commandAllowed (i : Instr) (s : State) : legal i s = true ↔ commandAllowed i s := by
  cases i with
  | nop => exact iff_of_true rfl trivial
  | clr => exact iff_of_true rfl trivial
  | push _ => exact phase_and_not_fatal_iff s .load
  | enc => exact phase_and_not_fatal_iff s .load
  | rank => exact phase_and_not_fatal_iff s .encoded
  | build => exact phase_and_not_fatal_iff s .ranked
  | pack => exact phase_and_not_fatal_iff s .built
  | run => exact phase_and_not_fatal_iff s .load
  | lookup _ => simp [legal, commandAllowed]

theorem exec_of_allowed {i : Instr} {s : State} (h : commandAllowed i s) : exec i s = .next (effectOf i s) := by
  rw [exec_eq, whenLegal_of_legal ((legal_iff_commandAllowed i s).2 h)]

theorem exec_of_not_allowed {i : Instr} {s : State} (h : ¬ commandAllowed i s) :
    exec i s = .next (s.raise .seq) := by
  rw [← legal_iff_commandAllowed, Bool.not_eq_true] at h
  rw [exec_eq, whenLegal_of_illegal h]

/-! ### The phase an effect leaves -/

/-- `PUSH` moves no phase, whether it stores its byte or overflows (R101). -/
@[simp] theorem pushEffect_phase (b : Byte) (s : State) : (pushEffect b s).phase = s.phase := by
  unfold pushEffect
  split <;> rfl

/-- A complete `PACK` ends in `PACKED`; an aborted one stays where it was with `ERR.NF` set (45_bit_packed_writer.md
R149, R150). -/
theorem packStage_phase (s : State) :
    (packStage s).phase = .packed ∨ ((packStage s).phase = s.phase ∧ (packStage s).err.nf = true) := by
  rcases packStage_cases s with ⟨-, hwritten⟩ | ⟨-, w, haborted⟩
  · exact .inl (by rw [hwritten, packWritten])
  · exact .inr (by rw [haborted]; exact ⟨rfl, rfl⟩)

/-- The `PACK` inside a `RUN` is never aborted (R102). -/
@[simp] theorem runStages_phase (s : State) : (runStages s).phase = .packed := by
  obtain ⟨w, hwritten⟩ := runStages_written s
  rw [hwritten, packWritten]

/-! ### The flags -/

/-- Raising a flag clears none (60_exceptions.md R168). -/
theorem get_set_of_get {e : Err} {f : ErrFlag} (g : ErrFlag) (h : e.get f = true) : (e.set g).get f = true := by
  rw [set_get, h, Bool.or_true]

/-- Only `CLR` clears a flag (R100). -/
theorem exec_keeps_flag {i : Instr} {s t : State} {f : ErrFlag} (h : exec i s = .next t) (hi : i ≠ .clr)
    (hf : s.err.get f = true) : t.err.get f = true := by
  rcases exec_err h with herr | ⟨rfl, -⟩ | ⟨-, -, rfl, -⟩ | ⟨-, herr, -⟩ | ⟨hclr, -⟩
  · rwa [herr]
  · exact get_set_of_get .seq hf
  · exact get_set_of_get .ovf hf
  · rw [herr]
    exact get_set_of_get .nf hf
  · exact absurd hclr hi

/-! ### The statements -/

/-- Settles O26: a refused command is `State.raise .seq`, and an allowed one leaves the phase of its effect. -/
theorem phaseAfterACommand : Obligations.PhaseAfterACommand := by
  intro i s
  by_cases h : commandAllowed i s
  · refine ⟨effectOf i s, exec_of_allowed h, fun hn => absurd h hn, fun _ => ?_⟩
    cases i with
    | nop => rfl
    | clr => exact cleared_phase s
    | push b =>
      obtain ⟨hload, -⟩ := h
      exact (pushEffect_phase b s).trans hload
    | enc => exact encStage_phase s
    | rank => exact rankStage_phase s
    | build => exact buildStage_phase s
    | pack =>
      obtain ⟨hbuilt, -⟩ := h
      exact hbuilt ▸ packStage_phase s
    | run => exact runStages_phase s
    | lookup n => exact lookupEffect_phase n s
  · exact ⟨s.raise .seq, exec_of_not_allowed h, fun _ => rfl, fun ha => absurd ha h⟩

/-- Settles O25: the refusal is `State.raise .seq`, and `FATAL` does not read `ERR.SEQ`. -/
theorem refusedCommandRaisesSeqOnly : Obligations.RefusedCommandRaisesSeqOnly :=
  fun _ _ h => ⟨exec_of_not_allowed h, rfl⟩

/-- Settles O23: `CLR` leaves `State.cleared`, whose fields are the reset values, and no other command clears a flag. -/
theorem clrRestoresTheResetState : Obligations.ClrRestoresTheResetState := by
  refine ⟨fun s => ⟨s.cleared, exec_clr s, rfl, rfl, rfl, rfl, rfl, rfl, rfl, ?_, rfl, rfl, rfl, ?_, ?_, rfl, rfl, rfl,
    rfl⟩, fun i s t f h hi hf => exec_keeps_flag h hi hf⟩
  · rw [cleared_lkp]
    decide
  · rw [cleared_rleBit]
    decide
  · rw [cleared_wstate]
    decide

/-- Settles O24: `NOP` is allowed in every state and its effect is the identity. -/
theorem nopLeavesTheState : Obligations.NopLeavesTheState := fun _ => exec_of_allowed trivial

end Sys2Proof.Machine
end

section
/-! The bit values of the encoder's packets (42_rle_encoder.md R117): no two neighbours share one, so each is fixed by
the first and its index. -/

namespace Sys2Proof.Machine

theorem exec_enc {s : State} (hphase : s.phase = .load) (hovf : s.err.ovf = false) (hnf : s.err.nf = false) :
    exec .enc s = .next (encStage s) :=
  exec_of_allowed (i := .enc) ⟨hphase, hovf, hnf⟩

/-- Alternation of the packet list, as a fact about the entries of `PKT`. -/
theorem bitValue_ne_of_alternating {s : State} (h : Alternating s.packets) {i : Nat} (hi : i + 1 < s.npkt) :
    (s.pktAt i).bitValue ≠ (s.pktAt (i + 1)).bitValue := by
  have hne := List.IsChain.getElem h i (by rwa [packets_length])
  simpa [State.packets] using hne

/-- Where neighbours differ, every value is the first one, inverted at the odd indices. -/
theorem eq_xor_parity_of_neighbours_ne {f : Nat → Bool} {n : Nat} (h : ∀ i, i + 1 < n → f i ≠ f (i + 1)) :
    ∀ i, i < n → f i = (f 0 ^^ decide (i % 2 = 1)) := by
  intro i hi
  induction i with
  | zero => exact (Bool.xor_false _).symm
  | succ i ih =>
    have hparity : decide ((i + 1) % 2 = 1) = !decide (i % 2 = 1) := by
      rw [← decide_not]
      exact decide_eq_decide.2 (by omega)
    calc f (i + 1) = !f i := Bool.eq_not.2 (h i hi).symm
      _ = !(f 0 ^^ decide (i % 2 = 1)) := by rw [ih (Nat.lt_of_succ_lt hi)]
      _ = (f 0 ^^ decide ((i + 1) % 2 = 1)) := by rw [hparity, Bool.xor_not]

theorem encStage_alternating (s : State) : Alternating (encStage s).packets := by
  rw [packets_encStage]
  exact rleEncode_alternating s.inputBits

/-- Settles O33: the packets the encoder retains alternate, and alternation fixes each bit value by its parity. -/
theorem encBitValuesAlternate : Obligations.EncBitValuesAlternate := by
  intro s hphase hovf hnf
  have hne : ∀ i, i + 1 < (encStage s).npkt →
      ((encStage s).pktAt i).bitValue ≠ ((encStage s).pktAt (i + 1)).bitValue :=
    fun _ => bitValue_ne_of_alternating (encStage_alternating s)
  exact ⟨encStage s, exec_enc hphase hovf hnf, hne, eq_xor_parity_of_neighbours_ne hne⟩

end Sys2Proof.Machine
end

section
/-! The ranked table in `TBL` (43_frequency_ranker.md R125, R126): what holds of `rankRuns` as a list, said of the valid
entries by their index. -/

namespace Sys2Proof.Machine

theorem exec_rank {s : State} (hphase : s.phase = .encoded) (hovf : s.err.ovf = false) (hnf : s.err.nf = false) :
    exec .rank s = .next (rankStage s) :=
  exec_of_allowed (i := .rank) ⟨hphase, hovf, hnf⟩

/-! ### Entries of a table by index -/

theorem tblAt_mem_table {s : State} {i : Nat} (hi : i < s.k) : s.tblAt i ∈ s.table :=
  List.mem_of_getElem? (table_getElem s hi)

/-- Where the run lengths are distinct, one fixes its index. -/
theorem index_eq_of_runLength_eq {s : State} (hnodup : s.tableRuns.Nodup) {i j : Nat} (hi : i < s.k) (hj : j < s.k)
    (heq : (s.tblAt i).runLength = (s.tblAt j).runLength) : i = j := by
  refine (List.getElem?_inj (by rwa [tableRuns_length]) hnodup).1 ?_
  rw [tableRuns_getElem s hi, tableRuns_getElem s hj, heq]

theorem tblAt_of_pairwise {s : State} {R : FreqEntry → FreqEntry → Prop} (h : s.table.Pairwise R) {i j : Nat}
    (hij : i < j) (hj : j < s.k) : R (s.tblAt i) (s.tblAt j) := by
  have hlength := table_length s
  have hrel := List.pairwise_iff_getElem.1 h i j (by omega) (by omega) hij
  simpa [State.table] using hrel

/-! ### The order of R126 -/

theorem before_asymm {lens : List Nat} {x y : FreqEntry} (h : Before lens x y) : ¬ Before lens y x := by
  simp only [Before] at h ⊢
  omega

/-- A table in the order of R126 has the smaller index exactly where that order says so: the order is asymmetric. -/
theorem index_lt_iff_before {s : State} {lens : List Nat} (h : s.table.Pairwise (Before lens)) {i j : Nat}
    (hi : i < s.k) (hj : j < s.k) : i < j ↔ Before lens (s.tblAt i) (s.tblAt j) := by
  refine ⟨fun hij => tblAt_of_pairwise h hij hj, fun hbefore => ?_⟩
  rcases Nat.lt_trichotomy i j with hlt | rfl | hgt
  · exact hlt
  · exact absurd hbefore (before_asymm hbefore)
  · exact absurd hbefore (before_asymm (tblAt_of_pairwise h hgt hi))

/-! ### The table `RANK` leaves -/

theorem tableRuns_rankStage (s : State) :
    (rankStage s).tableRuns = (rankRuns s.packetLengths).map FreqEntry.runLength := by
  rw [State.tableRuns, table_rankStage]

theorem mem_packetLengths_iff_ranked (s : State) (len : Nat) :
    len ∈ s.packetLengths ↔ ∃ i, i < (rankStage s).k ∧ ((rankStage s).tblAt i).runLength = len := by
  rw [← mem_tableRuns, tableRuns_rankStage, rankRuns_cover]

theorem rankStage_runs_nodup (s : State) : (rankStage s).tableRuns.Nodup := by
  rw [tableRuns_rankStage]
  exact rankRuns_nodup s.packetLengths

theorem rankStage_count {s : State} {i : Nat} (hi : i < (rankStage s).k) :
    ((rankStage s).tblAt i).count = s.packetLengths.count ((rankStage s).tblAt i).runLength :=
  rankRuns_counts s.packetLengths _ (table_rankStage s ▸ tblAt_mem_table hi)

theorem rankStage_before (s : State) : (rankStage s).table.Pairwise (Before s.packetLengths) := by
  rw [table_rankStage]
  exact rankRuns_before s.packetLengths

/-- Settles O36: the state is `rankStage s`, whose table is `rankRuns` of the packets' lengths. -/
theorem rankGroupsAndOrders : Obligations.RankGroupsAndOrders := by
  intro s hphase hovf hnf
  exact ⟨rankStage s, exec_rank hphase hovf hnf, mem_packetLengths_iff_ranked s,
    fun _ _ => index_eq_of_runLength_eq (rankStage_runs_nodup s), fun _ => rankStage_count,
    fun _ _ => index_lt_iff_before (rankStage_before s), rfl, rfl⟩

end Sys2Proof.Machine
end

section
/-! The code table (44_code_table.md R135 to R140): the width `BUILD` sets, the first entry of a run length as the code
`LOOKUP` answers, and the run lengths a table can hold. -/

namespace Sys2Proof.Machine

theorem exec_build {s : State} (hphase : s.phase = .ranked) (hovf : s.err.ovf = false) (hnf : s.err.nf = false) :
    exec .build s = .next (buildStage s) :=
  exec_of_allowed (i := .build) ⟨hphase, hovf, hnf⟩

/-- Outside `RANKED`, or with a fatal flag set, `BUILD` is refused (41_control_commands.md R96, R97). -/
theorem exec_build_refused {s : State} (h : s.phase ≠ .ranked ∨ s.err.ovf = true ∨ s.err.nf = true) :
    exec .build s = .next (s.raise .seq) := by
  refine exec_of_not_allowed ?_
  rintro ⟨hphase, hovf, hnf⟩
  rcases h with hother | hset | hset
  · exact hother hphase
  · exact Bool.false_ne_true (hovf.symm.trans hset)
  · exact Bool.false_ne_true (hnf.symm.trans hset)

/-- Settles O38: the state is `buildStage s`, and `codeWidth s.k` is the least width that covers `K`. -/
theorem buildSetsTheCodeWidth : Obligations.BuildSetsTheCodeWidth := by
  refine ⟨fun s hphase hovf hnf => ⟨codeWidth s.k, exec_build hphase hovf hnf, codeWidth_of_le_one, fun _ => ?_, ?_⟩,
    fun _ => exec_build_refused⟩
  · exact ⟨le_two_pow_codeWidth s.k, fun _ => two_pow_lt_of_lt_codeWidth⟩
  · intro hk
    rw [hk]
    decide

/-! ### The entry of a run length -/

theorem lookupKey_toNat (n : BitVec 24) : (lookupKey n).toNat = n.toNat :=
  BitVec.toNat_setWidth_of_le (by decide)

theorem tableRuns_getElem_of_lt_length {s : State} {i : Nat} (h : i < s.tableRuns.length) :
    s.tableRuns[i] = (s.tblAt i).runLength :=
  List.getElem_of_getElem? (tableRuns_getElem s (tableRuns_length s ▸ h)) |>.2

/-- The scan stops at the first entry of the run length (R139). -/
theorem lookupCode_of_first {s : State} {t len : Nat} (ht : t < s.k) (hrun : (s.tblAt t).runLength = len)
    (hfirst : ∀ j, j < t → (s.tblAt j).runLength ≠ len) : lookupCode s.tableRuns len = some t := by
  refine List.findIdx?_eq_some_iff_getElem.2 ⟨by rwa [tableRuns_length], ?_, fun j hj => ?_⟩
  · rw [tableRuns_getElem_of_lt_length, hrun, beq_self_eq_true]
  · rw [tableRuns_getElem_of_lt_length, beq_iff_eq]
    exact hfirst j hj

/-- The scan finds nothing where no valid entry has the run length (R139). -/
theorem lookupCode_of_absent {s : State} {len : Nat} (h : ∀ t, t < s.k → (s.tblAt t).runLength ≠ len) :
    lookupCode s.tableRuns len = none := by
  refine lookupCode_of_not_mem fun hmem => ?_
  obtain ⟨t, ht, hrun⟩ := (mem_tableRuns s len).1 hmem
  exact h t ht hrun

/-! ### The run lengths of a table -/

/-- From `ENC` on, a packet is no longer than the input: at most `8 * 2^20` bits (10_state.md R33). -/
theorem packetLength_le {s : State} (hs : s.Inv) (hphase : 1 ≤ s.phase.number) {len : Nat}
    (h : len ∈ s.packetLengths) : len ≤ 2 ^ 23 := by
  obtain ⟨-, hnmax⟩ := hs.cfgWf
  calc len ≤ s.packetLengths.sum := List.le_sum_of_mem h
    _ = 8 * s.nbytes := hs.lengthSum hphase
    _ ≤ 8 * 2 ^ 20 := Nat.mul_le_mul_left 8 (hs.nbytesLe.trans hnmax)
    _ = 2 ^ 23 := by norm_num

theorem packetLength_pos {s : State} (hs : s.Inv) {len : Nat} (h : len ∈ s.packetLengths) : 1 ≤ len := by
  obtain ⟨i, hi, rfl⟩ := (mem_packetLengths s len).1 h
  exact hs.lengthPos i hi

/-- Every run length of the table is one of a packet, so key 0 and keys above `2^23` are in none. -/
theorem runLength_ne_of_out_of_range {s : State} (hs : s.Inv) (hphase : 1 ≤ s.phase.number) {key : Nat}
    (hkey : key = 0 ∨ 2 ^ 23 < key) : ∀ t, t < s.k → (s.tblAt t).runLength ≠ key := by
  intro t ht hrun
  have hmem : key ∈ s.packetLengths := hrun ▸ hs.runsOccur t ht
  have hpos := packetLength_pos hs hmem
  have hle := packetLength_le hs hphase hmem
  omega

/-! ### `LOOKUP` -/

/-- Where there is a table, `LOOKUP` leaves the result of the scan in `LKP`, whatever `FATAL` is (R140). -/
theorem exec_lookup {s : State} (h : s.phase = .built ∨ s.phase = .packed) (n : BitVec 24) :
    exec (.lookup n) s = .next { s with lkp := lookupResult (lookupCode s.tableRuns n.toNat) } := by
  rw [exec_of_allowed (i := .lookup n) h, effectOf, lookupEffect, lookupKey_toNat]

theorem exec_lookup_miss {s : State} (hphase : s.phase = .built ∨ s.phase = .packed) {n : BitVec 24}
    (h : ∀ t, t < s.k → (s.tblAt t).runLength ≠ n.toNat) : exec (.lookup n) s = .next { s with lkp := ⟨0, true⟩ } := by
  rw [exec_lookup hphase, lookupCode_of_absent h, lookupResult]

/-- In a phase without a table `LOOKUP` is refused, and `LKP` keeps its value (R140). -/
theorem exec_lookup_refused {s : State} (hbuilt : s.phase ≠ .built) (hpacked : s.phase ≠ .packed) (n : BitVec 24) :
    exec (.lookup n) s = .next (s.raise .seq) :=
  exec_of_not_allowed (i := .lookup n) (not_or_intro hbuilt hpacked)

/-- A found code is its own result word (10_state.md R18). -/
theorem lkpWord_found {t : Nat} (h : t < 2 ^ 31) : (Lkp.word ⟨BitVec.ofNat 31 t, false⟩).toNat = t := by
  simp only [lkpWord_eq, BitVec.toNat_ofNat, Bool.toNat_false]
  omega

/-- Settles O39: the result of the scan is the first entry's index or a miss, and under the invariant the corner keys are
the run length of no entry. -/
theorem lookupAnswersTheCode : Obligations.LookupAnswersTheCode := by
  refine ⟨fun s n hphase => ⟨fun t ht hrun hfirst => ?_, exec_lookup_miss hphase, fun hs hkey => ?_⟩,
    fun _ n hbuilt hpacked => exec_lookup_refused hbuilt hpacked n, fun _ => lkpWord_found, by decide⟩
  · rw [exec_lookup hphase, lookupCode_of_first ht hrun hfirst, lookupResult]
  · have hnumber : 1 ≤ s.phase.number := by
      rcases hphase with hbuilt | hpacked
      · rw [hbuilt]
        decide
      · rw [hpacked]
        decide
    exact exec_lookup_miss hphase (runLength_ne_of_out_of_range hs hnumber hkey)

end Sys2Proof.Machine
end

section
/-! The abort of `PACK` (45_bit_packed_writer.md R150): a packet whose length is in no valid entry of the table, the state
it leaves, and the commands that `FATAL` then refuses. -/

namespace Sys2Proof.Machine

/-- A packet that no valid entry of the table matches, as a fact about the two lists `PACK` works on. -/
theorem exists_unmatched_packet_iff (s : State) :
    (∃ p, p < s.npkt ∧ ∀ i, i < s.k → (s.tblAt i).runLength ≠ (s.pktAt p).length) ↔
      ∃ len ∈ s.packetLengths, len ∉ s.tableRuns := by
  simp [mem_packetLengths, mem_tableRuns]

/-- From `RANKED` on, the invariant has every packet's length in the table (10_state.md R33). -/
theorem packetLengths_subset_tableRuns {s : State} (hs : s.Inv) (hphase : 2 ≤ s.phase.number) :
    ∀ len ∈ s.packetLengths, len ∈ s.tableRuns := by
  intro len hlen
  obtain ⟨p, hp, rfl⟩ := (mem_packetLengths s len).1 hlen
  exact hs.runsCover hphase p hp

/-- `PACK` aborts when it is legal and some length is not in the table. -/
theorem exec_pack_aborted {s : State} (hphase : s.phase = .built) (hovf : s.err.ovf = false) (hnf : s.err.nf = false)
    (hmiss : ∃ len ∈ s.packetLengths, len ∉ s.tableRuns) : ∃ w, exec .pack s = .next (packAborted s w) := by
  rw [exec_of_allowed (i := .pack) ⟨hphase, hovf, hnf⟩]
  rcases packStage_cases s with ⟨hall, -⟩ | ⟨-, w, haborted⟩
  · obtain ⟨len, hlen, hn⟩ := hmiss
    exact absurd (hall len hlen) hn
  · exact ⟨w, congrArg _ haborted⟩

theorem packAborted_fatal (s : State) (w : Writer) : (packAborted s w).fatal = true := Bool.or_true _

/-- No stage command is allowed while `FATAL` is 1 (41_control_commands.md R96). -/
theorem not_commandAllowed_of_fatal {i : Instr} (hi : i ∈ [Instr.enc, .rank, .build, .pack, .run]) {s : State}
    (hs : s.fatal = true) : ¬ commandAllowed i s := by
  have hflags : ∀ p, ¬ (s.phase = p ∧ s.err.ovf = false ∧ s.err.nf = false) := by
    rintro p ⟨-, hovf, hnf⟩
    rw [State.fatal, hovf, hnf] at hs
    exact Bool.false_ne_true hs
  simp only [List.mem_cons, List.not_mem_nil, or_false] at hi
  rcases hi with rfl | rfl | rfl | rfl | rfl <;> exact hflags _

/-- Settles O42: the state is `packAborted s w`, which is fatal and has no valid output byte; under the invariant the
table covers the packets, so none is unmatched. -/
theorem packAbortsOnAMiss : Obligations.PackAbortsOnAMiss := by
  refine ⟨fun s hs hphase hmiss => ?_, fun s hphase hovf hnf hmiss => ?_⟩
  · obtain ⟨len, hlen, hn⟩ := (exists_unmatched_packet_iff s).1 hmiss
    have hnumber : 2 ≤ s.phase.number := by
      rw [hphase]
      decide
    exact hn (packetLengths_subset_tableRuns hs hnumber len hlen)
  · obtain ⟨w, hexec⟩ := exec_pack_aborted hphase hovf hnf ((exists_unmatched_packet_iff s).1 hmiss)
    exact ⟨packAborted s w, hexec, rfl, rfl, packAborted_fatal s w,
      fun _ hi => exec_of_not_allowed (not_commandAllowed_of_fatal hi (packAborted_fatal s w))⟩

end Sys2Proof.Machine
end

section
/-! The fatal flags (60_exceptions.md R162, R169): the overflow of `PUSH`, what a state with `FATAL = 1` refuses and what
it still does, and that the other four flags of `ERR` gate nothing. -/

namespace Sys2Proof.Machine

/-! ### The overflow of `PUSH` -/

/-- `PUSH` into a full `IN` stores nothing (41_control_commands.md R101). -/
theorem pushEffect_of_full {s : State} (h : s.nbytes = s.cfg.nmax) (b : Byte) : pushEffect b s = s.raise .ovf :=
  if_pos h

theorem pushEffect_of_room {s : State} (h : s.nbytes ≠ s.cfg.nmax) (b : Byte) :
    pushEffect b s = { s with inMem := Mem.put s.inMem s.nbytes (pushByte b), nbytes := s.nbytes + 1 } :=
  if_neg h

/-- A command that raises `ERR.OVF` is a `PUSH` into a full `IN`, which changes nothing else. -/
theorem exec_raises_ovf {i : Instr} {s t : State} (h : exec i s = .next t) (hs : s.err.ovf = false)
    (ht : t.err.ovf = true) : (∃ b, i = .push b) ∧ s.nbytes = s.cfg.nmax ∧ t = s.raise .ovf := by
  have hrises : t.err.ovf ≠ s.err.ovf := by
    rw [hs, ht]
    decide
  rcases exec_err h with herr | ⟨rfl, -⟩ | ⟨hpush, hfull, hraise, -⟩ | ⟨-, herr, -⟩ | ⟨-, rfl⟩
  · exact absurd (congrArg Err.ovf herr) hrises
  · exact absurd rfl hrises
  · exact ⟨hpush, hfull, hraise⟩
  · exact absurd (congrArg Err.ovf herr) hrises
  · exact absurd hs.symm hrises

/-- Settles O18: `PUSH` into a full `IN` is `State.raise .ovf`, and no other command raises the flag. -/
theorem overflowIsRaisedByPushOnly : Obligations.OverflowIsRaisedByPushOnly := by
  refine ⟨fun s b hphase hovf hnf hfull => ⟨?_, rfl⟩, fun i s t h hs ht => ?_⟩
  · rw [exec_of_allowed (i := .push b) ⟨hphase, hovf, hnf⟩, effectOf, pushEffect_of_full hfull]
    rfl
  · obtain ⟨⟨b, hpush⟩, hfull, rfl⟩ := exec_raises_ovf h hs ht
    exact ⟨b, hpush, hfull, hfull⟩

/-! ### What `FATAL` refuses and what still works -/

theorem fatal_iff (s : State) : s.fatal = true ↔ s.err.ovf = true ∨ s.err.nf = true :=
  Bool.or_eq_true_iff

/-- `PUSH` has the row of `ENC` in R96, so a fatal state refuses it with the stage commands. -/
theorem exec_of_fatal {s : State} (hs : s.fatal = true) {b : Byte} {i : Instr}
    (hi : i ∈ [Instr.push b, .enc, .rank, .build, .pack, .run]) : exec i s = .next (s.raise .seq) := by
  refine exec_of_not_allowed ?_
  rcases List.mem_cons.1 hi with rfl | hstage
  · exact not_commandAllowed_of_fatal (i := .enc) List.mem_cons_self hs
  · exact not_commandAllowed_of_fatal hstage hs

/-- A register outside the read window returns a word and raises nothing (20_memory.md R43). -/
theorem readReg_of_not_window {r : Reg} (h0 : r ≠ .rd0) (h1 : r ≠ .rd1) (s : State) :
    ∃ w, readReg r s = s.reply w := by
  cases r
  case rd0 => exact absurd rfl h0
  case rd1 => exact absurd rfl h1
  all_goals exact ⟨_, rfl⟩

/-- A read of a register, for a window register in range, returns a word and raises nothing, whatever `FATAL` is. -/
theorem busRead_reply {addr : Nat} {s : State} (haligned : addr % 256 % 4 = 0) (hlt : addr % 256 < 0x40)
    (hrange : addr % 256 = 0x2C ∨ addr % 256 = 0x30 → s.idx.toNat < s.selectedCount) :
    ∃ w, busRead addr s = s.reply w := by
  by_cases hwindow : addr % 256 = 0x2C ∨ addr % 256 = 0x30
  · obtain ⟨pick, hread⟩ := busRead_window hwindow
    rw [hread]
    exact windowRead_of_lt_count (hrange hwindow) pick
  · have hreg : regAt? (offsetOf addr) ≠ none := by
      rw [Ne, regAt?_offsetOf_eq_none_iff]
      omega
    obtain ⟨r, hr⟩ := Option.ne_none_iff_exists'.1 hreg
    have hoff := (regAt?_offsetOf_iff addr r).1 hr
    rw [busRead_of_offset hoff]
    refine readReg_of_not_window ?_ ?_ s
    · rintro rfl
      exact hwindow (.inl hoff)
    · rintro rfl
      exact hwindow (.inr hoff)

/-- Every flag outlives a step that delivers no clearing event (R168), so the fatal state does. -/
theorem step_keeps_fatal {s t : State} (h : step s = .next t) (hs : s.fatal = true) :
    t.fatal = true ∨ ∃ e rest, s.bus = e :: rest ∧ clearingEvent e := by
  rcases step_err h with herr | ⟨f, herr⟩ | ⟨e, es, hbus, hclear, -⟩
  · left
    rwa [State.fatal, herr]
  · left
    rw [fatal_iff] at hs ⊢
    rw [herr]
    exact hs.imp (get_set_of_get (f := .ovf) f) (get_set_of_get (f := .nf) f)
  · exact .inr ⟨e, es, hbus, hclear⟩

/-! ### The flags that gate nothing -/

/-- Two states that differ at most in `ERR.SEQ`, `ERR.ILL`, `ERR.IDX` and `ERR.ADDR`. -/
def SameButOtherFlags (s u : State) : Prop :=
  ∃ e : Err, e.ovf = s.err.ovf ∧ e.nf = s.err.nf ∧ u = { s with err := e }

theorem set_get_congr {e e' : Err} {g : ErrFlag} (f : ErrFlag) (h : e'.get g = e.get g) :
    (e'.set f).get g = (e.set f).get g := by
  rw [set_get, set_get, h]

theorem sameButOtherFlags_raise {s u : State} (h : SameButOtherFlags s u) (f : ErrFlag) :
    SameButOtherFlags (s.raise f) (u.raise f) := by
  obtain ⟨e, hovf, hnf, rfl⟩ := h
  exact ⟨e.set f, set_get_congr (g := .ovf) f hovf, set_get_congr (g := .nf) f hnf, rfl⟩

/-- The guards read the phase and `FATAL` and nothing else (41_control_commands.md R96). -/
theorem legal_congr {s u : State} (hphase : u.phase = s.phase) (hfatal : u.fatal = s.fatal) (i : Instr) :
    legal i u = legal i s := by
  cases i <;> simp only [legal, hphase, hfatal]

theorem legal_of_sameButOtherFlags {s u : State} (h : SameButOtherFlags s u) (i : Instr) : legal i u = legal i s := by
  obtain ⟨e, hovf, hnf, rfl⟩ := h
  have hphase : State.phase { s with err := e } = s.phase := rfl
  have hfatal : State.fatal { s with err := e } = s.fatal := congrArg₂ (· || ·) hovf hnf
  exact legal_congr hphase hfatal i

theorem sameButOtherFlags_pushEffect {s u : State} (h : SameButOtherFlags s u) (b : Byte) :
    SameButOtherFlags (pushEffect b s) (pushEffect b u) := by
  obtain ⟨e, hovf, hnf, rfl⟩ := h
  by_cases hfull : s.nbytes = s.cfg.nmax
  · rw [pushEffect_of_full hfull, pushEffect_of_full (s := { s with err := e }) hfull]
    exact sameButOtherFlags_raise ⟨e, hovf, hnf, rfl⟩ .ovf
  · rw [pushEffect_of_room hfull, pushEffect_of_room (s := { s with err := e }) hfull]
    exact ⟨e, hovf, hnf, rfl⟩

theorem packStage_of_written {s : State} {w : Writer}
    (h : packRuns s.tableRuns s.codewidth s.packetLengths writerStart = .written w) :
    packStage s = packWritten s w := by
  simp only [packStage, h]
  rfl

theorem packStage_of_missed {s : State} {w : Writer}
    (h : packRuns s.tableRuns s.codewidth s.packetLengths writerStart = .missed w) :
    packStage s = packAborted s w := by
  simp only [packStage, h]
  rfl

/-- The loop of `PACK` reads the table, the width and the packets, so both states write, or miss, the same. -/
theorem sameButOtherFlags_packStage {s u : State} (h : SameButOtherFlags s u) :
    SameButOtherFlags (packStage s) (packStage u) := by
  obtain ⟨e, hovf, hnf, rfl⟩ := h
  cases hloop : packRuns s.tableRuns s.codewidth s.packetLengths writerStart with
  | written w =>
    rw [packStage_of_written hloop, packStage_of_written (s := { s with err := e }) hloop]
    exact ⟨e, hovf, hnf, rfl⟩
  | missed w =>
    rw [packStage_of_missed hloop, packStage_of_missed (s := { s with err := e }) hloop]
    exact ⟨e.set .nf, hovf, rfl, rfl⟩

theorem sameButOtherFlags_effectOf {s u : State} (h : SameButOtherFlags s u) (i : Instr) :
    SameButOtherFlags (effectOf i s) (effectOf i u) := by
  obtain ⟨e, hovf, hnf, rfl⟩ := h
  cases i with
  | nop => exact ⟨e, hovf, hnf, rfl⟩
  | clr => exact ⟨s.cleared.err, rfl, rfl, rfl⟩
  | push b => exact sameButOtherFlags_pushEffect ⟨e, hovf, hnf, rfl⟩ b
  | enc => exact ⟨e, hovf, hnf, rfl⟩
  | rank => exact ⟨e, hovf, hnf, rfl⟩
  | build => exact ⟨e, hovf, hnf, rfl⟩
  | pack => exact sameButOtherFlags_packStage ⟨e, hovf, hnf, rfl⟩
  | run => exact sameButOtherFlags_packStage (s := buildStage (rankStage (encStage s))) ⟨e, hovf, hnf, rfl⟩
  | lookup n => exact ⟨e, hovf, hnf, rfl⟩

/-- Both states execute a command or both refuse it, and what they differ in stays within the four flags. -/
theorem sameButOtherFlags_exec {s u : State} (h : SameButOtherFlags s u) (i : Instr) :
    ∃ t v, exec i s = .next t ∧ exec i u = .next v ∧ SameButOtherFlags t v := by
  rw [exec_eq, exec_eq]
  cases hs : legal i s with
  | true =>
    have hu : legal i u = true := (legal_of_sameButOtherFlags h i).trans hs
    exact ⟨_, _, whenLegal_of_legal hs, whenLegal_of_legal hu, sameButOtherFlags_effectOf h i⟩
  | false =>
    have hu : legal i u = false := (legal_of_sameButOtherFlags h i).trans hs
    exact ⟨_, _, whenLegal_of_illegal hs, whenLegal_of_illegal hu, sameButOtherFlags_raise h .seq⟩

/-- Settles O19: a fatal state refuses with `State.raise .seq`, still has the effects that need no `FATAL = 0`, and is
left by a clearing event only; states that agree but for the other four flags go on agreeing but for them. -/
theorem fatalStateIsFailFast : Obligations.FatalStateIsFailFast := by
  refine ⟨fun _ => rfl, fun s b i hs hi => exec_of_fatal ((fatal_iff s).2 hs) hi,
    fun s _ => ⟨nopLeavesTheState s, ⟨s.cleared, exec_clr s, rfl, rfl⟩, fun h n => ⟨_, exec_lookup h n⟩, ?_⟩,
    fun s t h hs => ?_, fun i s e hovf hnf => ?_⟩
  · intro addr rest haligned hlt hrange
    obtain ⟨w, hw⟩ := busRead_reply (s := { s with bus := rest }) haligned hlt hrange
    exact ⟨w, congrArg Host.Outcome.next hw⟩
  · rw [← fatal_iff] at hs ⊢
    exact step_keeps_fatal h hs
  · have hsame : SameButOtherFlags s { s with err := e } := ⟨e, hovf, hnf, rfl⟩
    obtain ⟨t, u, ht, hu, e', hovf', hnf', rfl⟩ := sameButOtherFlags_exec hsame i
    exact ⟨t, _, ht, hu, rfl, hovf', hnf', legal_of_sameButOtherFlags hsame i⟩

end Sys2Proof.Machine
end

section
/-! Reset against `CLR` (70_reset_and_hazards.md R187). -/

namespace Sys2Proof.Machine

/-- Settles O21: the reset event and the executed command both leave `State.cleared` of the same state, `step` having
taken the event off the bus. -/
theorem clearEqualsReset : Obligations.ClearEqualsReset := fun s rest =>
  calc step { s with bus := .reset :: rest }
      = .next (State.cleared { s with bus := rest }) := step_reset s rest
    _ = exec .clr { s with bus := rest } := (exec_clr _).symm

end Sys2Proof.Machine
end

section
/-! Commands and words one to one (30_encoding.md sections 1 to 3). -/

namespace Sys2Proof

/-- Settles O2: the fields of a command's word are its operand and its opcode. -/
theorem decodeOfEncodeIsTheCommand : Obligations.DecodeOfEncodeIsTheCommand := decode_encode

/-- Settles O3: a word that decodes to a command is that command's word. -/
theorem encodeOfDecodeIsTheWord : Obligations.EncodeOfDecodeIsTheWord :=
  fun _ _ h => (decode_eq_ok_iff.1 h).symm

/-- Settles O4: each legal word is the encoding of its command; the two illegal ones are evaluated. -/
theorem sampleCommandWordsDecode : Obligations.SampleCommandWordsDecode :=
  ⟨decode_encode .nop, decode_encode .clr, decode_encode (.push 0xAA), decode_encode .enc, decode_encode .rank,
    decode_encode .build, decode_encode .pack, decode_encode .run, decode_encode (.lookup 6), by decide, by decide⟩

end Sys2Proof
end

section
/-! One step (20_memory.md R54): what it is for each kind of event, that it always answers, and the ways it can change
the block: not at all, by a clear, or by the effect of one command that is allowed. -/

namespace Sys2Proof.Machine

/-! ### Single steps -/

/-- Settles O6: a write to `CMD` is the command its word decodes to. -/
theorem stepRunsTheDecodedCommand : Obligations.StepRunsTheDecodedCommand := by
  intro s addr w rest i haddr hdecode
  rw [step_write, busWrite_cmd haddr, commandWrite, hdecode]

/-- Settles O7: without an event `deliver` answers its argument. -/
theorem idleStepKeepsTheState : Obligations.IdleStepKeepsTheState := by
  intro s hbus
  rw [step, deliver, hbus]

/-- Settles O8: an idle step answers its state, and every event answers one. -/
theorem everyStepAnswersNext : Obligations.EveryStepAnswersNext := by
  intro s
  rcases hbus : s.bus with _ | ⟨e, es⟩
  · exact ⟨s, idleStepKeepsTheState s hbus⟩
  · rw [step, deliver, hbus]
    exact busEvent_next e (s.withBus es)

/-- Settles O22: both events are `State.cleared`. -/
theorem resetAbandonsACommand : Obligations.ResetAbandonsACommand := fun _ _ _ _ => rfl

/-! ### Flags -/

/-- Settles O16: `raise` sets one flag (`set_get`), a clear sets none. -/
theorem atMostOneFlagARises : Obligations.AtMostOneFlagARises := by
  intro s t f g h hfg hf hft hg
  rcases step_err h with herr | ⟨x, herr⟩ | ⟨e, es, -, -, rfl⟩
  · rwa [herr]
  · rw [herr, set_get, hf, Bool.or_false, decide_eq_true_iff] at hft
    rw [herr, set_get, hg, Bool.or_false, decide_eq_false_iff_not]
    exact fun hgx => hfg (hft.trans hgx.symm)
  · cases g <;> rfl

/-- Settles O17: raising a flag clears none; a clear is a clearing event and clears all. -/
theorem flagsAreSticky : Obligations.FlagsAreSticky := by
  intro s t h
  rcases step_err h with herr | ⟨x, herr⟩ | ⟨e, es, hbus, hclear, rfl⟩
  · exact .inl fun f hf => by rwa [herr]
  · exact .inl fun f hf => by rw [herr]; exact get_set_of_get x hf
  · exact .inr ⟨⟨e, es, hbus, hclear⟩, fun f => by cases f <;> rfl⟩

/-! ### The frame of a command (10_state.md section 6) -/

theorem pushEffect_frame (b : Byte) (s : State) :
    ∃ e m n, pushEffect b s = { s with err := e, inMem := m, nbytes := n } := by
  by_cases hfull : s.nbytes = s.cfg.nmax
  · exact ⟨_, _, _, pushEffect_of_full hfull b⟩
  · exact ⟨_, _, _, pushEffect_of_room hfull b⟩

theorem packStage_frame (s : State) :
    ∃ e p n o w, packStage s = { s with err := e, phase := p, nout := n, out := o, wstate := w } := by
  rcases packStage_cases s with ⟨-, h⟩ | ⟨-, w, h⟩
  · exact ⟨_, _, _, _, _, h⟩
  · exact ⟨_, _, _, _, _, h⟩

theorem runStages_frame (s : State) :
    ∃ p np pk l r k tb c n o w, runStages s =
      { s with phase := p, npkt := np, pkt := pk, rleLen := l, rleBit := r, k := k, tbl := tb, codewidth := c,
               nout := n, out := o, wstate := w } := by
  obtain ⟨w, h⟩ := runStages_written s
  exact ⟨_, _, _, _, _, _, _, _, _, _, _, h⟩

/-- Settles O50: a refused command changes a flag only, and an allowed one the fields of its frame. -/
theorem eachMemoryHasOneWritingCommand : Obligations.EachMemoryHasOneWritingCommand := by
  intro i s t h
  rcases exec_cases h with ⟨-, rfl⟩ | ⟨-, rfl⟩
  · cases i with
    | push b =>
      obtain ⟨e, m, n, hframe⟩ := pushEffect_frame b s
      simp [effectOf, hframe]
    | pack =>
      obtain ⟨e, p, n, o, w, hframe⟩ := packStage_frame s
      simp [effectOf, hframe]
    | run =>
      obtain ⟨p, np, pk, l, r, k, tb, c, n, o, w, hframe⟩ := runStages_frame s
      simp [effectOf, hframe]
    | _ => simp [effectOf]
  · simp

/-! ### What a step does to the block -/

/-- States that differ at most in flags other than `ERR.NF`, in `LKP`, `SEL`, `IDX` and in the host's lists: the
pipeline's registers and all memories are the same. -/
def SamePipeline (s t : State) : Prop :=
  ∃ e l sel idx es ws, e.nf = s.err.nf
    ∧ t = { s with err := e, lkp := l, sel := sel, idx := idx, bus := es, replies := ws }

/-- The commands that write a memory or a register of the pipeline, `CLR` apart (10_state.md section 6). -/
def writesPipeline : Instr → Bool
  | .push _ | .enc | .rank | .build | .pack | .run => true
  | .nop | .clr | .lookup _ => false

theorem samePipeline_refl (s : State) : SamePipeline s s := ⟨_, _, _, _, _, _, rfl, rfl⟩

/-- Taking pending events changes nothing the pipeline holds. -/
theorem samePipeline_withBus (s : State) (es : List BusEvent) : SamePipeline s (s.withBus es) :=
  ⟨_, _, _, _, _, _, rfl, rfl⟩

theorem samePipeline_raise (s : State) {f : ErrFlag} (hf : f ≠ .nf) : SamePipeline s (s.raise f) :=
  ⟨_, _, _, _, _, _, (set_get s.err f .nf).trans (by simp [hf.symm, Err.get]), rfl⟩

theorem samePipeline_reply {s t : State} (h : SamePipeline s t) (w : Word) : SamePipeline s (t.reply w) := by
  obtain ⟨e, l, sel, idx, es, ws, hnf, rfl⟩ := h
  exact ⟨e, l, sel, idx, es, ws ++ [w], hnf, rfl⟩

theorem samePipeline_busRead (addr : Nat) (s : State) : SamePipeline s (busRead addr s) := by
  rcases busRead_cases addr s with ⟨w, h⟩ | h | h <;> rw [h]
  · exact samePipeline_reply (samePipeline_refl s) w
  · exact samePipeline_reply (samePipeline_raise s (by decide)) 0
  · exact samePipeline_reply (samePipeline_raise s (by decide)) 0

theorem samePipeline_of_withBus {s t : State} {es : List BusEvent} (h : SamePipeline (s.withBus es) t) :
    SamePipeline s t := by
  obtain ⟨e, l, sel, idx, bus, ws, hnf, rfl⟩ := h
  exact ⟨e, l, sel, idx, bus, ws, hnf, rfl⟩

/-- A command leaves the pipeline alone, clears the block, or is one of its six commands and allowed. -/
theorem exec_pipeline {i : Instr} {s t : State} (h : exec i s = .next t) :
    SamePipeline s t ∨ (i = .clr ∧ t = s.cleared)
      ∨ (writesPipeline i = true ∧ commandAllowed i s ∧ t = effectOf i s) := by
  rcases exec_cases h with ⟨hlegal, rfl⟩ | ⟨-, rfl⟩
  · rw [legal_iff_commandAllowed] at hlegal
    cases i with
    | nop => exact .inl (samePipeline_refl s)
    | clr => exact .inr (.inl ⟨rfl, rfl⟩)
    | lookup n => exact .inl ⟨_, _, _, _, _, _, rfl, rfl⟩
    | _ => exact .inr (.inr ⟨rfl, hlegal, rfl⟩)
  · exact .inl (samePipeline_raise s (by decide))

/-- All that a step can do to the pipeline: nothing, a clear, or the effect of one command that is allowed. -/
theorem step_pipeline {s t : State} (h : step s = .next t) :
    SamePipeline s t
      ∨ (∃ e es, s.bus = e :: es ∧ clearingEvent e ∧ t = (s.withBus es).cleared)
      ∨ ∃ addr i es, s.bus = .write addr (encode i) :: es ∧ addr % 256 = 0 ∧ writesPipeline i = true
          ∧ commandAllowed i s ∧ t = effectOf i (s.withBus es) := by
  rcases step_cases h with ⟨-, rfl⟩ | ⟨e, es, hbus, hevent⟩
  · exact .inl (samePipeline_refl _)
  rcases busEvent_cases hevent with ⟨addr, rfl, rfl⟩ | ⟨addr, v, rfl, hwrite⟩ | ⟨hclear, rfl⟩
  · exact .inl (samePipeline_of_withBus (samePipeline_busRead addr _))
  · rcases busWrite_cases hwrite with ⟨hreg, i, hdecode, hexec⟩ | ⟨-, -, rfl⟩ | ⟨-, rfl⟩ | ⟨-, rfl⟩ | rfl
    · rcases exec_pipeline hexec with hsame | ⟨rfl, rfl⟩ | ⟨hwrites, hallowed, rfl⟩
      · exact .inl (samePipeline_of_withBus hsame)
      · exact .inr (.inl ⟨_, es, hbus, ⟨offset_of_cmd hreg, word_of_clr hdecode⟩, rfl⟩)
      · obtain rfl := decode_eq_ok_iff.1 hdecode
        exact .inr (.inr ⟨addr, i, es, hbus, offset_of_cmd hreg, hwrites, hallowed, rfl⟩)
    · exact .inl (samePipeline_of_withBus (samePipeline_raise _ (by decide)))
    · exact .inl ⟨_, _, _, _, _, _, rfl, rfl⟩
    · exact .inl ⟨_, _, _, _, _, _, rfl, rfl⟩
    · exact .inl (samePipeline_of_withBus (samePipeline_raise _ (by decide)))
  · refine .inr (.inl ⟨e, es, hbus, ?_, rfl⟩)
    rcases hclear with rfl | ⟨_, _, rfl⟩ <;> trivial

/-- Settles O9: no command has `NMAX` in its frame, and a clear keeps it. -/
theorem configurationNeverChanges : Obligations.ConfigurationNeverChanges := by
  intro s t h
  rcases step_pipeline h with ⟨e, l, sel, idx, es, ws, -, rfl⟩ | ⟨e, es, -, -, rfl⟩
    | ⟨addr, i, es, -, -, -, hallowed, rfl⟩
  · rfl
  · rfl
  · have hexec : exec i (s.withBus es) = .next (effectOf i (s.withBus es)) := exec_of_allowed hallowed
    obtain ⟨-, -, -, -, -, -, -, hcfg, -⟩ := eachMemoryHasOneWritingCommand i _ _ hexec
    exact hcfg

/-- Settles O27: the effects that move the phase are those of the four stages, one forward, and of `RUN`. -/
theorem phaseMovesOneForward : Obligations.PhaseMovesOneForward := by
  intro s t h
  rcases step_pipeline h with ⟨e, l, sel, idx, es, ws, -, rfl⟩ | ⟨e, es, hbus, hclear, rfl⟩
    | ⟨addr, i, es, hbus, haddr, hwrites, hallowed, rfl⟩
  · exact .inl rfl
  · exact .inr (.inr (.inl ⟨rfl, e, es, hbus, hclear⟩))
  · have forward : ∀ {p q : Phase}, s.phase = p → q.number = p.number + 1 → q.number = s.phase.number + 1 := by
      rintro p q rfl hq
      exact hq
    cases i with
    | push b => exact .inl (pushEffect_phase b _)
    | enc => exact .inr (.inl (forward hallowed.1 rfl))
    | rank => exact .inr (.inl (forward hallowed.1 rfl))
    | build => exact .inr (.inl (forward hallowed.1 rfl))
    | pack =>
      rcases packStage_phase (s.withBus es) with hpacked | ⟨hsame, -⟩
      · exact .inr (.inl (forward hallowed.1 (hpacked ▸ rfl)))
      · exact .inl hsame
    | run => exact .inr (.inr (.inr ⟨hallowed.1, runStages_phase _, addr, es, hbus, haddr⟩))
    | nop => cases hwrites
    | clr => cases hwrites
    | lookup n => cases hwrites

end Sys2Proof.Machine
end

section
/-! The invariants of the state (10_state.md section 7, 60_exceptions.md section 7): the reset state meets them, every
effect of a command keeps them in the phases that allow the command, and so every step keeps them. -/

namespace Sys2Proof.Machine

theorem putFrom_listed {α : Type} (m : Mem α) (vs : List α) {i : Nat} (h : i < vs.length) :
    (Mem.entry? (Mem.putFrom m 0 vs) i).isSome := by
  rw [entry?_putFrom_zero, if_pos h, List.getElem?_eq_getElem h]
  rfl

/-- The run the encoder is in is part of the stream (42_rle_encoder.md R110). -/
theorem rleEncode_len_le (bits : List Bool) : (rleEncode bits).len ≤ bits.length := by
  by_cases hbits : bits = []
  · subst hbits
    simp [rleEncode_nil]
  · obtain ⟨r, hr, heq⟩ := rleEncode_after hbits
    have hlen := congrArg List.length hr.stream
    rw [List.length_append, List.length_replicate] at hlen
    rw [heq]
    exact hlen ▸ Nat.le_add_left _ _

/-- What holds of every packet of the list holds of every valid entry of `PKT`. -/
theorem pktAt_mem_packets {s : State} {i : Nat} (hi : i < s.npkt) : s.pktAt i ∈ s.packets :=
  List.mem_of_getElem? (packets_getElem s hi)

theorem encStage_sum (s : State) : (encStage s).packetLengths.sum = 8 * s.nbytes := by
  rw [State.packetLengths, packets_encStage, rleEncode_sum, inputBits_length]

theorem encStage_length_pos {s : State} {i : Nat} (hi : i < (encStage s).npkt) : 1 ≤ ((encStage s).pktAt i).length :=
  rleEncode_pos s.inputBits _ (packets_encStage s ▸ pktAt_mem_packets hi)

/-! ### The invariant after each effect -/

theorem inv_samePipeline {s t : State} (hs : s.Inv) (h : SamePipeline s t) : t.Inv := by
  obtain ⟨e, l, sel, idx, es, ws, hnf, rfl⟩ := h
  exact { hs with noMiss := hnf.trans hs.noMiss }

/-- The reset state, whatever the model's own fields hold. -/
theorem inv_resetWith {c : Config} (hc : c.wf) (d : Nat) (es : List BusEvent) (ws : List Word) :
    State.Inv { State.resetWith c with draws := d, bus := es, replies := ws } where
  cfgWf := hc
  inWf := empty_wf
  pktWf := empty_wf
  tblWf := empty_wf
  outWf := empty_wf
  inListed i hi := absurd hi (Nat.not_lt_zero i)
  pktListed i hi := absurd hi (Nat.not_lt_zero i)
  tblListed i hi := absurd hi (Nat.not_lt_zero i)
  outListed i hi := absurd hi (Nat.not_lt_zero i)
  nbytesLe := Nat.zero_le _
  noPackets _ := rfl
  noTable _ := rfl
  noWidth _ := rfl
  noOutput _ := rfl
  lengthSum _ := rfl
  lengthPos i hi := absurd hi (Nat.not_lt_zero i)
  alternates i hi := absurd hi (Nat.not_lt_zero _)
  runsDistinct := List.nodup_nil
  runsOccur i hi := absurd hi (Nat.not_lt_zero i)
  runsCover _ i hi := absurd hi (Nat.not_lt_zero i)
  counts i hi := absurd hi (Nat.not_lt_zero i)
  countsDescend i hi := absurd hi (Nat.not_lt_zero _)
  rleLenLe := Nat.zero_le _
  width _ := rfl
  outputSize h := by cases h
  writerClear := rfl
  noMiss := rfl

theorem inv_cleared {s : State} (hs : s.Inv) : s.cleared.Inv := inv_resetWith hs.cfgWf _ _ _

/-- `PUSH` below capacity adds one listed entry; in `LOAD` nothing else of the invariant speaks of `IN`. -/
theorem inv_push {s : State} (hs : s.Inv) (hload : s.phase = .load) (hroom : s.nbytes ≠ s.cfg.nmax) (b : Byte) :
    State.Inv { s with inMem := Mem.put s.inMem s.nbytes b, nbytes := s.nbytes + 1 } := by
  have hnumber : s.phase.number = 0 := by rw [hload]; rfl
  refine { hs with
    inWf := put_wf hs.inWf _ _
    inListed := fun i hi => ?_
    nbytesLe := Nat.lt_of_le_of_ne hs.nbytesLe hroom
    lengthSum := fun h => by simp [hnumber] at h
    rleLenLe := hs.rleLenLe.trans (Nat.mul_le_mul_left 8 (Nat.le_succ _)) }
  simp only [entry?_put]
  split
  · rfl
  · exact hs.inListed i (by simp only at hi; omega)

theorem inv_encStage {s : State} (hs : s.Inv) (hload : s.phase = .load) : (encStage s).Inv := by
  have hbefore : s.phase.number = 0 := by rw [hload]; rfl
  have hafter : (encStage s).phase.number = 1 := rfl
  have hk : s.k = 0 := hs.noTable (by omega)
  exact { hs with
    pktWf := putFrom_wf hs.pktWf 0 _
    pktListed := fun i hi => putFrom_listed s.pkt _ hi
    noPackets := fun h => by cases h
    noTable := fun _ => hk
    noWidth := fun _ => hs.noWidth (by omega)
    noOutput := fun _ => hs.noOutput (by omega)
    lengthSum := fun _ => encStage_sum s
    lengthPos := fun i hi => encStage_length_pos hi
    alternates := fun i hi => bitValue_ne_of_alternating (encStage_alternating s) hi
    runsOccur := fun i hi => absurd (hk ▸ hi) (Nat.not_lt_zero i)
    runsCover := fun h => by omega
    counts := fun i hi => absurd (hk ▸ hi) (Nat.not_lt_zero i)
    rleLenLe := inputBits_length s ▸ rleEncode_len_le s.inputBits
    width := fun h => by omega
    outputSize := fun h => by cases h }

theorem inv_rankStage {s : State} (hs : s.Inv) (hencoded : s.phase = .encoded) : (rankStage s).Inv := by
  have hbefore : s.phase.number = 1 := by rw [hencoded]; rfl
  have hafter : (rankStage s).phase.number = 2 := rfl
  exact { hs with
    tblWf := putFrom_wf hs.tblWf 0 _
    tblListed := fun i hi => putFrom_listed s.tbl _ hi
    noPackets := fun h => by cases h
    noTable := fun h => by omega
    noWidth := fun _ => hs.noWidth (by omega)
    noOutput := fun _ => hs.noOutput (by omega)
    lengthSum := fun _ => hs.lengthSum (by omega)
    runsDistinct := rankStage_runs_nodup s
    runsOccur := fun i hi => (mem_packetLengths_iff_ranked s _).2 ⟨i, hi, rfl⟩
    runsCover := fun _ p hp => by
      rw [tableRuns_rankStage, rankRuns_cover]
      exact (mem_packetLengths s _).2 ⟨p, hp, rfl⟩
    counts := fun i hi => rankStage_count hi
    countsDescend := fun i hi => by
      rcases tblAt_of_pairwise (rankStage_before s) (Nat.lt_succ_self i) hi with hlt | ⟨heq, -⟩
      · exact hlt.le
      · exact heq.ge
    width := fun h => by omega
    outputSize := fun h => by cases h }

theorem inv_buildStage {s : State} (hs : s.Inv) (hranked : s.phase = .ranked) : (buildStage s).Inv := by
  have hbefore : s.phase.number = 2 := by rw [hranked]; rfl
  have hafter : (buildStage s).phase.number = 3 := rfl
  exact { hs with
    noPackets := fun h => by cases h
    noTable := fun h => by omega
    noWidth := fun h => by omega
    noOutput := fun _ => hs.noOutput (by omega)
    lengthSum := fun _ => hs.lengthSum (by omega)
    runsCover := fun _ => hs.runsCover (by omega)
    width := fun _ => rfl
    outputSize := fun h => by cases h }

theorem inv_packWritten {s : State} (hs : s.Inv) (hbuilt : s.phase = .built) {w : Writer}
    (hw : WriterAfter s.codeStream w) : (packWritten s w).Inv := by
  have hbefore : s.phase.number = 3 := by rw [hbuilt]; rfl
  have hafter : (packWritten s w).phase.number = 4 := rfl
  exact { hs with
    outWf := putFrom_wf hs.outWf 0 _
    outListed := fun i hi => putFrom_listed s.out _ hi
    noPackets := fun h => by cases h
    noTable := fun h => by omega
    noWidth := fun h => by omega
    noOutput := fun h => by omega
    lengthSum := fun _ => hs.lengthSum (by omega)
    runsCover := fun _ => hs.runsCover (by omega)
    width := fun _ => hs.width (by omega)
    outputSize := fun _ => packWritten_nout hw
    writerClear := rfl }

/-- Under the invariant every length is in the table, so `PACK` completes (45_bit_packed_writer.md R154). -/
theorem packStage_of_inv {s : State} (hs : s.Inv) (hbuilt : s.phase = .built) :
    ∃ w, WriterAfter s.codeStream w ∧ packStage s = packWritten s w := by
  have hcover := packetLengths_subset_tableRuns hs (by rw [hbuilt]; decide)
  exact ⟨_, packWriter_after _ _ _, packStage_of_written (packRuns_written writerStart hcover)⟩

theorem inv_packStage {s : State} (hs : s.Inv) (hbuilt : s.phase = .built) : (packStage s).Inv := by
  obtain ⟨w, hw, hpack⟩ := packStage_of_inv hs hbuilt
  rw [hpack]
  exact inv_packWritten hs hbuilt hw

theorem inv_pushEffect {s : State} (hs : s.Inv) (hload : s.phase = .load) (b : Byte) : (pushEffect b s).Inv := by
  by_cases hfull : s.nbytes = s.cfg.nmax
  · rw [pushEffect_of_full hfull]
    exact inv_samePipeline hs (samePipeline_raise s (by decide))
  · rw [pushEffect_of_room hfull]
    exact inv_push hs hload hfull b

/-- Every command that is allowed keeps the invariant; `RUN` does by its four stages. -/
theorem inv_effectOf {i : Instr} {s : State} (hs : s.Inv) (hallowed : commandAllowed i s)
    (hwrites : writesPipeline i = true) : (effectOf i s).Inv := by
  cases i with
  | push b => exact inv_pushEffect hs hallowed.1 b
  | enc => exact inv_encStage hs hallowed.1
  | rank => exact inv_rankStage hs hallowed.1
  | build => exact inv_buildStage hs hallowed.1
  | pack => exact inv_packStage hs hallowed.1
  | run => exact inv_packStage (inv_buildStage (inv_rankStage (inv_encStage hs hallowed.1) rfl) rfl) rfl
  | nop => cases hwrites
  | clr => cases hwrites
  | lookup n => cases hwrites

/-- Settles O47: each of the three ways of `step_pipeline` keeps the invariant. -/
theorem stepKeepsTheInvariant : Obligations.StepKeepsTheInvariant := by
  intro s t hs h
  have hs' : ∀ es, (s.withBus es).Inv := fun es => inv_samePipeline hs (samePipeline_withBus s es)
  rcases step_pipeline h with hsame | ⟨e, es, -, -, rfl⟩ | ⟨addr, i, es, -, -, hwrites, hallowed, rfl⟩
  · exact inv_samePipeline hs hsame
  · exact inv_cleared (hs' es)
  · exact inv_effectOf (hs' es) hallowed hwrites

/-! ### The pipeline's artifacts (60_exceptions.md R175) -/

theorem artifacts_samePipeline {s t : State} (hs : s.Artifacts) (h : SamePipeline s t) : t.Artifacts := by
  obtain ⟨e, l, sel, idx, es, ws, -, rfl⟩ := h
  exact ⟨hs.packets, hs.table, hs.width, hs.output⟩

/-- In `LOAD` no stage has run, so there is nothing to hold. -/
theorem artifacts_load {s : State} (hload : s.phase = .load) : s.Artifacts := by
  have hnumber : s.phase.number = 0 := by rw [hload]; rfl
  exact ⟨fun h => by omega, fun h => by omega, fun h => by omega, fun h => by rw [hload] at h; cases h⟩

theorem artifacts_encStage (s : State) : (encStage s).Artifacts := by
  have hafter : (encStage s).phase.number = 1 := rfl
  exact ⟨fun _ => packets_encStage s, fun h => by omega, fun h => by omega, fun h => by cases h⟩

theorem artifacts_rankStage {s : State} (hs : s.Artifacts) (hencoded : s.phase = .encoded) :
    (rankStage s).Artifacts := by
  have hbefore : s.phase.number = 1 := by rw [hencoded]; rfl
  have hafter : (rankStage s).phase.number = 2 := rfl
  have hpackets : s.packets = pipelinePackets s.inputBytes := hs.packets (by omega)
  refine ⟨fun _ => hpackets, fun _ => ?_, fun h => by omega, fun h => by cases h⟩
  rw [table_rankStage, State.packetLengths, hpackets]
  rfl

theorem artifacts_buildStage {s : State} (hs : s.Artifacts) (hranked : s.phase = .ranked) :
    (buildStage s).Artifacts := by
  have hbefore : s.phase.number = 2 := by rw [hranked]; rfl
  have htable : s.table = pipelineTable s.inputBytes := hs.table (by omega)
  refine ⟨fun _ => hs.packets (by omega), fun _ => htable, fun _ => ?_, fun h => by cases h⟩
  rw [buildStage_codewidth, ← table_length, htable]
  rfl

/-- In `BUILT` the loop of `PACK` works on the pipeline's own table, width and lengths. -/
theorem artifacts_packStage {s : State} (hs : s.Artifacts) (hbuilt : s.phase = .built) : (packStage s).Artifacts := by
  have hnumber : s.phase.number = 3 := by rw [hbuilt]; rfl
  have hpackets : s.packets = pipelinePackets s.inputBytes := hs.packets (by omega)
  have htable : s.table = pipelineTable s.inputBytes := hs.table (by omega)
  have hwidth : s.codewidth = codeWidth (pipelineTable s.inputBytes).length := hs.width (by omega)
  cases hloop : packRuns s.tableRuns s.codewidth s.packetLengths writerStart with
  | written w =>
    rw [packStage_of_written hloop]
    refine ⟨fun _ => hpackets, fun _ => htable, fun _ => hwidth, fun _ => ?_⟩
    rw [State.tableRuns, State.packetLengths, htable, hpackets, hwidth] at hloop
    have hinput : (packWritten s w).inputBytes = s.inputBytes := rfl
    rw [outputBytes_packWritten, hinput, pipelineOutput, hloop]
  | missed w =>
    rw [packStage_of_missed hloop]
    exact ⟨fun _ => hpackets, fun _ => htable, fun _ => hwidth, fun h => by cases hbuilt.symm.trans h⟩

theorem artifacts_runStages (s : State) : (runStages s).Artifacts :=
  artifacts_packStage (artifacts_buildStage (artifacts_rankStage (artifacts_encStage s) rfl) rfl) rfl

theorem artifacts_effectOf {i : Instr} {s : State} (hs : s.Artifacts) (hallowed : commandAllowed i s)
    (hwrites : writesPipeline i = true) : (effectOf i s).Artifacts := by
  cases i with
  | push b => exact artifacts_load ((pushEffect_phase b s).trans hallowed.1)
  | enc => exact artifacts_encStage s
  | rank => exact artifacts_rankStage hs hallowed.1
  | build => exact artifacts_buildStage hs hallowed.1
  | pack => exact artifacts_packStage hs hallowed.1
  | run => exact artifacts_runStages s
  | nop => cases hwrites
  | clr => cases hwrites
  | lookup n => cases hwrites

/-- Settles O48: each of the three ways of `step_pipeline` keeps the artifacts; a clear is back in `LOAD`. -/
theorem stepKeepsTheArtifacts : Obligations.StepKeepsTheArtifacts := by
  intro s t hs h
  rcases step_pipeline h with hsame | ⟨e, es, -, -, rfl⟩ | ⟨addr, i, es, -, -, hwrites, hallowed, rfl⟩
  · exact artifacts_samePipeline hs hsame
  · exact artifacts_load rfl
  · exact artifacts_effectOf (artifacts_samePipeline hs (samePipeline_withBus s es)) hallowed hwrites

/-- Settles O49: the reset state has no valid entry and is in `LOAD`. -/
theorem resetMeetsTheInvariants : Obligations.ResetMeetsTheInvariants :=
  ⟨inv_resetWith (by decide) 0 [] [], fun _ hc => ⟨inv_resetWith hc 0 [] [], artifacts_load rfl⟩⟩

end Sys2Proof.Machine
end

section
/-! Reads (20_memory.md sections 2 and 3): the number a register's fields make, the numbers of the entry the window
shows, and that a read changes nothing a second one could see. -/

namespace Sys2Proof.Machine

/-! ### The registers outside the window -/

/-- What a register outside the window reads as: its fields, each at its place (10_state.md section 2). -/
def Reg.fieldValue (s : State) : Reg → Nat
  | .cmd | .rd0 | .rd1 => 0
  | .status =>
    (match s.phase with | .load => 0 | .encoded => 1 | .ranked => 2 | .built => 3 | .packed => 4)
      + 8 * (s.err.ovf || s.err.nf).toNat
  | .err => s.err.ovf.toNat + 2 * s.err.seq.toNat + 4 * s.err.ill.toNat + 8 * s.err.nf.toNat + 16 * s.err.idx.toNat
      + 32 * s.err.addr.toNat
  | .nbytes => s.nbytes
  | .npkt => s.npkt
  | .k => s.k
  | .codewidth => s.codewidth
  | .nout => s.nout
  | .lkp => s.lkp.code.toNat + 2 ^ 31 * s.lkp.nf.toNat
  | .sel => s.sel.toNat
  | .idx => s.idx.toNat
  | .rleLen => s.rleLen
  | .rleBit => (s.rleBit.bit && !s.rleBit.none).toNat + 2 * s.rleBit.none.toNat + 4 * s.rleBit.drop.toNat
  | .wstate => s.wstate.acc.toNat + 256 * s.wstate.cur.toNat

theorem fieldValue_status (s : State) : Reg.fieldValue s .status = s.phase.number + 8 * s.fatal.toNat := by
  unfold Reg.fieldValue State.fatal
  cases s.phase <;> rfl

theorem readReg_fieldValue {r : Reg} (hr : r ∈ plainRegs) (s : State) :
    readReg r s = s.reply (BitVec.ofNat 32 (r.fieldValue s)) := by
  cases r
  case rd0 => exact absurd hr (by decide)
  case rd1 => exact absurd hr (by decide)
  case status => rw [fieldValue_status, ← statusWord_eq]; rfl
  case err => exact congrArg s.reply (errWord_eq _)
  case lkp => exact congrArg s.reply (lkpWord_eq _)
  case sel => exact congrArg s.reply (BitVec.ofNat_toNat 32 s.sel).symm
  case idx => exact congrArg s.reply ((BitVec.ofNat_toNat 32 s.idx).trans (BitVec.setWidth_eq _)).symm
  case rleBit => exact congrArg s.reply (rleBitWord_eq _)
  case wstate => exact congrArg s.reply (wstateWord_eq _)
  all_goals rfl

/-- Settles O11: the list of the statement is the offset and the field value of each plain register. -/
theorem registerReadsReturnTheirFields : Obligations.RegisterReadsReturnTheirFields := by
  intro s rest
  have hplain : ∀ p ∈ plainRegs.map (fun r => (r.offset.toNat, r.fieldValue s)), ∀ addr : Nat, addr % 256 = p.1 →
      step { s with bus := .read addr :: rest } =
        .next { s with bus := rest, replies := s.replies ++ [BitVec.ofNat 32 p.2] } := by
    rw [List.forall_mem_map]
    intro r hr addr haddr
    rw [step_read, busRead_of_offset haddr, readReg_fieldValue hr]
    rfl
  exact hplain

/-! ### The window -/

/-- The two numbers of the entry that `SEL` and `IDX` select (R48 to R51). -/
def State.windowEntry (s : State) : Nat × Nat :=
  let i := s.idx.toNat
  if s.sel = 0 then ((s.inAt i).toNat, 0)
  else if s.sel = 1 then ((s.pktAt i).length, (s.pktAt i).bitValue.toNat)
  else if s.sel = 2 then ((s.tblAt i).runLength, (s.tblAt i).count)
  else ((s.outAt i).toNat, 0)

theorem setWidth_ofBool_eq_ofNat (b : Bool) : (BitVec.ofBool b).setWidth 32 = BitVec.ofNat 32 b.toNat := by
  cases b <;> rfl

/-- In range the window words are the entry's numbers. -/
theorem window_of_lt_count {s : State} (h : s.idx.toNat < s.selectedCount) :
    s.window = some (BitVec.ofNat 32 s.windowEntry.1, BitVec.ofNat 32 s.windowEntry.2) := by
  unfold State.selectedCount at h
  unfold State.window State.windowEntry
  dsimp only
  split at h
  case isTrue hsel => rw [if_pos hsel, if_pos hsel, if_pos h, BitVec.ofNat_toNat]; rfl
  case isFalse hin =>
    rw [if_neg hin, if_neg hin]
    split at h
    case isTrue hsel => rw [if_pos hsel, if_pos hsel, if_pos h, setWidth_ofBool_eq_ofNat]
    case isFalse hpkt =>
      rw [if_neg hpkt, if_neg hpkt]
      split at h
      case isTrue hsel => rw [if_pos hsel, if_pos hsel, if_pos h]
      case isFalse htbl => rw [if_neg htbl, if_neg htbl, if_pos h, BitVec.ofNat_toNat]; rfl

/-- Settles O13: `RD0` and `RD1` are the two places of the window, whose words are the selected entry's numbers. -/
theorem windowInRangeReadsTheEntry : Obligations.WindowInRangeReadsTheEntry := by
  intro s rest addr0 addr1 haddr0 haddr1 hrange
  have hwindow : State.window { s with bus := rest } = _ := window_of_lt_count hrange
  refine ⟨s.windowEntry.1, s.windowEntry.2, ?_, ?_, ?_, ?_, ?_, ?_⟩
  · rw [step_read, busRead_of_offset (r := .rd0) haddr0, readReg, windowRead, hwindow]
    rfl
  · rw [step_read, busRead_of_offset (r := .rd1) haddr1, readReg, windowRead, hwindow]
    rfl
  all_goals
    intro hsel
    simp [State.windowEntry, hsel]

/-! ### Repeated reads -/

/-- The three kinds of read, whatever the host's lists hold: a word and nothing else; a window register out of range; no
register at all. In the last two the flags before do not matter. -/
theorem busRead_kinds (addr : Nat) (s : State) :
    (∃ w, ∀ es ws, busRead addr { s with bus := es, replies := ws } =
        State.reply { s with bus := es, replies := ws } w)
      ∨ ((addr % 256 = 0x2C ∨ addr % 256 = 0x30) ∧ ∀ e es ws,
          busRead addr { s with err := e, bus := es, replies := ws } =
            State.reply { s with err := e.set .idx, bus := es, replies := ws } 0)
      ∨ ((addr % 256 % 4 ≠ 0 ∨ 0x40 ≤ addr % 256) ∧ ∀ e es ws,
          busRead addr { s with err := e, bus := es, replies := ws } =
            State.reply { s with err := e.set .addr, bus := es, replies := ws } 0) := by
  by_cases hbad : addr % 256 % 4 ≠ 0 ∨ 0x40 ≤ addr % 256
  · exact .inr (.inr ⟨hbad, fun e es ws => busRead_of_no_register hbad _⟩)
  by_cases hwindow : addr % 256 = 0x2C ∨ addr % 256 = 0x30
  · obtain ⟨pick, hread⟩ := busRead_window hwindow
    rcases Nat.lt_or_ge s.idx.toNat s.selectedCount with hlt | hge
    · refine .inl ⟨pick (BitVec.ofNat 32 s.windowEntry.1, BitVec.ofNat 32 s.windowEntry.2), fun es ws => ?_⟩
      have hsome : State.window { s with bus := es, replies := ws } =
          some (BitVec.ofNat 32 s.windowEntry.1, BitVec.ofNat 32 s.windowEntry.2) := window_of_lt_count hlt
      rw [hread, windowRead, hsome]
    · exact .inr (.inl ⟨hwindow, fun e es ws => by
        rw [hread, windowRead_of_count_le (s := { s with err := e, bus := es, replies := ws }) hge]; rfl⟩)
  · rw [← regAt?_offsetOf_eq_none_iff] at hbad
    obtain ⟨r, hr⟩ := Option.ne_none_iff_exists'.1 hbad
    have hoff := (regAt?_offsetOf_iff addr r).1 hr
    have hplain : r ∈ plainRegs := by
      cases r
      case rd0 => exact absurd (.inl hoff) hwindow
      case rd1 => exact absurd (.inr hoff) hwindow
      all_goals decide
    exact .inl ⟨BitVec.ofNat 32 (r.fieldValue s), fun es ws =>
      (busRead_of_offset hoff _).trans (readReg_fieldValue hplain { s with bus := es, replies := ws })⟩

/-- Raising a flag twice is raising it once (60_exceptions.md R168). -/
theorem set_set (e : Err) (f : ErrFlag) : (e.set f).set f = e.set f := by cases f <;> rfl

/-- A flag that is raised leaves every other one as it was. -/
theorem set_get_of_ne (e : Err) {f g : ErrFlag} (h : g ≠ f) : (e.set f).get g = e.get g := by
  rw [set_get, decide_eq_false h, Bool.false_or]

/-- Settles O12: by the kinds of read, each of which is of the same kind, with the same word, the second time. -/
theorem readsAreFreeOfOtherEffects : Obligations.ReadsAreFreeOfOtherEffects := by
  intro s addr rest
  have htwice : ∀ w : Word, s.replies ++ [w, w] = s.replies ++ [w] ++ [w] := fun w => (List.append_assoc _ [w] [w]).symm
  rcases busRead_kinds addr s with ⟨w, hread⟩ | ⟨hwindow, hread⟩ | ⟨hbad, hread⟩
  · refine ⟨w, s.err, fun _ _ _ => rfl, .inl rfl, .inl rfl, congrArg _ (hread _ _), ?_⟩
    rw [htwice]
    exact congrArg _ (hread _ _)
  · refine ⟨0, s.err.set .idx, fun f hidx _ => set_get_of_ne _ hidx, .inr ⟨rfl, hwindow⟩, .inl rfl,
      congrArg _ (hread _ _ _), ?_⟩
    have hsecond := hread (s.err.set .idx) rest (s.replies ++ [0])
    rw [set_set] at hsecond
    rw [htwice]
    exact congrArg _ hsecond
  · refine ⟨0, s.err.set .addr, fun f _ haddr => set_get_of_ne _ haddr, .inl rfl, .inr ⟨rfl, hbad⟩,
      congrArg _ (hread _ _ _), ?_⟩
    have hsecond := hread (s.err.set .addr) rest (s.replies ++ [0])
    rw [set_set] at hsecond
    rw [htwice]
    exact congrArg _ hsecond

end Sys2Proof.Machine
end

section
/-! What the invariant gives of the table and of `PACK` (44_code_table.md section 3, 45_bit_packed_writer.md section 3),
and the bounds of every count and length (00_scope.md R6, R7). -/

namespace Sys2Proof.Machine

/-! ### `LOOKUP` of an entry -/

/-- The phases that have a table come after `ENC`, `RANK` and `BUILD`. -/
theorem number_of_built_or_packed {s : State} (h : s.phase = .built ∨ s.phase = .packed) : 3 ≤ s.phase.number := by
  rcases h with h | h <;> rw [h] <;> decide

theorem runLength_le {s : State} (hs : s.Inv) (hnumber : 1 ≤ s.phase.number) {i : Nat} (hi : i < s.k) :
    (s.tblAt i).runLength ≤ 2 ^ 23 :=
  packetLength_le hs hnumber (hs.runsOccur i hi)

/-- The codes `0 .. K-1` fit in the width (44_code_table.md R138). -/
theorem index_lt_two_pow_codewidth {s : State} (hs : s.Inv) (hnumber : 3 ≤ s.phase.number) {i : Nat} (hi : i < s.k) :
    i < 2 ^ s.codewidth := by
  rw [hs.width hnumber]
  exact hi.trans_le (le_two_pow_codeWidth s.k)

/-- Settles O40: the run length fits in the operand, and, run lengths being distinct, entry `i` is the first of its. -/
theorem lookupOfAnEntryIsItsIndex : Obligations.LookupOfAnEntryIsItsIndex := by
  intro s i hs hphase hi
  have hnumber := number_of_built_or_packed hphase
  have hle := runLength_le hs (by omega) hi
  have hkey : (BitVec.ofNat 24 (s.tblAt i).runLength).toNat = (s.tblAt i).runLength := by
    rw [BitVec.toNat_ofNat, Nat.mod_eq_of_lt (by omega)]
  have hfirst : ∀ j, j < i → (s.tblAt j).runLength ≠ (s.tblAt i).runLength := fun j hj heq =>
    hj.ne (index_eq_of_runLength_eq hs.runsDistinct (hj.trans hi) hi heq)
  refine ⟨?_, index_lt_two_pow_codewidth hs hnumber hi⟩
  rw [exec_lookup hphase, hkey, lookupCode_of_first hi rfl hfirst, lookupResult]

/-! ### `PACK` -/

/-- Settles O43: the state is `packWritten s w`, which keeps `ERR`. -/
theorem packNeverMissesUnderTheInvariant : Obligations.PackNeverMissesUnderTheInvariant := by
  intro s hs hbuilt hovf
  obtain ⟨w, -, hpack⟩ := packStage_of_inv hs hbuilt
  refine ⟨packWritten s w, ?_, rfl, rfl, rfl, hovf, hs.noMiss⟩
  rw [exec_of_allowed (i := .pack) ⟨hbuilt, hovf, hs.noMiss⟩]
  exact congrArg _ hpack

/-- Settles O44: the loop of `PACK` reads the run lengths, the width and the lengths, and the output is what it
ends with. -/
theorem packIgnoresBitValues : Obligations.PackIgnoresBitValues := by
  intro s₁ s₂ hbuilt₁ hbuilt₂ hovf₁ hnf₁ hovf₂ hnf₂ hlengths hruns hwidth
  refine ⟨packStage s₁, packStage s₂, exec_of_allowed (i := .pack) ⟨hbuilt₁, hovf₁, hnf₁⟩,
    exec_of_allowed (i := .pack) ⟨hbuilt₂, hovf₂, hnf₂⟩, ?_⟩
  cases hloop : packRuns s₁.tableRuns s₁.codewidth s₁.packetLengths writerStart with
  | written w =>
    have hloop₂ := hloop
    rw [hruns, hwidth, hlengths] at hloop₂
    rw [packStage_of_written hloop, packStage_of_written hloop₂, outputBytes_packWritten, outputBytes_packWritten]
    exact ⟨rfl, rfl, rfl, hnf₁.trans hnf₂.symm⟩
  | missed w =>
    have hloop₂ := hloop
    rw [hruns, hwidth, hlengths] at hloop₂
    rw [packStage_of_missed hloop, packStage_of_missed hloop₂]
    exact ⟨rfl, rfl, hbuilt₁.trans hbuilt₂.symm, rfl⟩

/-! ### Capacities -/

/-- Every length is at least 1, so there are no more packets than bits (42_rle_encoder.md R118). -/
theorem length_le_sum_of_pos {lens : List Nat} (h : ∀ len ∈ lens, 1 ≤ len) : lens.length ≤ lens.sum := by
  have hle := List.card_nsmul_le_sum lens 1 h
  rwa [smul_eq_mul, mul_one] at hle

theorem npkt_le {s : State} (hs : s.Inv) : s.npkt ≤ 8 * s.nbytes := by
  by_cases hload : s.phase = .load
  · exact hs.noPackets hload ▸ Nat.zero_le _
  · have hnumber : 1 ≤ s.phase.number := by
      revert hload
      cases s.phase <;> decide
    rw [← packetLengths_length, ← hs.lengthSum hnumber]
    exact length_le_sum_of_pos fun _ => packetLength_pos hs

/-- A run length is in one entry only and is some packet's, so there are no more entries than packets. -/
theorem k_le_npkt {s : State} (hs : s.Inv) : s.k ≤ s.npkt := by
  rw [← tableRuns_length, ← packetLengths_length]
  refine (hs.runsDistinct.subperm fun len hlen => ?_).length_le
  obtain ⟨i, hi, rfl⟩ := (mem_tableRuns s len).1 hlen
  exact hs.runsOccur i hi

theorem codewidth_le {s : State} (hs : s.Inv) (hk : s.k ≤ 2 ^ 23) : s.codewidth ≤ 23 := by
  rcases Nat.lt_or_ge s.phase.number 3 with h | h
  · exact hs.noWidth h ▸ Nat.zero_le _
  · exact hs.width h ▸ codeWidth_le hk

/-- `OUT` holds at most 23 bits for every packet. -/
theorem nout_le {s : State} (hs : s.Inv) (hwidth : s.codewidth ≤ 23) : s.nout ≤ (s.npkt * 23 + 7) / 8 := by
  by_cases hpacked : s.phase = .packed
  · rw [hs.outputSize hpacked]
    exact Nat.div_le_div_right (Nat.add_le_add_right (Nat.mul_le_mul_left _ hwidth) 7)
  · have hnumber : s.phase.number < 4 := by
      revert hpacked
      cases s.phase <;> decide
    exact hs.noOutput hnumber ▸ Nat.zero_le _

/-- Where there is a packet or an entry, `ENC` has run. -/
theorem number_pos_of_packet {s : State} (hs : s.Inv) (h : 0 < s.npkt) : 1 ≤ s.phase.number := by
  by_contra hzero
  have hload : s.phase = .load := by
    revert hzero
    cases s.phase <;> decide
  exact h.ne' (hs.noPackets hload)

/-- Settles O52: every bound comes from `NPKT <= 8 * NBYTES <= 8 * NMAX <= 2^23`. -/
theorem capacitiesSuffice : Obligations.CapacitiesSuffice := by
  intro s hs
  obtain ⟨-, hnmax⟩ := hs.cfgWf
  have hnbytes := hs.nbytesLe
  have hnpkt := npkt_le hs
  have hk := k_le_npkt hs
  have hrle := hs.rleLenLe
  have hwidth := codewidth_le hs (by omega)
  have hnout := nout_le hs hwidth
  refine ⟨hnbytes, ?_, ?_, ?_, hwidth, by omega, by omega, by omega, hrle, by omega, fun i hi => ?_,
    fun i hi => ⟨?_, ?_⟩⟩
  · rw [Config.pmax]; omega
  · rw [Config.kmax, Config.pmax]; omega
  · rw [Config.omax, Config.pmax]; omega
  · exact packetLength_le hs (number_pos_of_packet hs (by omega)) ((mem_packetLengths s _).2 ⟨i, hi, rfl⟩)
  · exact runLength_le hs (number_pos_of_packet hs (by omega)) hi
  · calc (s.tblAt i).count = s.packetLengths.count _ := hs.counts i hi
      _ ≤ s.packetLengths.length := List.count_le_length
      _ = s.npkt := packetLengths_length s
      _ ≤ 2 ^ 23 := by omega

end Sys2Proof.Machine
end

section
/-! `PUSH` and `ENC` (41_control_commands.md section 2, 42_rle_encoder.md): the appended byte, the maximal runs, the
working registers, and the inputs whose runs are known. -/

namespace Sys2Proof.Machine

/-! ### `PUSH` -/

theorem exec_push {s : State} (hphase : s.phase = .load) (hovf : s.err.ovf = false) (hnf : s.err.nf = false)
    (hroom : s.nbytes ≠ s.cfg.nmax) (b : Byte) :
    exec (.push b) s = .next { s with inMem := Mem.put s.inMem s.nbytes b, nbytes := s.nbytes + 1 } := by
  rw [exec_of_allowed (i := .push b) ⟨hphase, hovf, hnf⟩, effectOf, pushEffect_of_room hroom, pushByte]

theorem inputBytes_push (s : State) (b : Byte) :
    State.inputBytes { s with inMem := Mem.put s.inMem s.nbytes b, nbytes := s.nbytes + 1 } = s.inputBytes ++ [b] := by
  have hold : ∀ i ∈ List.range s.nbytes,
      State.inAt { s with inMem := Mem.put s.inMem s.nbytes b, nbytes := s.nbytes + 1 } i = s.inAt i := fun i hi => by
    rw [inAt_push, if_neg (List.mem_range.1 hi).ne]
  simp only [State.inputBytes]
  rw [List.range_succ, List.map_append, List.map_congr_left hold, List.map_singleton, inAt_push, if_pos rfl]

/-- Settles O28: `PUSH` writes one entry, `IN[NBYTES]`. -/
theorem pushAppendsItsByte : Obligations.PushAppendsItsByte := by
  intro s b hphase hovf hnf hroom
  refine ⟨_, exec_push hphase hovf hnf hroom b, rfl, ?_, fun i hi => ?_, inputBytes_push s b, rfl⟩
  · rw [inAt_push, if_pos rfl]
  · rw [inAt_push, if_neg hi]

/-! ### The runs `ENC` leaves -/

/-- What a stage that writes from entry 0 on leaves at and beyond its count. -/
theorem entry?_putFrom_beyond {α : Type} (m : Mem α) {vs : List α} {i : Nat} (h : vs.length ≤ i) :
    Mem.entry? (Mem.putFrom m 0 vs) i = Mem.entry? m i := by
  rw [entry?_putFrom_zero, if_neg h.not_gt]

theorem pktAt_encStage_beyond {s : State} {i : Nat} (h : (encStage s).npkt ≤ i) : (encStage s).pktAt i = s.pktAt i := by
  rw [pktAt_encStage, List.getElem?_eq_none h, Option.getD_none]

/-- Settles O31: the packets are those of `rleEncode`, which alternate and expand to the stream. -/
theorem encLeavesTheMaximalRuns : Obligations.EncLeavesTheMaximalRuns := by
  intro s hphase hovf hnf
  refine ⟨encStage s, exec_enc hphase hovf hnf, ?_, fun _ => encStage_length_pos,
    fun _ => bitValue_ne_of_alternating (encStage_alternating s), rfl, rfl, fun _ => pktAt_encStage_beyond⟩
  rw [packets_encStage, rleEncode_stream]

theorem encStage_length_le {s : State} {i : Nat} (hi : i < (encStage s).npkt) :
    ((encStage s).pktAt i).length ≤ 8 * s.nbytes := by
  rw [← encStage_sum]
  exact List.le_sum_of_mem ((mem_packetLengths _ _).2 ⟨i, hi, rfl⟩)

theorem encStage_npkt_le (s : State) : (encStage s).npkt ≤ 8 * s.nbytes := by
  rw [← packetLengths_length, ← encStage_sum]
  refine length_le_sum_of_pos fun len hlen => ?_
  obtain ⟨i, hi, rfl⟩ := (mem_packetLengths _ _).1 hlen
  exact encStage_length_pos hi

/-- No packet, no bit: the lengths of no packet sum to 0. -/
theorem encStage_npkt_eq_zero_iff (s : State) : (encStage s).npkt = 0 ↔ s.nbytes = 0 := by
  constructor
  · intro h
    have hnil : (encStage s).packetLengths = [] := List.eq_nil_of_length_eq_zero ((packetLengths_length _).trans h)
    have hsum := encStage_sum s
    rw [hnil, List.sum_nil] at hsum
    omega
  · intro h
    have hle := encStage_npkt_le s
    omega

/-- Settles O32: the bounds follow from the sum of the lengths. -/
theorem encLengthsSumToTheBits : Obligations.EncLengthsSumToTheBits := by
  intro s hphase hovf hnf
  exact ⟨encStage s, exec_enc hphase hovf hnf, encStage_sum s, encStage_npkt_le s, fun _ => encStage_length_le,
    encStage_npkt_eq_zero_iff s⟩

/-! ### The working registers -/

/-- Bit `u` of the input stands in byte `u div 8`, most significant bit first (20_memory.md R60). -/
theorem inputBits_getElem? (s : State) {u : Nat} (h : u < 8 * s.nbytes) :
    s.inputBits[u]? = some ((s.inAt (u / 8)).getLsbD (7 - u % 8)) := by
  have hbyte : u / 8 < s.inputBytes.length := by simp [State.inputBytes]; omega
  have hplace : u = u / 8 * 8 + u % 8 := by omega
  have hbit : u % 8 < 8 := Nat.mod_lt _ (by decide)
  calc s.inputBits[u]? = s.inputBits[u / 8 * 8 + u % 8]? := by rw [← hplace]
    _ = (byteBits s.inputBytes[u / 8])[u % 8]? := getElem?_flatMap_block byteBits_length hbyte hbit
    _ = some ((s.inAt (u / 8)).getLsbD (7 - u % 8)) := by
      rw [byteBits_getElem? _ hbit]
      simp [State.inputBytes]

theorem inputBits_eq_nil {s : State} (h : s.nbytes = 0) : s.inputBits = [] :=
  List.eq_nil_of_length_eq_zero (by rw [inputBits_length, h])

theorem inputBits_getLast? {s : State} (h : 0 < s.nbytes) :
    s.inputBits.getLast? = some ((s.inAt (s.nbytes - 1)).getLsbD 0) := by
  have hbyte : (8 * s.nbytes - 1) / 8 = s.nbytes - 1 := by omega
  have hbit : 7 - (8 * s.nbytes - 1) % 8 = 0 := by omega
  rw [List.getLast?_eq_getElem?, inputBits_length, inputBits_getElem? s (by omega), hbyte, hbit]

/-- The encoder ends in the last run: its registers hold that run's length and the last bit of the stream. -/
theorem rleEncode_last {bits : List Bool} (h : bits ≠ []) :
    (rleEncode bits).reg.none = false
      ∧ (rleEncode bits).packets.getLast? = some ⟨(rleEncode bits).len, (rleEncode bits).reg.bit⟩
      ∧ bits.getLast? = some (rleEncode bits).reg.bit := by
  obtain ⟨r, hr, heq⟩ := rleEncode_after h
  rw [heq]
  refine ⟨hr.none, List.getLast?_concat, ?_⟩
  have hlen : r.len ≠ 0 := Nat.ne_of_gt hr.lenPos
  have hne : List.replicate r.len r.reg.bit ≠ [] := by rwa [Ne, List.replicate_eq_nil_iff]
  rw [← hr.stream, List.getLast?_append_of_ne_nil _ hne, List.getLast?_replicate, if_neg hlen]

theorem encStage_last_packet {s : State} (h : 0 < (encStage s).npkt) :
    (rleEncode s.inputBits).packets.getLast? = some ((encStage s).pktAt ((encStage s).npkt - 1)) := by
  rw [← packets_encStage, List.getLast?_eq_getElem?, packets_length, packets_getElem _ (by omega)]

/-- Settles O34: on an empty input the encoder stops in its start state with the discard done, on any other in the last
run. -/
theorem encWorkingRegisters : Obligations.EncWorkingRegisters := by
  intro s hphase hovf hnf
  refine ⟨encStage s, exec_enc hphase hovf hnf, rleEncode_drop s.inputBits, fun hempty => ?_, fun hpos => ?_⟩
  · rw [encStage_rleLen, encStage_rleBit, inputBits_eq_nil hempty, rleEncode_nil]
    decide
  · have hbits : s.inputBits ≠ [] := fun hnil => by
      have hlen := inputBits_length s
      rw [hnil, List.length_nil] at hlen
      omega
    obtain ⟨hnone, hpacket, hbit⟩ := rleEncode_last hbits
    have hnpkt : 0 < (encStage s).npkt := by
      have hzero := encStage_npkt_eq_zero_iff s
      omega
    have hlast := Option.some.inj (hpacket.symm.trans (encStage_last_packet hnpkt))
    refine ⟨hnpkt, ?_, hnone, ?_⟩
    · rw [← hlast, encStage_rleLen]
    · exact Option.some.inj (hbit.symm.trans (inputBits_getLast? hpos))

/-! ### Inputs whose runs are known -/

/-- The maximal runs being unique, packets that alternate, have positive lengths and expand to the stream are those
`ENC` leaves. -/
theorem encStage_packets_eq {s : State} {ps : List RunPacket} (hpos : ∀ p ∈ ps, 1 ≤ p.length) (halt : Alternating ps)
    (hstream : expandPackets ps = s.inputBits) : (encStage s).packets = ps := by
  rw [packets_encStage]
  refine expandPackets_unique _ _ (rleEncode_pos _) hpos (rleEncode_alternating _) halt ?_
  rw [rleEncode_stream, hstream]

theorem npkt_of_packets {s : State} {ps : List RunPacket} (h : s.packets = ps) : s.npkt = ps.length := by
  rw [← packets_length, h]

theorem pktAt_of_packets {s : State} {ps : List RunPacket} (h : s.packets = ps) {i : Nat} (hi : i < ps.length) :
    s.pktAt i = ps[i] := by
  subst h
  simp [State.packets]

/-- An input whose bits are all `b` is one run. -/
theorem encStage_uniform {s : State} {x : Byte} {b : Bool} (hx : ∀ c ∈ byteBits x, c = b) (hpos : 0 < s.nbytes)
    (h : ∀ i, i < s.nbytes → s.inAt i = x) :
    (encStage s).npkt = 1 ∧ (encStage s).pktAt 0 = ⟨8 * s.nbytes, b⟩ := by
  have hbits : s.inputBits = List.replicate (8 * s.nbytes) b := by
    refine List.eq_replicate_iff.2 ⟨inputBits_length s, fun c hc => ?_⟩
    obtain ⟨y, hy, hc⟩ := List.mem_flatMap.1 hc
    obtain ⟨i, hi, rfl⟩ := List.mem_map.1 hy
    rw [h i (List.mem_range.1 hi)] at hc
    exact hx c hc
  have hpackets : (encStage s).packets = [⟨8 * s.nbytes, b⟩] := by
    refine encStage_packets_eq (fun p hp => ?_) (List.isChain_singleton _) ?_
    · rw [List.mem_singleton.1 hp]
      exact Nat.mul_pos (by decide) hpos
    · rw [expandPackets_singleton, hbits]
  exact ⟨npkt_of_packets hpackets, pktAt_of_packets hpackets Nat.one_pos⟩

/-- One packet for every bit. -/
def unitPackets (f : Nat → Bool) (n : Nat) : List RunPacket := (List.range n).map fun i => ⟨1, f i⟩

theorem expandPackets_unitPackets (f : Nat → Bool) (n : Nat) :
    expandPackets (unitPackets f n) = (List.range n).map f := by
  rw [expandPackets, unitPackets, List.flatMap_map, List.map_eq_flatMap]
  rfl

theorem unitPackets_alternating {f : Nat → Bool} (hf : ∀ u, f u ≠ f (u + 1)) (n : Nat) :
    Alternating (unitPackets f n) := by
  rw [Alternating, unitPackets, List.isChain_map, List.isChain_range]
  exact fun u _ => hf u

/-- An input whose neighbouring bits all differ is runs of length 1. -/
theorem encStage_units {s : State} {x : Byte} {f : Nat → Bool} (hf : ∀ u, f u ≠ f (u + 1))
    (hx : ∀ u, x.getLsbD (7 - u % 8) = f u) (h : ∀ i, i < s.nbytes → s.inAt i = x) :
    (encStage s).npkt = 8 * s.nbytes ∧ ∀ i, i < (encStage s).npkt → (encStage s).pktAt i = ⟨1, f i⟩ := by
  have hbits : (List.range (8 * s.nbytes)).map f = s.inputBits := by
    refine List.ext_getElem? fun u => ?_
    rcases Nat.lt_or_ge u (8 * s.nbytes) with hu | hu
    · rw [inputBits_getElem? s hu, h _ (by omega), hx, List.getElem?_map, List.getElem?_range hu, Option.map_some]
    · rw [List.getElem?_eq_none (by rwa [List.length_map, List.length_range]),
        List.getElem?_eq_none (by rwa [inputBits_length])]
  have hpackets : (encStage s).packets = unitPackets f (8 * s.nbytes) := by
    refine encStage_packets_eq (fun p hp => ?_) (unitPackets_alternating hf _) ?_
    · obtain ⟨u, -, rfl⟩ := List.mem_map.1 hp
      exact Nat.le_refl 1
    · rw [expandPackets_unitPackets, hbits]
  have hlength : (unitPackets f (8 * s.nbytes)).length = 8 * s.nbytes := by
    rw [unitPackets, List.length_map, List.length_range]
  have hnpkt := (npkt_of_packets hpackets).trans hlength
  refine ⟨hnpkt, fun i hi => ?_⟩
  rw [pktAt_of_packets hpackets (by omega)]
  simp [unitPackets]

/-- A byte's bits, read round and round, follow the parity of the place when its first eight places do. -/
theorem getLsbD_of_parity {x : Byte} {f : Nat → Bool} (hx : ∀ j < 8, x.getLsbD (7 - j) = f j)
    (hf : ∀ u, f (u % 8) = f u) (u : Nat) : x.getLsbD (7 - u % 8) = f u := by
  rw [hx _ (Nat.mod_lt _ (by decide)), hf]

/-- Settles O35: the bytes 0x00 and 0xFF have one bit value, the bytes 0xAA and 0x55 alternate from their first bit. -/
theorem encCornerCases : Obligations.EncCornerCases := by
  intro s hphase hovf hnf
  refine ⟨encStage s, exec_enc hphase hovf hnf, (encStage_npkt_eq_zero_iff s).2, encStage_uniform (by decide),
    encStage_uniform (by decide), encStage_units (fun u => ?_) (getLsbD_of_parity (by decide) fun u => ?_),
    encStage_units (fun u => ?_) (getLsbD_of_parity (by decide) fun u => ?_)⟩
  · rw [Ne, decide_eq_decide]
    omega
  · exact decide_eq_decide.2 (by omega)
  · rw [Ne, decide_eq_decide]
    omega
  · exact decide_eq_decide.2 (by omega)

end Sys2Proof.Machine
end

section
/-! `RUN` (41_control_commands.md R102) as the four stages, the artifacts it leaves, and the entries a stage does not
write (R103). -/

namespace Sys2Proof.Machine

/-! ### What a stage leaves of the memories and counts it does not write -/

@[simp] theorem encStage_tblAt (s : State) (i : Nat) : (encStage s).tblAt i = s.tblAt i := rfl
@[simp] theorem encStage_outAt (s : State) (i : Nat) : (encStage s).outAt i = s.outAt i := rfl
@[simp] theorem rankStage_pktAt (s : State) (i : Nat) : (rankStage s).pktAt i = s.pktAt i := rfl
@[simp] theorem rankStage_outAt (s : State) (i : Nat) : (rankStage s).outAt i = s.outAt i := rfl
@[simp] theorem buildStage_pktAt (s : State) (i : Nat) : (buildStage s).pktAt i = s.pktAt i := rfl
@[simp] theorem buildStage_tblAt (s : State) (i : Nat) : (buildStage s).tblAt i = s.tblAt i := rfl
@[simp] theorem buildStage_outAt (s : State) (i : Nat) : (buildStage s).outAt i = s.outAt i := rfl
@[simp] theorem buildStage_tableRuns (s : State) : (buildStage s).tableRuns = s.tableRuns := rfl
@[simp] theorem packWritten_pktAt (s : State) (w : Writer) (i : Nat) : (packWritten s w).pktAt i = s.pktAt i := rfl
@[simp] theorem packWritten_tblAt (s : State) (w : Writer) (i : Nat) : (packWritten s w).tblAt i = s.tblAt i := rfl
@[simp] theorem packWritten_tableRuns (s : State) (w : Writer) : (packWritten s w).tableRuns = s.tableRuns := rfl
@[simp] theorem packWritten_npkt (s : State) (w : Writer) : (packWritten s w).npkt = s.npkt := rfl
@[simp] theorem packWritten_k (s : State) (w : Writer) : (packWritten s w).k = s.k := rfl
@[simp] theorem packWritten_codewidth (s : State) (w : Writer) : (packWritten s w).codewidth = s.codewidth := rfl
@[simp] theorem packWritten_wstate (s : State) (w : Writer) : (packWritten s w).wstate = ⟨0, 0⟩ := rfl
@[simp] theorem packWritten_err (s : State) (w : Writer) : (packWritten s w).err = s.err := rfl
@[simp] theorem packWritten_inputBytes (s : State) (w : Writer) : (packWritten s w).inputBytes = s.inputBytes := rfl

/-! ### The four stages in order -/

/-- The state a `RUN` hands to its `PACK`. -/
abbrev builtOf (s : State) : State := buildStage (rankStage (encStage s))

theorem builtOf_inputBytes (s : State) : (builtOf s).inputBytes = s.inputBytes := rfl

theorem builtOf_err (s : State) : (builtOf s).err = s.err := rfl

theorem builtOf_cover (s : State) : ∀ len ∈ (builtOf s).packetLengths, len ∈ (builtOf s).tableRuns := by
  intro len hlen
  rw [buildStage_tableRuns, tableRuns_rankStage, rankRuns_cover]
  exact hlen

/-- `RUN` completes, its output being the code stream (45_bit_packed_writer.md R154). -/
theorem runStages_after (s : State) :
    ∃ w, WriterAfter (builtOf s).codeStream w ∧ runStages s = packWritten (builtOf s) w :=
  ⟨_, packWriter_after _ _ _, packStage_of_written (packRuns_written writerStart (builtOf_cover s))⟩

theorem exec_run {s : State} (hphase : s.phase = .load) (hovf : s.err.ovf = false) (hnf : s.err.nf = false) :
    exec .run s = .next (runStages s) :=
  exec_of_allowed (i := .run) ⟨hphase, hovf, hnf⟩

/-- There are no more entries than packets (43_frequency_ranker.md R129). -/
theorem rankStage_k_le (s : State) : (rankStage s).k ≤ s.npkt := by
  rw [rankStage_k, ← packetLengths_length s]
  exact rankRuns_length_le _

/-- With no byte there is no packet, so no entry, no width and no output. -/
theorem runStages_of_empty {s : State} (h : s.nbytes = 0) :
    (runStages s).npkt = 0 ∧ (runStages s).k = 0 ∧ (runStages s).codewidth = 0 ∧ (runStages s).nout = 0 := by
  obtain ⟨w, hw, hrun⟩ := runStages_after s
  have hnpkt : (encStage s).npkt = 0 := (encStage_npkt_eq_zero_iff s).2 h
  have hk : (rankStage (encStage s)).k = 0 := Nat.le_zero.1 (hnpkt ▸ rankStage_k_le (encStage s))
  have hwidth : codeWidth (rankStage (encStage s)).k = 0 := codeWidth_of_le_one (hk ▸ Nat.zero_le 1)
  rw [hrun, packWritten_nout hw, packWritten_npkt, packWritten_k, packWritten_codewidth, buildStage_npkt, buildStage_k,
    buildStage_codewidth, rankStage_npkt, hnpkt, Nat.zero_mul]
  exact ⟨rfl, hk, hwidth, rfl⟩

/-- Settles O29: each stage leaves the phase and the flags the next one needs. -/
theorem runIsTheFourStages : Obligations.RunIsTheFourStages := by
  intro s hphase hovf hnf
  refine ⟨encStage s, rankStage (encStage s), builtOf s, runStages s, exec_enc hphase hovf hnf, exec_rank rfl hovf hnf,
    exec_build rfl hovf hnf, exec_of_allowed (i := .pack) ⟨rfl, hovf, hnf⟩, exec_run hphase hovf hnf,
    fun hempty => ⟨runStages_phase s, runStages_of_empty hempty⟩⟩

/-! ### The artifacts of a `RUN` -/

/-- What `RUN` leaves is what the pipeline functions give for its input (60_exceptions.md R175). -/
theorem runStages_artifacts (s : State) :
    (runStages s).packets = pipelinePackets s.inputBytes ∧ (runStages s).table = pipelineTable s.inputBytes
      ∧ (runStages s).codewidth = codeWidth (pipelineTable s.inputBytes).length
      ∧ (runStages s).outputBytes = pipelineOutput s.inputBytes := by
  obtain ⟨hpackets, htable, hwidth, houtput⟩ := artifacts_runStages s
  have hphase := runStages_phase s
  have hnumber : (runStages s).phase.number = 4 := by rw [hphase]; rfl
  have hinput : (runStages s).inputBytes = s.inputBytes := by
    obtain ⟨w, hrun⟩ := runStages_written s
    rw [hrun, packWritten_inputBytes, builtOf_inputBytes]
  rw [hinput] at hpackets htable hwidth houtput
  exact ⟨hpackets (by omega), htable (by omega), hwidth (by omega), houtput hphase⟩

/-! ### Entries a stage does not write -/

theorem tblAt_rankStage_beyond {s : State} {i : Nat} (h : (rankStage s).k ≤ i) : (rankStage s).tblAt i = s.tblAt i := by
  rw [tblAt_rankStage, List.getElem?_eq_none h, Option.getD_none]

theorem outAt_packWritten_beyond {s : State} {w : Writer} {i : Nat} (h : (packWritten s w).nout ≤ i) :
    (packWritten s w).outAt i = s.outAt i :=
  congrArg (Option.getD · _) (entry?_putFrom_beyond s.out h)

theorem outAt_packAborted_beyond {s : State} {w : Writer} {i : Nat} (h : w.bytes.length ≤ i) :
    (packAborted s w).outAt i = s.outAt i :=
  congrArg (Option.getD · _) (entry?_putFrom_beyond s.out h)

/-- What `RUN` leaves beyond its counts. -/
theorem runStages_beyond (s : State) :
    (∀ i, (runStages s).npkt ≤ i → (runStages s).pktAt i = s.pktAt i)
      ∧ (∀ i, (runStages s).k ≤ i → (runStages s).tblAt i = s.tblAt i)
      ∧ ∀ i, (runStages s).nout ≤ i → (runStages s).outAt i = s.outAt i := by
  obtain ⟨w, hrun⟩ := runStages_written s
  rw [hrun]
  refine ⟨fun i hi => ?_, fun i hi => ?_, fun i hi => ?_⟩
  · rw [packWritten_npkt, buildStage_npkt, rankStage_npkt] at hi
    rw [packWritten_pktAt, buildStage_pktAt, rankStage_pktAt, pktAt_encStage_beyond hi]
  · rw [packWritten_k, buildStage_k] at hi
    rw [packWritten_tblAt, buildStage_tblAt, tblAt_rankStage_beyond hi, encStage_tblAt]
  · rw [outAt_packWritten_beyond hi, buildStage_outAt, rankStage_outAt, encStage_outAt]

/-- Settles O30: the state is `runStages s`, whose flags are those of `s`. -/
theorem runCompletesSuccessfully : Obligations.RunCompletesSuccessfully := by
  intro s hphase hovf hnf
  obtain ⟨hpackets, htable, hwidth, houtput⟩ := runStages_artifacts s
  obtain ⟨hpkt, htbl, hout⟩ := runStages_beyond s
  obtain ⟨w, hrun⟩ := runStages_written s
  have herr : (runStages s).err = s.err := by rw [hrun, packWritten_err, builtOf_err]
  refine ⟨runStages s, exec_run hphase hovf hnf, ⟨runStages_phase s, herr ▸ hovf, herr ▸ hnf⟩,
    by rw [hrun, packWritten_wstate], hpackets, htable, hwidth, houtput, ?_, hpkt, htbl, hout⟩
  obtain ⟨p, np, pk, l, r, k, tb, c, n, o, ws, hframe⟩ := runStages_frame s
  rw [hframe]

/-! ### The bytes of an aborted `PACK` -/

/-- Up to the miss, the loop has put the codes of the lengths before it. -/
theorem packRuns_missed_writer {runs : List Nat} {width : Nat} {lens : List Nat} (w : Writer)
    (h : ∃ len ∈ lens, len ∉ runs) :
    packRuns runs width lens w =
      .missed ((packBits runs width (lens.takeWhile (· ∈ runs))).foldl putBit w) := by
  induction lens generalizing w with
  | nil => simp at h
  | cons len lens ih =>
    by_cases hlen : len ∈ runs
    · have hrest : ∃ x ∈ lens, x ∉ runs := by
        obtain ⟨x, hx, hn⟩ := h
        rcases List.mem_cons.1 hx with rfl | hx
        · exact absurd hlen hn
        · exact ⟨x, hx, hn⟩
      rw [packRuns, lookupCode_of_mem hlen]
      simp only [ih _ hrest, List.takeWhile_cons, hlen, decide_true, if_true, packBits, List.flatMap_cons,
        List.foldl_append, putCode]
    · rw [packRuns, lookupCode_of_not_mem hlen]
      simp [hlen, packBits]

/-- The complete bytes after a stream of `n` bits are `n div 8`. -/
theorem writerAfter_bytes_length {bits : List Bool} {w : Writer} (h : WriterAfter bits w) :
    w.bytes.length = bits.length / 8 := by
  have hlength := congrArg List.length h.stream
  have hbytes : (w.bytes.flatMap byteBits).length = w.bytes.length * 8 := by
    rw [List.length_flatMap, List.map_congr_left fun b _ => byteBits_length b, List.map_const', List.sum_replicate,
      smul_eq_mul]
  have hcur := w.cur.isLt
  rw [List.length_append, hbytes, List.length_take, byteBits_length] at hlength
  omega

/-- The bytes an aborted `PACK` has written are the complete ones of the codes before the miss. -/
theorem packStage_aborted {s : State} (h : ∃ len ∈ s.packetLengths, len ∉ s.tableRuns) :
    ∃ w, w.bytes.length = (s.packetLengths.takeWhile (· ∈ s.tableRuns)).length * s.codewidth / 8
      ∧ packStage s = packAborted s w := by
  refine ⟨_, ?_, packStage_of_missed (packRuns_missed_writer writerStart h)⟩
  rw [writerAfter_bytes_length (packWriter_after _ _ _), packBits_length]

/-- Settles O51: a refused command writes nothing, and each stage writes one memory from entry 0 on. -/
theorem stagesWriteNoOtherEntry : Obligations.StagesWriteNoOtherEntry := by
  intro i s t hi h
  rcases exec_cases h with ⟨hlegal, rfl⟩ | ⟨-, rfl⟩
  · simp only [List.mem_cons, List.not_mem_nil, or_false] at hi
    rcases hi with rfl | rfl | rfl | rfl | rfl
    · exact ⟨fun _ => pktAt_encStage_beyond, fun _ _ => rfl, fun _ _ _ => rfl, fun _ _ _ => rfl⟩
    · exact ⟨fun _ _ => rfl, fun _ => tblAt_rankStage_beyond, fun _ _ _ => rfl, fun _ _ _ => rfl⟩
    · exact ⟨fun _ _ => rfl, fun _ _ => rfl, fun _ _ _ => rfl, fun _ _ _ => rfl⟩
    · rcases packStage_cases s with ⟨-, hwritten⟩ | ⟨hmiss, -⟩
      · rw [effectOf, hwritten]
        exact ⟨fun _ _ => rfl, fun _ _ => rfl, fun _ _ => outAt_packWritten_beyond, fun hne => absurd rfl hne⟩
      · obtain ⟨w, hbytes, haborted⟩ := packStage_aborted hmiss
        rw [effectOf, haborted, ← hbytes]
        obtain ⟨hbuilt, -⟩ := (legal_iff_commandAllowed .pack s).1 hlegal
        exact ⟨fun _ _ => rfl, fun _ _ => rfl, fun hpacked => absurd (hbuilt.symm.trans hpacked) (by decide),
          fun _ _ => outAt_packAborted_beyond⟩
    · obtain ⟨hpkt, htbl, hout⟩ := runStages_beyond s
      exact ⟨hpkt, htbl, fun _ => hout, fun hne => absurd (runStages_phase s) hne⟩
  · exact ⟨fun _ _ => rfl, fun _ _ => rfl, fun _ _ _ => rfl, fun _ _ _ => rfl⟩

end Sys2Proof.Machine
end

section
/-! What a `RUN` says of its input (70_reset_and_hazards.md section 3, 95_test_vectors.md section 12): the complementary
input has the same output, and the output with the side information has one input. -/

namespace Sys2Proof.Machine

/-! ### The complementary input -/

/-- The packet of the complementary bits. -/
def RunPacket.flip (p : RunPacket) : RunPacket := { p with bitValue := !p.bitValue }

theorem expandPackets_flip (ps : List RunPacket) :
    expandPackets (ps.map RunPacket.flip) = (expandPackets ps).map (!·) := by
  simp only [expandPackets, List.flatMap_map, List.map_flatMap, List.map_replicate]
  rfl

theorem alternating_flip {ps : List RunPacket} (h : Alternating ps) : Alternating (ps.map RunPacket.flip) := by
  rw [Alternating, List.isChain_map]
  exact h.imp fun _ _ hne heq => hne (Bool.not_inj heq)

theorem inputBits_complement {s₁ s₂ : State} (hbytes : s₂.nbytes = s₁.nbytes)
    (h : ∀ i, i < s₁.nbytes → s₂.inAt i = ~~~ s₁.inAt i) : s₁.inputBits.map (!·) = s₂.inputBits := by
  refine List.ext_getElem? fun u => ?_
  rcases Nat.lt_or_ge u (8 * s₁.nbytes) with hu | hu
  · have hbit : 7 - u % 8 < 8 := by omega
    rw [List.getElem?_map, inputBits_getElem? s₁ hu, inputBits_getElem? s₂ (hbytes ▸ hu), h _ (by omega),
      BitVec.getLsbD_not, decide_eq_true hbit, Bool.true_and, Option.map_some]
  · rw [List.getElem?_eq_none (by rwa [List.length_map, inputBits_length]),
      List.getElem?_eq_none (by rwa [inputBits_length, hbytes])]

/-- The runs of the complementary stream are the complementary runs. -/
theorem encStage_complement {s₁ s₂ : State} (h : s₁.inputBits.map (!·) = s₂.inputBits) :
    (encStage s₂).packets = (encStage s₁).packets.map RunPacket.flip := by
  rw [packets_encStage s₁]
  refine encStage_packets_eq (fun p hp => ?_) (alternating_flip (rleEncode_alternating _)) ?_
  · obtain ⟨q, hq, rfl⟩ := List.mem_map.1 hp
    exact rleEncode_pos _ q hq
  · rw [expandPackets_flip, rleEncode_stream, h]

theorem map_length_flip (ps : List RunPacket) :
    (ps.map RunPacket.flip).map RunPacket.length = ps.map RunPacket.length := by
  rw [List.map_map]
  rfl

/-- The table, the width and the output are made from the lengths alone. -/
theorem pipeline_congr {bytes₁ bytes₂ : List Byte}
    (h : (pipelinePackets bytes₂).map RunPacket.length = (pipelinePackets bytes₁).map RunPacket.length) :
    pipelineTable bytes₂ = pipelineTable bytes₁ ∧ pipelineOutput bytes₂ = pipelineOutput bytes₁ := by
  have htable : pipelineTable bytes₂ = pipelineTable bytes₁ := by rw [pipelineTable, h, pipelineTable]
  exact ⟨htable, by rw [pipelineOutput, htable, h, pipelineOutput]⟩

/-- Settles O45: the packets are complementary, so their lengths agree, and with them all that is made from the
lengths. -/
theorem invertedInputGivesTheSameOutput : Obligations.InvertedInputGivesTheSameOutput := by
  intro s₁ s₂ hphase₁ hphase₂ hovf₁ hnf₁ hovf₂ hnf₂ hbytes hinput
  obtain ⟨hpackets₁, htable₁, hwidth₁, houtput₁⟩ := runStages_artifacts s₁
  obtain ⟨hpackets₂, htable₂, hwidth₂, houtput₂⟩ := runStages_artifacts s₂
  have hencoded : pipelinePackets s₂.inputBytes = (pipelinePackets s₁.inputBytes).map RunPacket.flip := by
    have hflip := encStage_complement (inputBits_complement hbytes hinput)
    rwa [packets_encStage, packets_encStage] at hflip
  have hflip : (runStages s₂).packets = (runStages s₁).packets.map RunPacket.flip := by
    rw [hpackets₁, hpackets₂, hencoded]
  have hlengths : (pipelinePackets s₂.inputBytes).map RunPacket.length =
      (pipelinePackets s₁.inputBytes).map RunPacket.length := by
    rw [hencoded, map_length_flip]
  obtain ⟨htable, houtput⟩ := pipeline_congr hlengths
  refine ⟨runStages s₁, runStages s₂, exec_run hphase₁ hovf₁ hnf₁, exec_run hphase₂ hovf₂ hnf₂, ?_, ?_, ?_, ?_,
    fun i hi => ?_⟩
  · rw [htable₁, htable₂, htable]
  · rw [hwidth₁, hwidth₂, htable]
  · rw [houtput₁, houtput₂, houtput]
  · rw [State.packetLengths, State.packetLengths, hpackets₁, hpackets₂, hlengths]
  · rw [← packets_length] at hi
    rw [pktAt_of_packets hflip (by rwa [List.length_map]), List.getElem_map, RunPacket.flip, pktAt_of_packets rfl hi]

/-! ### Reading the output back -/

/-- Codes that fit in the width are known by their bits (44_code_table.md R138, 45_bit_packed_writer.md R147). -/
theorem codeBits_inj {a b width : Nat} (ha : a < 2 ^ width) (hb : b < 2 ^ width)
    (h : codeBits a width = codeBits b width) : a = b := by
  refine Nat.eq_of_testBit_eq fun j => ?_
  rcases Nat.lt_or_ge j width with hj | hj
  · have hplace : width - 1 - (width - 1 - j) = j := by omega
    have hbit := congrArg (·[width - 1 - j]?) h
    simp only [codeBits_get _ (show width - 1 - j < width by omega), hplace] at hbit
    exact Option.some.inj hbit
  · have hpow : 2 ^ width ≤ 2 ^ j := Nat.pow_le_pow_right (by decide) hj
    rw [Nat.testBit_lt_two_pow (ha.trans_le hpow), Nat.testBit_lt_two_pow (hb.trans_le hpow)]

/-- So the code stream of as many lengths is the stream of these lengths only. -/
theorem packBits_inj {runs : List Nat} {width : Nat} (hfit : runs.length ≤ 2 ^ width) {lens₁ lens₂ : List Nat}
    (hlength : lens₁.length = lens₂.length) (hin₁ : ∀ len ∈ lens₁, len ∈ runs) (hin₂ : ∀ len ∈ lens₂, len ∈ runs)
    (h : packBits runs width lens₁ = packBits runs width lens₂) : lens₁ = lens₂ := by
  induction lens₁ generalizing lens₂ with
  | nil => exact (List.eq_nil_of_length_eq_zero hlength.symm).symm
  | cons len₁ lens₁ ih =>
    cases lens₂ with
    | nil => cases hlength
    | cons len₂ lens₂ =>
      have hmem₁ : len₁ ∈ runs := hin₁ _ List.mem_cons_self
      have hmem₂ : len₂ ∈ runs := hin₂ _ List.mem_cons_self
      simp only [packBits, List.flatMap_cons] at h
      obtain ⟨hcode, hrest⟩ := List.append_inj h (by rw [codeBits_length, codeBits_length])
      have hidx : runs.idxOf len₁ = runs.idxOf len₂ :=
        codeBits_inj ((List.idxOf_lt_length_of_mem hmem₁).trans_le hfit)
          ((List.idxOf_lt_length_of_mem hmem₂).trans_le hfit) hcode
      rw [(List.idxOf_inj hmem₁).1 hidx, ih (Nat.succ.inj hlength) (fun x hx => hin₁ x (List.mem_cons_of_mem _ hx))
        (fun x hx => hin₂ x (List.mem_cons_of_mem _ hx)) hrest]

/-- The width `BUILD` sets fits every code (44_code_table.md R138). -/
theorem buildStage_fits (s : State) : (buildStage s).k ≤ 2 ^ (buildStage s).codewidth := le_two_pow_codeWidth s.k

/-- The output of a complete `PACK`, with the run lengths, the width and `NPKT`, gives the lengths it wrote. -/
theorem packetLengths_of_output {s₁ s₂ : State} {w₁ w₂ : Writer} (hw₁ : WriterAfter s₁.codeStream w₁)
    (hw₂ : WriterAfter s₂.codeStream w₂) (hcover₁ : ∀ len ∈ s₁.packetLengths, len ∈ s₁.tableRuns)
    (hcover₂ : ∀ len ∈ s₂.packetLengths, len ∈ s₂.tableRuns) (hfit : s₁.k ≤ 2 ^ s₁.codewidth)
    (houtput : (flush w₁).bytes = (flush w₂).bytes) (hwidth : s₁.codewidth = s₂.codewidth)
    (hruns : s₁.tableRuns = s₂.tableRuns) (hnpkt : s₁.npkt = s₂.npkt) : s₁.packetLengths = s₂.packetLengths := by
  obtain ⟨n₁, hstream₁⟩ := flush_stream hw₁
  obtain ⟨n₂, hstream₂⟩ := flush_stream hw₂
  rw [houtput, hstream₂] at hstream₁
  obtain ⟨hcodes, -⟩ := List.append_inj hstream₁ (by rw [codeStream_length, codeStream_length, hwidth, hnpkt])
  rw [State.codeStream, State.codeStream, ← hwidth, ← hruns] at hcodes
  exact packBits_inj (by rwa [tableRuns_length]) (by rw [packetLengths_length, packetLengths_length, hnpkt]) hcover₁
    (hruns ▸ hcover₂) hcodes.symm

/-- Packets that alternate are known by their lengths and the first bit value (42_rle_encoder.md R117). -/
theorem packets_eq_of_lengths {s₁ s₂ : State} (halt₁ : Alternating s₁.packets) (halt₂ : Alternating s₂.packets)
    (hlengths : s₁.packetLengths = s₂.packetLengths)
    (hfirst : 0 < s₁.npkt → (s₁.pktAt 0).bitValue = (s₂.pktAt 0).bitValue) : s₁.packets = s₂.packets := by
  have hnpkt : s₁.npkt = s₂.npkt := by rw [← packetLengths_length, hlengths, packetLengths_length]
  have hentry : ∀ i ∈ List.range s₁.npkt, s₁.pktAt i = s₂.pktAt i := by
    intro i hi
    have hi₁ : i < s₁.npkt := List.mem_range.1 hi
    have hi₂ : i < s₂.npkt := hnpkt ▸ hi₁
    have hlength : (s₁.pktAt i).length = (s₂.pktAt i).length := by
      refine Option.some.inj ?_
      rw [← packetLengths_getElem s₁ hi₁, hlengths, packetLengths_getElem s₂ hi₂]
    have hbit : (s₁.pktAt i).bitValue = (s₂.pktAt i).bitValue := by
      rw [eq_xor_parity_of_neighbours_ne (fun _ => bitValue_ne_of_alternating halt₁) i hi₁,
        eq_xor_parity_of_neighbours_ne (fun _ => bitValue_ne_of_alternating halt₂) i hi₂, hfirst (by omega)]
    exact congrArg₂ RunPacket.mk hlength hbit
  rw [State.packets, State.packets, ← hnpkt]
  exact List.map_congr_left hentry

theorem byteBits_inj {a b : Byte} (h : byteBits a = byteBits b) : a = b := by
  refine BitVec.eq_of_getLsbD_eq fun j hj => ?_
  have hplace : 7 - (7 - j) = j := by omega
  have hbit := congrArg (·[7 - j]?) h
  simp only [byteBits_getElem? _ (show 7 - j < 8 by omega), hplace] at hbit
  exact Option.some.inj hbit

/-- A bit stream of whole bytes is the stream of these bytes only (20_memory.md R60). -/
theorem flatMap_byteBits_inj {bs cs : List Byte} (h : bs.flatMap byteBits = cs.flatMap byteBits) : bs = cs := by
  induction bs generalizing cs with
  | nil =>
    cases cs with
    | nil => rfl
    | cons c cs => cases h
  | cons b bs ih =>
    cases cs with
    | nil => cases h
    | cons c cs =>
      obtain ⟨hbyte, hrest⟩ := List.append_inj (t₁ := bs.flatMap byteBits) (t₂ := cs.flatMap byteBits) h rfl
      rw [byteBits_inj hbyte, ih hrest]

/-- The packets of an input, written back, are its bits, so they determine it. -/
theorem inputBytes_of_packets {s₁ s₂ : State} (h : (encStage s₁).packets = (encStage s₂).packets) :
    s₁.inputBytes = s₂.inputBytes := by
  rw [packets_encStage, packets_encStage] at h
  refine flatMap_byteBits_inj ?_
  calc s₁.inputBits = expandPackets (rleEncode s₁.inputBits).packets := (rleEncode_stream _).symm
    _ = s₂.inputBits := by rw [h, rleEncode_stream]

/-- Settles O46: the output gives the lengths, they and the first bit value the packets, and the packets the input. -/
theorem outputAndSideInformationDetermineTheInput : Obligations.OutputAndSideInformationDetermineTheInput := by
  intro s₁ s₂ t₁ t₂ hphase₁ hphase₂ hovf₁ hnf₁ hovf₂ hnf₂ hexec₁ hexec₂ houtput hwidth hruns hnpkt hfirst
  rw [exec_run hphase₁ hovf₁ hnf₁, Host.Outcome.next.injEq] at hexec₁
  rw [exec_run hphase₂ hovf₂ hnf₂, Host.Outcome.next.injEq] at hexec₂
  obtain ⟨w₁, hw₁, hrun₁⟩ := runStages_after s₁
  obtain ⟨w₂, hw₂, hrun₂⟩ := runStages_after s₂
  rw [← hexec₁, ← hexec₂, hrun₁, hrun₂] at houtput hwidth hruns hnpkt hfirst
  simp only [outputBytes_packWritten, packWritten_codewidth, packWritten_npkt, packWritten_pktAt,
    packWritten_tableRuns] at houtput hwidth hruns hnpkt hfirst
  have hlengths : (builtOf s₁).packetLengths = (builtOf s₂).packetLengths :=
    packetLengths_of_output hw₁ hw₂ (builtOf_cover s₁) (builtOf_cover s₂) (buildStage_fits _) houtput hwidth hruns hnpkt
  exact inputBytes_of_packets
    (packets_eq_of_lengths (encStage_alternating s₁) (encStage_alternating s₂) hlengths hfirst)

end Sys2Proof.Machine
end

section
/-! The loader (40_host_loader_serializer.md sections 1, 2 and 5): the header field by field, the pixels, and where
`load` stops. -/

namespace Sys2Proof.Machine

/-! ### Where `load` stops, the host stops -/

/-- A failed load ends the run with the status of its kind, the block untouched (R88, R92). -/
theorem compress_of_load_failed {p : HostParams} {source : InputFile} {e : HostError}
    (h : load p source = .error (.failed e)) (sink : OutputFile) (s : State) :
    compress p source sink s = (.stopped (exitStatus p e), s) := by
  rw [compress, h]

theorem load_of_header_stop {file : List Byte} {e : HostStop} (h : readHeader file = .error e) (p : HostParams) :
    load p (.bytes file) = .error e := by
  rw [load, loadBytes, h]
  rfl

theorem load_of_p5_stop {p : HostParams} {file rest : List Byte} {h : ImageHeader} {e : HostStop}
    (hheader : readHeader file = .ok (h, rest)) (hformat : h.format = .p5)
    (hpixels : readP5Pixels p h.maxGray (h.width * h.height) (rest.drop 1) = .error e) :
    load p (.bytes file) = .error e := by
  simp only [load, loadBytes, hheader, hformat, hpixels, bind, Except.bind]

theorem load_of_p2_stop {p : HostParams} {file rest : List Byte} {h : ImageHeader} {e : HostStop}
    (hheader : readHeader file = .ok (h, rest)) (hformat : h.format = .p2)
    (hpixels : readP2Pixels p h.maxGray (h.width * h.height) rest = .error e) :
    load p (.bytes file) = .error e := by
  simp only [load, loadBytes, hheader, hformat, hpixels, bind, Except.bind]

/-! ### The format token and the header -/

theorem readFormat_p2 {file : List Byte} (h : frontToken file = [0x50, 0x32]) : readFormat file = .ok .p2 := by
  rw [readFormat, if_pos h]

theorem readFormat_p5 {file : List Byte} (h : frontToken file = [0x50, 0x35]) : readFormat file = .ok .p5 := by
  have hne : ([0x50, 0x35] : List Byte) ≠ [0x50, 0x32] := by decide
  rw [readFormat, h, if_neg hne, if_pos rfl]

theorem readFormat_other {file : List Byte} (h2 : frontToken file ≠ [0x50, 0x32])
    (h5 : frontToken file ≠ [0x50, 0x35]) : readFormat file = .error (.failed .format) := by
  rw [readFormat, if_neg h2, if_neg h5]

/-- Settles O53: without a format there is no header. -/
theorem otherFormatTokensFail : Obligations.OtherFormatTokensFail := by
  refine ⟨fun _ => readFormat_p2, fun _ => readFormat_p5, fun p file sink s h2 h5 => ?_⟩
  have hheader : readHeader file = .error (.failed .format) := by
    rw [readHeader, readFormat_other h2 h5]
    rfl
  have hload := load_of_header_stop hheader p
  exact ⟨hload, compress_of_load_failed hload sink s⟩

/-- The header, its five parts being read one after the other: first the check of `maxGray`, then that of the dimensions
(log 16). -/
theorem readHeader_of_parts {file rest0 rest1 rest2 rest3 : List Byte} {format : PixelFormat}
    {width height maxGray : Nat} (hformat : readFormat file = .ok format)
    (hcomments : skipComments .midLine (file.drop 2) = .ok rest0) (hwidth : readNumber rest0 = .ok (width, rest1))
    (hheight : readNumber rest1 = .ok (height, rest2)) (hmax : readNumber rest2 = .ok (maxGray, rest3)) :
    readHeader file =
      if 255 < maxGray then .error (.failed .range)
      else if width = 0 ∨ height = 0 then .error (.refused .emptyDimension)
      else .ok (⟨format, width, height, maxGray⟩, rest3) := by
  simp only [readHeader, hformat, hcomments, hwidth, hheight, hmax, bind, Except.bind]

theorem load_of_large_maxGray {file rest0 rest1 rest2 rest3 : List Byte} {format : PixelFormat}
    {width height maxGray : Nat} (hformat : readFormat file = .ok format)
    (hcomments : skipComments .midLine (file.drop 2) = .ok rest0) (hwidth : readNumber rest0 = .ok (width, rest1))
    (hheight : readNumber rest1 = .ok (height, rest2)) (hmax : readNumber rest2 = .ok (maxGray, rest3))
    (hlarge : 255 < maxGray) (p : HostParams) : load p (.bytes file) = .error (.failed .range) := by
  refine load_of_header_stop ?_ p
  rw [readHeader_of_parts hformat hcomments hwidth hheight hmax, if_pos hlarge]

/-! ### Numerals written out -/

/-- A digit neither ends a token nor begins a comment. -/
theorem digit_facts : ∀ b : Byte, isDigit b = true → isSpace b = false ∧ b ≠ 0x23 ∧ b ≠ 0x0A := by decide +kernel

/-- A token of characters that are no whitespace, before one that is. -/
theorem frontToken_append {token rest : List Byte} {sep : Byte} (htoken : ∀ b ∈ token, isSpace b = false)
    (hsep : isSpace sep = true) : frontToken (token ++ sep :: rest) = token := by
  rw [frontToken, List.takeWhile_append_of_pos fun b hb => by rw [htoken b hb]; rfl,
    List.takeWhile_cons_of_neg (by rw [hsep]; decide), List.append_nil]

/-- A decimal numeral between whitespace is read as its value. -/
theorem readNumber_numeral {spaces digits rest : List Byte} {sep : Byte} (hspaces : ∀ b ∈ spaces, isSpace b = true)
    (hne : digits ≠ []) (hdigits : digits.all isDigit = true) (hsep : isSpace sep = true) :
    readNumber (spaces ++ (digits ++ sep :: rest)) = .ok (decimalValue digits, sep :: rest) := by
  have hdigit : ∀ b ∈ digits, isDigit b = true := List.all_eq_true.1 hdigits
  have htoken : frontToken (digits ++ sep :: rest) = digits :=
    frontToken_append (fun b hb => (digit_facts b (hdigit b hb)).1) hsep
  obtain ⟨d, ds, rfl⟩ := List.exists_cons_of_ne_nil hne
  obtain ⟨hspace, hhash, -⟩ := digit_facts d (hdigit d List.mem_cons_self)
  have hdrop : (spaces ++ (d :: ds ++ sep :: rest)).dropWhile isSpace = d :: ds ++ sep :: rest := by
    rw [List.dropWhile_append_of_pos hspaces, List.cons_append, List.dropWhile_cons_of_neg (by rw [hspace]; decide)]
  have hhead : ¬ (d :: ds).head? = some 0x23 := fun heq => hhash (Option.some.inj heq)
  simp only [readNumber]
  rw [hdrop, htoken, if_neg hne, if_neg hhead, if_pos hdigits, List.drop_left]

/-- A line that begins with a digit is no comment. -/
theorem skipComments_digit {d : Byte} (hd : isDigit d = true) (rest : List Byte) :
    skipComments .midLine (0x0A :: d :: rest) = .ok (d :: rest) := by
  obtain ⟨hspace, hhash, hline⟩ := digit_facts d hd
  rw [skipComments, if_pos rfl, skipComments, if_neg hline, if_neg (by rw [hspace]; decide), if_neg hhash]

theorem readFormat_text {kind : Byte} (hkind : kind = 0x32 ∨ kind = 0x35) (rest : List Byte) :
    ∃ format, readFormat ([0x50, kind] ++ 0x0A :: rest) = .ok format := by
  rcases hkind with rfl | rfl
  · exact ⟨.p2, readFormat_p2 (frontToken_append (by decide) (by decide))⟩
  · exact ⟨.p5, readFormat_p5 (frontToken_append (by decide) (by decide))⟩

/-- Settles O54: `maxGray` is checked as soon as it is read, and in a text each field is a numeral between
whitespace. -/
theorem largeMaxGrayFails : Obligations.LargeMaxGrayFails := by
  constructor
  · intro p sink s file rest0 rest1 rest2 rest3 format width height maxGray hformat hcomments hwidth hheight hmax hlarge
    have hload := load_of_large_maxGray hformat hcomments hwidth hheight hmax hlarge p
    exact ⟨hload, compress_of_load_failed hload sink s⟩
  · rintro p sink s kind width height maxGray rest hkind ⟨hwidth, hwidthDigits⟩ ⟨hheight, hheightDigits⟩
      ⟨hmax, hmaxDigits⟩ hlarge _ rfl
    obtain ⟨d, ds, rfl⟩ := List.exists_cons_of_ne_nil hwidth
    have hd : isDigit d = true := List.all_eq_true.1 hwidthDigits d List.mem_cons_self
    obtain ⟨format, hformat⟩ :=
      readFormat_text hkind (d :: ds ++ 0x20 :: (height ++ 0x0A :: (maxGray ++ 0x0A :: rest)))
    have hload := load_of_large_maxGray hformat (skipComments_digit hd _)
      (readNumber_numeral (spaces := []) (by decide) hwidth hwidthDigits (by decide))
      (readNumber_numeral (spaces := [0x20]) (by decide) hheight hheightDigits (by decide))
      (readNumber_numeral (spaces := [0x0A]) (by decide) hmax hmaxDigits (by decide)) hlarge p
    simp only [List.append_assoc, List.cons_append, List.nil_append] at hload ⊢
    exact ⟨hload, compress_of_load_failed hload sink s⟩

/-! ### A loaded grid -/

theorem readHeader_ok {file rest : List Byte} {h : ImageHeader} (hok : readHeader file = .ok (h, rest)) :
    h.maxGray ≤ 255 ∧ 1 ≤ h.width ∧ 1 ≤ h.height := by
  obtain ⟨format, hformat, hok⟩ := except_bind_ok hok
  obtain ⟨rest0, hcomments, hok⟩ := except_bind_ok hok
  obtain ⟨⟨width, rest1⟩, hwidth, hok⟩ := except_bind_ok hok
  obtain ⟨⟨height, rest2⟩, hheight, hok⟩ := except_bind_ok hok
  obtain ⟨⟨maxGray, rest3⟩, hmax, hok⟩ := except_bind_ok hok
  dsimp only at hok
  split at hok
  · cases hok
  · split at hok
    · cases hok
    · cases hok
      dsimp only
      omega

/-- What a successful load has read: a header, as many pixels as it says, and the rows they are cut into. -/
theorem loadBytes_ok {p : HostParams} {file : List Byte} {g : PixelGrid} (h : loadBytes p file = .ok g) :
    ∃ head rest pixels tail, readHeader file = .ok (head, rest)
      ∧ g = ⟨head.width, head.height, gridRows head.width head.height pixels⟩
      ∧ ((head.format = .p2 ∧ readP2Pixels p head.maxGray (head.width * head.height) rest = .ok (pixels, tail))
        ∨ (head.format = .p5 ∧ readP5Pixels p head.maxGray (head.width * head.height) (rest.drop 1) =
            .ok (pixels, tail))) := by
  obtain ⟨⟨head, rest⟩, hheader, h⟩ := except_bind_ok h
  cases hformat : head.format with
  | p2 =>
    simp only [hformat] at h
    obtain ⟨⟨pixels, tail⟩, hread, h⟩ := except_bind_ok h
    obtain ⟨_, htrailing, h⟩ := except_bind_ok h
    cases htrailing
    obtain ⟨-, -, h⟩ := except_bind_ok h
    cases h
    exact ⟨head, rest, pixels, tail, hheader, rfl, .inl ⟨hformat, hread⟩⟩
  | p5 =>
    simp only [hformat] at h
    obtain ⟨⟨pixels, tail⟩, hread, h⟩ := except_bind_ok h
    obtain ⟨-, -, h⟩ := except_bind_ok h
    cases h
    exact ⟨head, rest, pixels, tail, hheader, rfl, .inr ⟨hformat, hread⟩⟩

/-- A grid cut from bounded pixels is bounded: its rows hold no others. -/
theorem bounded_gridRows {width height maxGray : Nat} {pixels : List Byte} (hlength : pixels.length = width * height)
    (h : ∀ b ∈ pixels, b.toNat ≤ maxGray) :
    PixelGrid.bounded ⟨width, height, gridRows width height pixels⟩ maxGray := by
  intro row hrow pixel hpixel
  refine h pixel ?_
  rw [← (gridRows_ok hlength).2]
  exact List.mem_flatten.2 ⟨row, hrow, hpixel⟩

/-- Settles O56: the grid is the pixels read, cut into the header's rows, and serializing it gives them back. -/
theorem loadedGridIsFull : Obligations.LoadedGridIsFull := by
  intro p source g hload
  cases source with
  | unreadable => cases hload
  | bytes file =>
    obtain ⟨head, rest, pixels, tail, hheader, rfl, hpixels⟩ := loadBytes_ok hload
    obtain ⟨hmax, hwidth, hheight⟩ := readHeader_ok hheader
    have hread : PixelsRead p head.maxGray (head.width * head.height) pixels := by
      rcases hpixels with ⟨-, hread⟩ | ⟨-, hread⟩
      · exact readP2Pixels_ok hread
      · exact readP5Pixels_ok hread
    obtain ⟨hlength, hbound⟩ := hread
    obtain ⟨hwf, hserialize⟩ := gridRows_ok hlength
    refine ⟨file, head, rest, rfl, hheader, hwf, rfl, rfl, hwidth, hheight, hmax, serialize_length hwf,
      fun hvalid => bounded_gridRows hlength (hbound hvalid), fun hp5 => ?_, fun hp2 => ?_⟩
    · rw [serialize, hserialize]
      rcases hpixels with ⟨hformat, -⟩ | ⟨-, hread⟩
      · exact absurd (hformat.symm.trans hp5) (by decide)
      · rw [readP5Pixels_bytes hread, ← hlength, List.take_left]
    · rw [serialize, hserialize]
      rcases hpixels with ⟨-, hread⟩ | ⟨hformat, -⟩
      · exact ⟨tail, readP2Pixels_values hread⟩
      · exact absurd (hformat.symm.trans hp2) (by decide)

/-! ### Pixels that are not there, or out of range -/

theorem pixelOf_above {p : HostParams} {maxGray v : Nat} (hvalid : p.validatePixels = true) (h : maxGray < v) :
    pixelOf p maxGray v = .error (.failed .range) := by
  rw [pixelOf, if_pos ⟨hvalid, h⟩]

/-- One byte of a P5 file is a pixel or, validated and above `maxGray`, the end of the load. -/
theorem pixelOf_byte (p : HostParams) (maxGray : Nat) (b : Byte) :
    pixelOf p maxGray b.toNat = .ok b ∨ (p.validatePixels = true ∧ maxGray < b.toNat
      ∧ pixelOf p maxGray b.toNat = .error (.failed .range)) := by
  by_cases habove : p.validatePixels = true ∧ maxGray < b.toNat
  · exact .inr ⟨habove.1, habove.2, pixelOf_above habove.1 habove.2⟩
  · have hbyte : b.toNat ≤ 255 := Nat.le_of_lt_succ b.isLt
    refine .inl ?_
    rw [pixelOf_eq ⟨hbyte, fun hvalid => Nat.le_of_not_lt fun hlt => habove ⟨hvalid, hlt⟩⟩, BitVec.ofNat_toNat,
      BitVec.setWidth_eq]

theorem readP5Pixels_short {p : HostParams} {maxGray n : Nat} {raw : List Byte} (hshort : raw.length < n)
    (h : p.validatePixels = true → ∀ b ∈ raw, b.toNat ≤ maxGray) :
    readP5Pixels p maxGray n raw = .error (.failed .io) := by
  induction raw generalizing n with
  | nil =>
    obtain ⟨n, rfl⟩ := Nat.exists_eq_add_one_of_ne_zero hshort.ne'
    rfl
  | cons b raw ih =>
    obtain ⟨n, rfl⟩ := Nat.exists_eq_add_one_of_ne_zero (Nat.ne_zero_of_lt hshort)
    have hrest := ih (Nat.lt_of_succ_lt_succ hshort) fun hvalid x hx => h hvalid x (List.mem_cons_of_mem b hx)
    rcases pixelOf_byte p maxGray b with hok | ⟨hvalid, habove, -⟩
    · simp only [readP5Pixels, hok, hrest, bind, Except.bind]
    · exact absurd (h hvalid b List.mem_cons_self) habove.not_ge

theorem readP5Pixels_above {p : HostParams} {maxGray n i : Nat} {raw : List Byte} {pixel : Byte}
    (hvalid : p.validatePixels = true) (hi : i < n) (hpixel : raw[i]? = some pixel) (h : maxGray < pixel.toNat) :
    readP5Pixels p maxGray n raw = .error (.failed .range) := by
  induction raw generalizing n i with
  | nil => cases hpixel
  | cons b raw ih =>
    obtain ⟨n, rfl⟩ := Nat.exists_eq_add_one_of_ne_zero (Nat.ne_zero_of_lt hi)
    rcases pixelOf_byte p maxGray b with hok | ⟨-, -, herror⟩
    · cases i with
      | zero =>
        cases hpixel
        exact absurd (hok.symm.trans (pixelOf_above hvalid h)) (by simp)
      | succ i =>
        have hrest := ih (Nat.lt_of_succ_lt_succ hi) hpixel
        simp only [readP5Pixels, hok, hrest, bind, Except.bind]
    · simp only [readP5Pixels, herror, bind, Except.bind]

/-- After accepted values, the P2 reader stops where reading on stops. -/
theorem readP2Pixels_stop {p : HostParams} {maxGray n : Nat} {vs : List Nat} {file tail : List Byte} {e : HostStop}
    (hlt : vs.length < n) (hvalues : readValues vs.length file = .ok (vs, tail))
    (haccepted : ∀ v ∈ vs, pixelAccepted p maxGray v) (h : ∀ k, readP2Pixels p maxGray (k + 1) tail = .error e) :
    readP2Pixels p maxGray n file = .error e := by
  obtain ⟨k, rfl⟩ := Nat.exists_eq_add_of_lt hlt
  rw [Nat.add_assoc, readP2Pixels_after hvalues haccepted, h]
  rfl

/-- Settles O57: each format stops at the first pixel that is missing or, validated, above `maxGray`. -/
theorem loadFailuresStopTheHost : Obligations.LoadFailuresStopTheHost := by
  refine ⟨fun p source sink s e hload => ?_, fun _ => rfl, fun p file h rest hheader hformat hshort hbound => ?_,
    fun p file h rest i pixel hheader hformat hvalid hi hpixel habove => ?_,
    fun p file h rest tail vs hheader hformat hlt hvalues haccepted =>
      ⟨fun hend => ?_, fun v tail' hv hvalid habove => ?_⟩⟩
  · rw [compress_of_load_failed hload]
    cases e <;> rfl
  · obtain ⟨-, hwidth, hheight⟩ := readHeader_ok hheader
    have hpos : 0 < h.width * h.height := Nat.mul_pos hwidth hheight
    exact load_of_p5_stop hheader hformat (readP5Pixels_short (by rw [List.length_drop]; omega) hbound)
  · exact load_of_p5_stop hheader hformat (readP5Pixels_above hvalid hi hpixel habove)
  · refine load_of_p2_stop hheader hformat (readP2Pixels_stop hlt hvalues haccepted fun k => ?_)
    rw [readP2Pixels, readNumber_end hend]
    rfl
  · refine load_of_p2_stop hheader hformat (readP2Pixels_stop hlt hvalues haccepted fun k => ?_)
    simp only [readP2Pixels, hv, pixelOf_above hvalid habove, bind, Except.bind]

end Sys2Proof.Machine
end

section
/-! `RANK` against the pseudocode of R124 run on the block's own memory (43_frequency_ranker.md section 2): the state
the loops work on holds a list of entries, grouping is `countRun` on it and one round of the sort is `insertRanked`. -/

namespace Sys2Proof.Machine

/-! ### A table held in `TBL` -/

/-- State `t` is `s` with the entries `es` in `TBL` from entry 0 on and `K` their number. -/
def HoldsTable (s : State) (es : List FreqEntry) (t : State) : Prop :=
  (∃ m, t = { s with tbl := m, k := es.length }) ∧ ∀ i, t.tblAt i = (es[i]?).getD (s.tblAt i)

theorem tblAt_put (s : State) (m : Mem FreqEntry) (k i j : Nat) (e : FreqEntry) :
    State.tblAt { s with tbl := Mem.put m i e, k := k } j =
      if j = i then e else State.tblAt { s with tbl := m, k := k } j := by
  simp only [State.tblAt, entry?_put]
  split <;> rfl

theorem holdsTable_nil (s : State) : HoldsTable s [] { s with k := 0 } := ⟨⟨s.tbl, rfl⟩, fun _ => rfl⟩

theorem holdsTable_k {s t : State} {es : List FreqEntry} (h : HoldsTable s es t) : t.k = es.length := by
  obtain ⟨⟨m, rfl⟩, -⟩ := h
  rfl

theorem holdsTable_tblAt {s t : State} {es : List FreqEntry} (h : HoldsTable s es t) {i : Nat} (hi : i < es.length) :
    t.tblAt i = es[i] := by
  obtain ⟨-, hentries⟩ := h
  rw [hentries, List.getElem?_eq_getElem hi, Option.getD_some]

/-- `TBL[i] <- e` for a valid entry. -/
theorem holdsTable_set {s t : State} {es : List FreqEntry} (h : HoldsTable s es t) {i : Nat} (hi : i < es.length)
    (e : FreqEntry) : HoldsTable s (es.set i e) { t with tbl := Mem.put t.tbl i e } := by
  obtain ⟨⟨m, rfl⟩, hentries⟩ := h
  refine ⟨⟨Mem.put m i e, by rw [List.length_set]⟩, fun j => ?_⟩
  rw [tblAt_put, hentries, List.getElem?_set]
  by_cases hj : j = i
  · subst hj
    rw [if_pos rfl, if_pos rfl, if_pos hi, Option.getD_some]
  · rw [if_neg hj, if_neg (Ne.symm hj)]

/-- `TBL[K] <- e; K <- K + 1`. -/
theorem holdsTable_append {s t : State} {es : List FreqEntry} (h : HoldsTable s es t) (e : FreqEntry) :
    HoldsTable s (es ++ [e]) { t with tbl := Mem.put t.tbl t.k e, k := t.k + 1 } := by
  obtain ⟨⟨m, rfl⟩, hentries⟩ := h
  refine ⟨⟨Mem.put m es.length e, by rw [List.length_append, List.length_singleton]⟩, fun j => ?_⟩
  have hold : State.tblAt { s with tbl := m, k := es.length + 1 } j = (es[j]?).getD (s.tblAt j) := hentries j
  rw [tblAt_put, hold]
  rcases Nat.lt_trichotomy j es.length with hj | rfl | hj
  · rw [if_neg hj.ne, List.getElem?_append_left hj]
  · rw [if_pos rfl, List.getElem?_concat_length, Option.getD_some]
  · rw [if_neg hj.ne', List.getElem?_eq_none hj.le, List.getElem?_eq_none (by simpa using hj)]

/-! ### Grouping -/

theorem countRun_of_first {es : List FreqEntry} {len i : Nat} (hi : i < es.length) (hrun : es[i].runLength = len)
    (hfirst : ∀ j (hj : j < i), (es[j]'(hj.trans hi)).runLength ≠ len) :
    countRun es len = es.set i { es[i] with count := es[i].count + 1 } := by
  induction es generalizing i with
  | nil => cases hi
  | cons e es ih =>
    cases i with
    | zero =>
      have hhead : e.runLength = len := hrun
      rw [countRun, if_pos hhead]
      rfl
    | succ i =>
      have hne : e.runLength ≠ len := hfirst 0 (Nat.succ_pos i)
      have hrest : ∀ j (hj : j < i), (es[j]'(hj.trans (Nat.lt_of_succ_lt_succ hi))).runLength ≠ len :=
        fun j hj => hfirst (j + 1) (Nat.succ_lt_succ hj)
      rw [countRun, if_neg hne, ih (Nat.lt_of_succ_lt_succ hi) hrun hrest]
      rfl

theorem countRun_of_absent {es : List FreqEntry} {len : Nat} (h : ∀ e ∈ es, e.runLength ≠ len) :
    countRun es len = es ++ [⟨len, 1⟩] := by
  induction es with
  | nil => rfl
  | cons e es ih =>
    rw [countRun, if_neg (h e List.mem_cons_self), ih fun x hx => h x (List.mem_cons_of_mem e hx), List.cons_append]

/-- One round of the grouping loop. -/
theorem holdsTable_group {s t : State} {es : List FreqEntry} (h : HoldsTable s es t) (len : Nat) :
    HoldsTable s (countRun es len) (referenceGroup t len) := by
  have hk := holdsTable_k h
  unfold referenceGroup
  split
  case h_1 i hfind =>
    obtain ⟨hrun, hi, hfirst⟩ := List.find?_range_eq_some.1 hfind
    rw [List.mem_range, hk] at hi
    have hentry := holdsTable_tblAt h hi
    rw [decide_eq_true_iff, hentry] at hrun
    have hcount : countRun es len = es.set i { es[i] with count := es[i].count + 1 } := by
      refine countRun_of_first hi hrun fun j hj hrunj => ?_
      have hnot := hfirst j hj
      rw [holdsTable_tblAt h (hj.trans hi), hrunj] at hnot
      simp at hnot
    rw [hcount, hentry]
    exact holdsTable_set h hi _
  case h_2 hfind =>
    have habsent : ∀ e ∈ es, e.runLength ≠ len := by
      intro e he hrun
      obtain ⟨i, hi, rfl⟩ := List.getElem_of_mem he
      have hnot := List.find?_eq_none.1 hfind i (List.mem_range.2 (hk ▸ hi))
      rw [holdsTable_tblAt h hi, hrun] at hnot
      simp at hnot
    rw [countRun_of_absent habsent]
    exact holdsTable_append h ⟨len, 1⟩

theorem holdsTable_groups {s t : State} {es : List FreqEntry} (h : HoldsTable s es t) (lens : List Nat) :
    HoldsTable s (lens.foldl countRun es) (lens.foldl referenceGroup t) := by
  induction lens generalizing es t with
  | nil => exact h
  | cons len lens ih => exact ih (holdsTable_group h len)

/-! ### Sorting -/

/-- An entry that a later one must pass stays behind it, whatever stands before. -/
theorem insertRanked_append_of_lt {es : List FreqEntry} {x e : FreqEntry} (h : x.count < e.count) :
    insertRanked (es ++ [x]) e = insertRanked es e ++ [x] := by
  induction es with
  | nil => exact if_pos h
  | cons y es ih =>
    rw [List.cons_append, insertRanked, insertRanked, ih]
    split <;> rfl

theorem insertRanked_of_le {es : List FreqEntry} {e : FreqEntry} (h : ∀ x ∈ es, e.count ≤ x.count) :
    insertRanked es e = es ++ [e] := by
  induction es with
  | nil => rfl
  | cons x es ih =>
    rw [insertRanked, if_neg (h x List.mem_cons_self).not_gt, ih fun y hy => h y (List.mem_cons_of_mem x hy),
      List.cons_append]

/-- Larger counts first. -/
abbrev Descending (es : List FreqEntry) : Prop := es.Pairwise fun x y => y.count ≤ x.count

/-- The inner loop: below the free place at `xs.length` stands a descending list, into which `e` sinks from its end;
what the free place held does not matter. -/
theorem holdsTable_sink {s t : State} {xs ys : List FreqEntry} {old e : FreqEntry} (hxs : Descending xs)
    (h : HoldsTable s (xs ++ old :: ys) t) : HoldsTable s (insertRanked xs e ++ ys) (referenceSink e xs.length t) := by
  induction xs using List.reverseRecOn generalizing t old ys with
  | nil =>
    have hset := holdsTable_set h (i := 0) (by simp) e
    exact hset
  | append_singleton xs x ih =>
    obtain ⟨hfront, -, hlast⟩ := List.pairwise_append.1 hxs
    have hlength : (xs ++ [x]).length = xs.length + 1 := by rw [List.length_append, List.length_singleton]
    have hentry : t.tblAt xs.length = x := by
      rw [holdsTable_tblAt h (by simp)]
      simp
    have hset : ∀ v, HoldsTable s (xs ++ x :: v :: ys) { t with tbl := Mem.put t.tbl (xs.length + 1) v } := by
      intro v
      have hset := holdsTable_set h (i := xs.length + 1) (by simp) v
      simpa using hset
    rw [hlength, referenceSink, hentry]
    split
    case isTrue hlt =>
      rw [insertRanked_append_of_lt hlt, List.append_assoc]
      exact ih hfront (hset x)
    case isFalse hge =>
      have hall : ∀ y ∈ xs ++ [x], e.count ≤ y.count := by
        intro y hy
        rcases List.mem_append.1 hy with hy | hy
        · exact (Nat.le_of_not_lt hge).trans (hlast y hy x (List.mem_singleton_self x))
        · rw [List.mem_singleton.1 hy]
          exact Nat.le_of_not_lt hge
      rw [insertRanked_of_le hall]
      simpa using hset e

/-- The first `n` rounds of the sort, as R124 writes it. -/
def referenceSort (n : Nat) (t : State) : State :=
  (List.range' 1 n).foldl (fun t a => referenceSink (t.tblAt a) a t) t

theorem referenceSort_succ (n : Nat) (t : State) :
    referenceSort (n + 1) t = referenceSink ((referenceSort n t).tblAt (n + 1)) (n + 1) (referenceSort n t) := by
  rw [referenceSort, List.range'_1_concat, List.foldl_append, Nat.add_comm 1 n]
  rfl

/-- After `n` rounds the first `n + 1` entries are sorted and the others are where they were. -/
theorem holdsTable_sort {s t : State} {es : List FreqEntry} (h : HoldsTable s es t)
    (hsorted : ∀ n, Descending (sortRanked (es.take n))) {n : Nat} (hn : n + 1 ≤ es.length) :
    HoldsTable s (sortRanked (es.take (n + 1)) ++ es.drop (n + 1)) (referenceSort n t) := by
  induction n with
  | zero =>
    obtain ⟨e, es, rfl⟩ := List.exists_cons_of_ne_nil (List.ne_nil_of_length_pos hn)
    exact h
  | succ n ih =>
    have hprev := ih (by omega)
    have hlength : (sortRanked (es.take (n + 1))).length = n + 1 := by
      rw [(sortRanked_perm _).length_eq, List.length_take]
      omega
    rw [List.drop_eq_getElem_cons (by omega)] at hprev
    have hentry : (referenceSort n t).tblAt (n + 1) = es[n + 1] := by
      rw [holdsTable_tblAt hprev (by simp [hlength]; omega)]
      simp [hlength]
    have hsink := holdsTable_sink (e := es[n + 1]) (hsorted (n + 1)) hprev
    rw [hlength, ← sortRanked_append, List.take_append_getElem] at hsink
    rw [referenceSort_succ, hentry]
    exact hsink

/-- The table of the pseudocode is that of `rankRuns`. -/
theorem holdsTable_referenceSort (s : State) :
    HoldsTable s (rankRuns s.packetLengths)
      (referenceSort ((groupRuns s.packetLengths).length - 1)
        (s.packetLengths.foldl referenceGroup { s with k := 0 })) := by
  have hgrouped : HoldsTable s (groupRuns s.packetLengths) (s.packetLengths.foldl referenceGroup { s with k := 0 }) :=
    holdsTable_groups (holdsTable_nil s) s.packetLengths
  have hsorted : ∀ n, Descending (sortRanked ((groupRuns s.packetLengths).take n)) := by
    intro n
    have hfirst := (groupRuns_grouped s.packetLengths).firstSeen.sublist (List.take_sublist n _)
    rw [← List.map_take] at hfirst
    exact (sortRanked_before hfirst).imp fun hbefore => by simp only [Before] at hbefore; omega
  rcases Nat.eq_zero_or_pos (groupRuns s.packetLengths).length with hzero | hpos
  · have hnil := List.eq_nil_of_length_eq_zero hzero
    rw [hnil] at hgrouped
    rw [rankRuns, hnil]
    exact hgrouped
  · have hall := holdsTable_sort hgrouped hsorted (n := (groupRuns s.packetLengths).length - 1) (by omega)
    rwa [Nat.sub_add_cancel hpos, List.take_length, List.drop_length, List.append_nil] at hall

/-- Settles O37: both tables hold `rankRuns` of the packets' lengths and leave the entries beyond. -/
theorem rankAgreesWithTheReferenceAlgorithm : Obligations.RankAgreesWithTheReferenceAlgorithm := by
  intro s hphase hovf hnf
  have hgrouped := holdsTable_groups (holdsTable_nil s) s.packetLengths
  have hk : (s.packetLengths.foldl referenceGroup { s with k := 0 }).k = (groupRuns s.packetLengths).length :=
    holdsTable_k hgrouped
  obtain ⟨⟨m, hsame⟩, hentries⟩ := holdsTable_referenceSort s
  have hreference : referenceRank s =
      { s with tbl := m, k := (rankRuns s.packetLengths).length, phase := .ranked } := by
    rw [referenceRank, hk]
    exact congrArg (fun t : State => { t with phase := .ranked }) hsame
  refine ⟨rankStage s, exec_rank hphase hovf hnf, fun i => ?_, ?_⟩
  · rw [hsame] at hentries
    rw [tblAt_rankStage, ← hentries i, hreference]
    rfl
  · rw [hreference]
    rfl

end Sys2Proof.Machine
end

section
/-! The script notation (30_encoding.md section 5): lines whose expansion does not look at the block are their events
laid end to end. -/

namespace Sys2Proof.Machine

/-- The write of a command's word to `CMD` executes the command. -/
theorem busEvent_issue (i : Instr) (s : State) : busEvent (issue i) s = exec i s := by
  rw [issue, busEvent, busWrite_cmd rfl, commandWrite, decode_encode]

theorem runScript_line {l : ScriptLine} {es : List BusEvent} {s : State} (h : l.expand s = some es) :
    runScript [l] s = some (deliverAll es s) := by
  obtain ⟨t, ht⟩ := deliverAll_next es s
  rw [runScript_cons [] h ht, ht, runScript]

/-- A script of lines that expand to the same events in every state. -/
theorem runScript_map {α : Type} {line : α → ScriptLine} {events : α → List BusEvent} {xs : List α}
    (h : ∀ x ∈ xs, ∀ t, (line x).expand t = some (events x)) (s : State) :
    runScript (xs.map line) s = some (deliverAll (xs.flatMap events) s) := by
  induction xs generalizing s with
  | nil => rfl
  | cons x xs ih =>
    obtain ⟨t, ht⟩ := deliverAll_next (events x) s
    rw [List.map_cons, runScript_cons _ (h x List.mem_cons_self s) ht, List.flatMap_cons, deliverAll_append _ _ ht,
      ih fun y hy => h y (List.mem_cons_of_mem x hy)]

/-- The same for lines given with their events. -/
theorem runScript_pairs {ps : List (ScriptLine × List BusEvent)} (h : ∀ p ∈ ps, ∀ t, p.1.expand t = some p.2)
    (s : State) : runScript (ps.map Prod.fst) s = some (deliverAll (ps.flatMap Prod.snd) s) :=
  runScript_map h s

/-! ### The expansions of R74 -/

theorem deliverAll_stages {s : State} (hphase : s.phase = .load) (hovf : s.err.ovf = false) (hnf : s.err.nf = false) :
    deliverAll [issue .enc, issue .rank, issue .build, issue .pack] s = .next (runStages s) := by
  obtain ⟨a, b, c, t, henc, hrank, hbuild, hpack, hrun, -⟩ := runIsTheFourStages s hphase hovf hnf
  rw [exec_run hphase hovf hnf] at hrun
  simp only [deliverAll, busEvent_issue, henc, hrank, hbuild, hpack, hrun]

theorem runScript_stages (s : State) : runScript [.stages] s = runScript [.enc, .rank, .build, .pack] s := by
  refine (runScript_line rfl).trans (Eq.symm ?_)
  exact runScript_pairs (ps := [(.enc, [issue .enc]), (.rank, [issue .rank]), (.build, [issue .build]),
    (.pack, [issue .pack])]) (by simp [ScriptLine.expand]) s

theorem pushLine_of_le {b : Nat} (h : b ≤ 255) : pushLine b = some (issue (.push (BitVec.ofNat 8 b))) := if_pos h

theorem runScript_pushN {bs : List Nat} (h : ∀ b ∈ bs, b ≤ 255) (s : State) :
    runScript [.pushN bs] s = runScript (bs.map ScriptLine.push) s := by
  have hexpand : bs.mapM pushLine = some (bs.map fun b => issue (.push (BitVec.ofNat 8 b))) := by
    induction bs with
    | nil => rfl
    | cons b bs ih =>
      rw [List.mapM_cons, pushLine_of_le (h b List.mem_cons_self), ih fun x hx => h x (List.mem_cons_of_mem b hx)]
      rfl
  have hlines : ∀ b ∈ bs, ∀ t, (ScriptLine.push b).expand t = some [issue (.push (BitVec.ofNat 8 b))] :=
    fun b hb t => congrArg (Option.map fun e => [e]) (pushLine_of_le (h b hb))
  rw [runScript_line (l := .pushN bs) hexpand, runScript_map hlines, List.map_eq_flatMap]

theorem expand_peek {m i : Nat} (hm : m < 2 ^ 32) (hi : i < 2 ^ 32) (s : State) :
    (ScriptLine.peek m i).expand s = some (peekEvents m i) :=
  if_pos ⟨hm, hi⟩

theorem expand_wr (off : Nat) {w : Nat} (hw : w < 2 ^ 32) (s : State) :
    (ScriptLine.wr off w).expand s = some [.write off (BitVec.ofNat 32 w)] :=
  if_pos hw

theorem runScript_peek {m i : Nat} (hm : m < 2 ^ 32) (hi : i < 2 ^ 32) (s : State) :
    runScript [.peek m i] s = runScript [.wr 0x24 m, .wr 0x28 i, .rd 0x2C none, .rd 0x30 none] s := by
  refine (runScript_line (expand_peek hm hi s)).trans (Eq.symm ?_)
  exact runScript_pairs (ps := [(.wr 0x24 m, [writeOf .sel (BitVec.ofNat 32 m)]),
    (.wr 0x28 i, [writeOf .idx (BitVec.ofNat 32 i)]), (.rd 0x2C none, [readOf .rd0]), (.rd 0x30 none, [readOf .rd1])])
    (List.forall_mem_cons.2 ⟨expand_wr _ hm, List.forall_mem_cons.2 ⟨expand_wr _ hi,
      List.forall_mem_cons.2 ⟨fun _ => rfl, List.forall_mem_singleton.2 fun _ => rfl⟩⟩⟩) s

/-- Reads of registers, then `PEEK`s of the first `n` entries of a memory, laid out as lines. -/
theorem runScript_dump {reads : List Reg} {m n : Nat} (hm : m < 2 ^ 32) (hn : n < 2 ^ 32) (s : State) :
    runScript (reads.map (fun r => ScriptLine.rd r.offset.toNat none) ++ (List.range n).map (ScriptLine.peek m)) s =
      some (deliverAll (reads.map readOf ++ (List.range n).flatMap (peekEvents m)) s) := by
  have hreads : ∀ r ∈ reads, ∀ t, (ScriptLine.rd r.offset.toNat none).expand t = some [readOf r] := fun _ _ _ => rfl
  have hpeeks : ∀ i ∈ List.range n, ∀ t, (ScriptLine.peek m i).expand t = some (peekEvents m i) :=
    fun i hi => expand_peek hm ((List.mem_range.1 hi).trans hn)
  have hlines := runScript_pairs (s := s)
    (ps := reads.map (fun r => (ScriptLine.rd r.offset.toNat none, [readOf r]))
      ++ (List.range n).map (fun i => (.peek m i, peekEvents m i)))
    (List.forall_mem_append.2 ⟨List.forall_mem_map.2 hreads, List.forall_mem_map.2 hpeeks⟩)
  simp only [List.map_append, List.map_map, Function.comp_def, List.flatMap_append, List.flatMap_map] at hlines
  rw [hlines, List.map_eq_flatMap]

/-- Settles O59: both sides deliver the same events. -/
theorem pseudoInstructionsExpand : Obligations.PseudoInstructionsExpand := by
  refine ⟨fun s hphase hovf hnf => ⟨runStages s, ?_, ?_⟩, runScript_stages, fun s bs h => runScript_pushN h s,
    fun s m i hm hi => runScript_peek hm hi s, fun s hn => ?_, fun s hk => ?_⟩
  · rw [runScript_line (es := [issue .enc, issue .rank, issue .build, issue .pack]) rfl,
      deliverAll_stages hphase hovf hnf]
  · rw [runScript_line (es := [issue .run]) rfl]
    simp only [deliverAll, busEvent_issue, exec_run hphase hovf hnf]
  · rw [runScript_line (l := .dumpOut) rfl]
    exact (runScript_dump (reads := [.nout]) (by decide) hn s).symm
  · rw [runScript_line (l := .dumpTbl) rfl]
    exact (runScript_dump (reads := [.k, .codewidth]) (by decide) hk s).symm

end Sys2Proof.Machine
end

section
/-! The reference driver (40_host_loader_serializer.md sections 4 to 6): what its events return and leave, from the
clear to the side information. -/

namespace Sys2Proof.Machine

/-! ### Lists of events and the words they return -/

/-- Delivering `es` in state `s` returns the words `ws` and leaves state `t`. -/
def Delivers (es : List BusEvent) (s : State) (ws : List Word) (t : State) : Prop :=
  deliverAll es s = .next t ∧ t.replies = s.replies ++ ws

theorem delivers_nil (s : State) : Delivers [] s [] s := ⟨rfl, (List.append_nil _).symm⟩

theorem delivers_append {es fs : List BusEvent} {s t u : State} {ws vs : List Word} (h : Delivers es s ws t)
    (h' : Delivers fs t vs u) : Delivers (es ++ fs) s (ws ++ vs) u := by
  obtain ⟨hes, hws⟩ := h
  obtain ⟨hfs, hvs⟩ := h'
  exact ⟨(deliverAll_append es fs hes).trans hfs, by rw [hvs, hws, List.append_assoc]⟩

theorem delivers_singleton {e : BusEvent} {s t : State} {ws : List Word} (h : busEvent e s = .next t)
    (hws : t.replies = s.replies ++ ws) : Delivers [e] s ws t :=
  ⟨by simp only [deliverAll, h], hws⟩

theorem readsOf_of_delivers {es : List BusEvent} {s t : State} {ws : List Word} (h : Delivers es s ws t) :
    readsOf es s = some (ws, t) := by
  obtain ⟨hes, hws⟩ := h
  simp only [readsOf, hes, wordsSince, hws, List.drop_left]

/-- A command returns no word. -/
theorem delivers_issue {i : Instr} {s t : State} (h : exec i s = .next t) : Delivers [issue i] s [] t := by
  refine delivers_singleton ((busEvent_issue i s).trans h) ?_
  obtain ⟨-, -, -, -, -, -, -, -, -, hreplies⟩ := eachMemoryHasOneWritingCommand i s t h
  rw [hreplies, List.append_nil]

theorem delivers_read {r : Reg} (hr : r ∈ plainRegs) (s : State) :
    Delivers [readOf r] s [BitVec.ofNat 32 (r.fieldValue s)] (s.reply (BitVec.ofNat 32 (r.fieldValue s))) :=
  delivers_singleton (congrArg _ ((busRead_offset r s).trans (readReg_fieldValue hr s))) rfl

theorem delivers_sel (v : Word) (s : State) : Delivers [writeOf .sel v] s [] { s with sel := v.extractLsb' 0 2 } :=
  delivers_singleton (busWrite_sel (addr := Reg.sel.offset.toNat) rfl v s) (List.append_nil _).symm

theorem delivers_idx (v : Word) (s : State) : Delivers [writeOf .idx v] s [] { s with idx := v } :=
  delivers_singleton (busWrite_idx (addr := Reg.idx.offset.toNat) rfl v s) (List.append_nil _).symm

/-- A window read in range returns its number of the selected entry. -/
theorem delivers_rd0 {s : State} (h : s.idx.toNat < s.selectedCount) :
    Delivers [readOf .rd0] s [BitVec.ofNat 32 s.windowEntry.1] (s.reply (BitVec.ofNat 32 s.windowEntry.1)) := by
  refine delivers_singleton (congrArg _ ((busRead_offset .rd0 s).trans ?_)) rfl
  rw [readReg, windowRead, window_of_lt_count h]

theorem delivers_rd1 {s : State} (h : s.idx.toNat < s.selectedCount) :
    Delivers [readOf .rd1] s [BitVec.ofNat 32 s.windowEntry.2] (s.reply (BitVec.ofNat 32 s.windowEntry.2)) := by
  refine delivers_singleton (congrArg _ ((busRead_offset .rd1 s).trans ?_)) rfl
  rw [readReg, windowRead, window_of_lt_count h]

/-! ### Scanning a memory -/

/-- The first number of entry `i` of the memory `SEL` selects. -/
def State.selectedEntry (s : State) (i : Nat) : Nat := State.windowEntry { s with idx := BitVec.ofNat 32 i } |>.1

/-- States the host's reads lead to: at most `SEL`, `IDX` and the words returned differ. -/
def Browsed (s t : State) : Prop := ∃ sel idx ws, t = { s with sel := sel, idx := idx, replies := ws }

theorem samePipeline_of_browsed {s t : State} (h : Browsed s t) : SamePipeline s t := by
  obtain ⟨sel, idx, ws, rfl⟩ := h
  exact ⟨_, _, sel, idx, _, ws, rfl, rfl⟩

theorem browsed_refl (s : State) : Browsed s s := ⟨_, _, _, rfl⟩

theorem browsed_trans {s t u : State} (h : Browsed s t) (h' : Browsed t u) : Browsed s u := by
  obtain ⟨_, _, _, rfl⟩ := h
  obtain ⟨sel, idx, ws, rfl⟩ := h'
  exact ⟨sel, idx, ws, rfl⟩

/-- The table and the packets are the same after the reads. -/
theorem browsed_table_packets {s t : State} (h : Browsed s t) :
    t.k = s.k ∧ t.npkt = s.npkt ∧ t.tableRuns = s.tableRuns ∧ t.packets = s.packets := by
  obtain ⟨_, _, _, rfl⟩ := h
  exact ⟨rfl, rfl, rfl, rfl⟩

theorem browsed_reply (s : State) (w : Word) : Browsed s (s.reply w) := ⟨_, _, _, rfl⟩

theorem browsed_sel (s : State) (v : BitVec 2) : Browsed s { s with sel := v } := ⟨_, _, _, rfl⟩

theorem browsed_idx (s : State) (v : Word) : Browsed s { s with idx := v } := ⟨_, _, _, rfl⟩

/-- Entries in range, each by its index and a read of `RD0`. -/
theorem delivers_scan {s : State} {l : List Nat} (h : ∀ i ∈ l, i < s.selectedCount ∧ i < 2 ^ 32) :
    ∃ t, Browsed s t ∧ Delivers (l.flatMap fun i => [writeOf .idx (BitVec.ofNat 32 i), readOf .rd0]) s
      (l.map fun i => BitVec.ofNat 32 (s.selectedEntry i)) t := by
  induction l generalizing s with
  | nil => exact ⟨s, browsed_refl _, delivers_nil s⟩
  | cons i l ih =>
    obtain ⟨hcount, hword⟩ := h i List.mem_cons_self
    have hrange : (BitVec.ofNat 32 i).toNat < s.selectedCount := by
      rwa [BitVec.toNat_ofNat, Nat.mod_eq_of_lt hword]
    have hround := delivers_append (delivers_idx (BitVec.ofNat 32 i) s)
      (delivers_rd0 (s := { s with idx := BitVec.ofNat 32 i }) hrange)
    obtain ⟨t, hbrowsed, hrest⟩ := ih (s := State.reply { s with idx := BitVec.ofNat 32 i }
      (BitVec.ofNat 32 (s.selectedEntry i))) fun j hj => h j (List.mem_cons_of_mem i hj)
    exact ⟨t, browsed_trans (browsed_trans (browsed_idx s _) (browsed_reply _ _)) hbrowsed,
      delivers_append hround hrest⟩

theorem toNat_ofNat_of_lt {i : Nat} (h : i < 2 ^ 32) : (BitVec.ofNat 32 i).toNat = i := by
  rw [BitVec.toNat_ofNat, Nat.mod_eq_of_lt h]

theorem selectedEntry_tbl {s : State} (hsel : s.sel = 2) {i : Nat} (hi : i < 2 ^ 32) :
    s.selectedEntry i = (s.tblAt i).runLength := by
  simp only [State.selectedEntry, State.windowEntry, hsel, toNat_ofNat_of_lt hi]
  rfl

theorem selectedEntry_out {s : State} (hsel : s.sel = 3) {i : Nat} (hi : i < 2 ^ 32) :
    s.selectedEntry i = (s.outAt i).toNat := by
  simp only [State.selectedEntry, State.windowEntry, hsel, toNat_ofNat_of_lt hi]
  rfl

theorem selectedCount_pkt {s : State} (hsel : s.sel = 1) : s.selectedCount = s.npkt := by
  rw [State.selectedCount, hsel]
  rfl

theorem selectedCount_tbl {s : State} (hsel : s.sel = 2) : s.selectedCount = s.k := by
  rw [State.selectedCount, hsel]
  rfl

theorem selectedCount_out {s : State} (hsel : s.sel = 3) : s.selectedCount = s.nout := by
  rw [State.selectedCount, hsel]
  rfl

/-! ### Steps 3 to 6: clear, push, run -/

/-- `PUSH` of each byte, below capacity: the input grows by them. -/
theorem delivers_pushes {s : State} (bs : List Byte) (hs : s.Inv) (hload : s.phase = .load) (hovf : s.err.ovf = false)
    (hroom : s.nbytes + bs.length ≤ s.cfg.nmax) :
    ∃ t, Delivers (bs.map fun b => issue (.push b)) s [] t ∧ t.Inv ∧ t.phase = .load ∧ t.err = s.err
      ∧ t.inputBytes = s.inputBytes ++ bs := by
  induction bs generalizing s with
  | nil => exact ⟨s, delivers_nil s, hs, hload, rfl, (List.append_nil _).symm⟩
  | cons b bs ih =>
    rw [List.length_cons] at hroom
    have hne : s.nbytes ≠ s.cfg.nmax := by omega
    have hpush := delivers_issue (exec_push hload hovf hs.noMiss hne b)
    obtain ⟨t, hrest, hinv, hphase, herr, hinput⟩ :=
      ih (s := { s with inMem := Mem.put s.inMem s.nbytes b, nbytes := s.nbytes + 1 }) (inv_push hs hload hne b) hload
        hovf (by simp only; omega)
    refine ⟨t, delivers_append hpush hrest, hinv, hphase, herr, ?_⟩
    rw [hinput, inputBytes_push, List.append_assoc]
    rfl

/-- No flag is set. -/
def Err.clear : Err := ⟨false, false, false, false, false, false⟩

/-- The block after a successful `RUN` of an input (60_exceptions.md R175). -/
structure RanOn (bytes : List Byte) (t : State) : Prop where
  inv : t.Inv
  phase : t.phase = .packed
  err : t.err = Err.clear
  packets : t.packets = pipelinePackets bytes
  table : t.table = pipelineTable bytes
  width : t.codewidth = codeWidth (pipelineTable bytes).length
  output : t.outputBytes = pipelineOutput bytes

theorem runSuccessful_of_ranOn {bytes : List Byte} {t : State} (h : RanOn bytes t) : t.runSuccessful :=
  ⟨h.phase, by rw [h.err]; rfl, by rw [h.err]; rfl⟩

theorem ranOn_of_browsed {bytes : List Byte} {s t : State} (h : RanOn bytes s) (hb : Browsed s t) : RanOn bytes t := by
  have hinv : t.Inv := inv_samePipeline h.inv (samePipeline_of_browsed hb)
  obtain ⟨sel, idx, ws, rfl⟩ := hb
  exact ⟨hinv, h.phase, h.err, h.packets, h.table, h.width, h.output⟩

theorem ranOn_runStages {s : State} (hs : s.Inv) (hload : s.phase = .load) (herr : s.err = Err.clear) :
    RanOn s.inputBytes (runStages s) := by
  have hovf : s.err.ovf = false := by rw [herr]; rfl
  obtain ⟨hpackets, htable, hwidth, houtput⟩ := runStages_artifacts s
  obtain ⟨w, hrun⟩ := runStages_written s
  refine ⟨inv_effectOf (i := .run) hs ⟨hload, hovf, hs.noMiss⟩ rfl, runStages_phase s, ?_, hpackets, htable, hwidth,
    houtput⟩
  rw [hrun, packWritten_err, builtOf_err, herr]

/-- After a successful run `ERR` reads 0 and `STATUS` has `PHASE = PACKED`, `FATAL = 0`. -/
theorem delivers_status {bytes : List Byte} {t : State} (h : RanOn bytes t) :
    Delivers [readOf .err, readOf .status] t [0, 4] ((t.reply 0).reply 4) := by
  have herr : Reg.fieldValue t .err = 0 := by
    simp only [Reg.fieldValue, h.err]
    rfl
  have hstatus : ∀ w, Reg.fieldValue (t.reply w) .status = 4 := by
    intro w
    rw [fieldValue_status, reply_phase, h.phase, State.fatal, reply_err, h.err]
    rfl
  have hreads := delivers_append (delivers_read (r := .err) (by decide) t) (delivers_read (r := .status) (by decide) _)
  rw [herr, hstatus] at hreads
  exact hreads

theorem delivers_driverEvents {linear : List Byte} {s : State} (hc : s.cfg.wf) (hfit : linear.length ≤ s.cfg.nmax) :
    ∃ t, RanOn linear t ∧ Delivers (driverEvents linear) s [0, 4] t := by
  have hcleared : s.cleared.Inv := inv_resetWith hc _ _ _
  obtain ⟨t, hpushes, hinv, hload, herr, hinput⟩ :=
    delivers_pushes (s := s.cleared) linear hcleared rfl rfl (by rw [cleared_nbytes, cleared_cfg]; omega)
  have hbytes : t.inputBytes = linear := hinput
  have hovf : t.err.ovf = false := by rw [herr]; rfl
  have hran := ranOn_runStages hinv hload herr
  rw [hbytes] at hran
  refine ⟨_, ranOn_of_browsed hran (browsed_trans (browsed_reply _ 0) (browsed_reply _ 4)), ?_⟩
  exact delivers_append (delivers_append (delivers_issue (exec_clr s)) hpushes)
    (delivers_append (delivers_issue (exec_run hload hovf hinv.noMiss)) (delivers_status hran))

/-! ### Steps 7 and 8: the output and the side information -/

/-- Step 7: every output byte, as a word. -/
theorem delivers_readOut {t : State} (hn : t.nout < 2 ^ 32) :
    ∃ u, Browsed t u ∧ Delivers (driverReadOut t.nout) t (t.outputBytes.map (BitVec.setWidth 32)) u := by
  have hrange : ∀ i ∈ List.range t.nout, i < State.selectedCount { t with sel := 3 } ∧ i < 2 ^ 32 := fun i hi =>
    have hlt := List.mem_range.1 hi
    ⟨(selectedCount_out (s := { t with sel := 3 }) rfl).symm ▸ hlt, hlt.trans hn⟩
  obtain ⟨u, hbrowsed, hscan⟩ := delivers_scan hrange
  have hwords : (List.range t.nout).map (fun i => BitVec.ofNat 32 (State.selectedEntry { t with sel := 3 } i)) =
      t.outputBytes.map (BitVec.setWidth 32) := by
    rw [State.outputBytes, List.map_map]
    refine List.map_congr_left fun i hi => ?_
    rw [selectedEntry_out rfl (hrange i hi).2, BitVec.ofNat_toNat]
    rfl
  rw [hwords] at hscan
  exact ⟨u, browsed_trans (browsed_sel t 3) hbrowsed, delivers_append (delivers_sel 3 t) hscan⟩

/-- Step 8, the table: the run lengths in rank order. -/
theorem delivers_readRuns {t : State} (hk : t.k < 2 ^ 32) :
    ∃ u, Browsed t u ∧ Delivers
      (writeOf .sel 2 :: (List.range t.k).flatMap (fun i => [writeOf .idx (BitVec.ofNat 32 i), readOf .rd0])) t
      (t.tableRuns.map (BitVec.ofNat 32)) u := by
  have hrange : ∀ i ∈ List.range t.k, i < State.selectedCount { t with sel := 2 } ∧ i < 2 ^ 32 := fun i hi =>
    have hlt := List.mem_range.1 hi
    ⟨(selectedCount_tbl (s := { t with sel := 2 }) rfl).symm ▸ hlt, hlt.trans hk⟩
  obtain ⟨u, hbrowsed, hscan⟩ := delivers_scan hrange
  have hwords : (List.range t.k).map (fun i => BitVec.ofNat 32 (State.selectedEntry { t with sel := 2 } i)) =
      t.tableRuns.map (BitVec.ofNat 32) := by
    rw [State.tableRuns, State.table, List.map_map, List.map_map]
    refine List.map_congr_left fun i hi => ?_
    rw [selectedEntry_tbl rfl (hrange i hi).2]
    rfl
  rw [hwords] at hscan
  exact ⟨u, browsed_trans (browsed_sel t 2) hbrowsed, delivers_append (delivers_sel 2 t) hscan⟩

/-- The word of the first packet's `bitValue`, if there is a packet. -/
def firstBitWord (t : State) : Option Word := t.packets.head?.map fun p => BitVec.ofNat 32 p.bitValue.toNat

theorem packets_head? {t : State} (h : 0 < t.npkt) : t.packets.head? = some (t.pktAt 0) := by
  rw [List.head?_eq_getElem?, packets_getElem t h]

/-- Step 8, the packets: the first one's `bitValue`, where there is one. -/
theorem delivers_readFirstBit (t : State) :
    ∃ u, Browsed t u ∧ Delivers (if t.npkt = 0 then [] else [writeOf .sel 1, writeOf .idx 0, readOf .rd1]) t
      (firstBitWord t).toList u := by
  by_cases hzero : t.npkt = 0
  · have hnil : t.packets = [] := List.eq_nil_of_length_eq_zero ((packets_length t).trans hzero)
    rw [if_pos hzero, firstBitWord, hnil]
    exact ⟨t, browsed_refl _, delivers_nil t⟩
  · have hpos : 0 < t.npkt := Nat.pos_of_ne_zero hzero
    have hrange : 0 < State.selectedCount { t with sel := 1, idx := 0 } :=
      (selectedCount_pkt (s := { t with sel := 1, idx := 0 }) rfl).symm ▸ hpos
    have hreads := delivers_append (delivers_append (delivers_sel 1 t) (delivers_idx 0 _)) (delivers_rd1 hrange)
    rw [if_neg hzero, firstBitWord, packets_head? hpos]
    exact ⟨_, browsed_trans (browsed_trans (browsed_sel t 1) (browsed_idx _ 0)) (browsed_reply _ _), hreads⟩

theorem delivers_readSide {t : State} (hk : t.k < 2 ^ 32) :
    ∃ u, Browsed t u ∧ Delivers (driverReadSide t.k t.npkt) t
      (t.tableRuns.map (BitVec.ofNat 32) ++ (firstBitWord t).toList) u := by
  obtain ⟨v, hbrowsed, hruns⟩ := delivers_readRuns hk
  obtain ⟨u, hbrowsed', hbit⟩ := delivers_readFirstBit v
  obtain ⟨-, hnpkt, -, hpackets⟩ := browsed_table_packets hbrowsed
  rw [hnpkt, firstBitWord, hpackets] at hbit
  exact ⟨u, browsed_trans hbrowsed hbrowsed', delivers_append hruns hbit⟩

theorem collectOutput_eq {t : State} (ht : t.Inv) : ∃ u, Browsed t u ∧ collectOutput t = some (t.outputBytes, u) := by
  obtain ⟨-, -, -, -, -, -, -, hnout, -⟩ := capacitiesSuffice t ht
  have hn : t.nout < 2 ^ 32 := hnout.trans (by decide)
  have hcount : readsOf [readOf .nout] t = some ([BitVec.ofNat 32 t.nout], t.reply (BitVec.ofNat 32 t.nout)) :=
    readsOf_of_delivers (delivers_read (r := .nout) (by decide) t)
  obtain ⟨u, hbrowsed, hout⟩ := delivers_readOut (t := t.reply (BitVec.ofNat 32 t.nout)) hn
  have hbytes : readsOf (driverReadOut t.nout) (t.reply (BitVec.ofNat 32 t.nout)) =
      some (t.outputBytes.map (BitVec.setWidth 32), u) := readsOf_of_delivers hout
  have hnarrow : (t.outputBytes.map (BitVec.setWidth 32)).map (BitVec.setWidth 8) = t.outputBytes := by
    rw [List.map_map]
    refine (List.map_congr_left fun x _ => ?_).trans (List.map_id _)
    rw [Function.comp_apply, BitVec.setWidth_setWidth_of_le _ (by decide), BitVec.setWidth_eq, id]
  refine ⟨u, browsed_trans (browsed_reply t _) hbrowsed, ?_⟩
  simp only [collectOutput, hcount, bind, Option.bind, List.head?_cons, toNat_ofNat_of_lt hn, hbytes, hnarrow]

/-- The side information of a state (R91). -/
def State.sideInfo (t : State) : SideInfo where
  codewidth := t.codewidth
  k := t.k
  npkt := t.npkt
  runLengths := t.tableRuns
  firstBit := t.packets.head?.map RunPacket.bitValue

theorem firstBitWord_eq_one (t : State) :
    (firstBitWord t).map (fun w => decide (w = 1)) = t.packets.head?.map RunPacket.bitValue := by
  rw [firstBitWord, Option.map_map]
  refine congrArg (Option.map · _) (funext fun p => ?_)
  rw [Function.comp_apply]
  cases p.bitValue <;> rfl

/-- Step 8, the counts. -/
theorem delivers_counts (t : State) :
    ∃ u, Browsed t u ∧ Delivers [readOf .codewidth, readOf .k, readOf .npkt] t
      [BitVec.ofNat 32 t.codewidth, BitVec.ofNat 32 t.k, BitVec.ofNat 32 t.npkt] u :=
  ⟨_, browsed_trans (browsed_trans (browsed_reply t _) (browsed_reply _ _)) (browsed_reply _ _),
    delivers_append (delivers_read (r := .codewidth) (by decide) t)
      (delivers_append (delivers_read (r := .k) (by decide) _) (delivers_read (r := .npkt) (by decide) _))⟩

theorem collectSide_eq {t : State} (ht : t.Inv) : ∃ u, Browsed t u ∧ collectSide t = some (t.sideInfo, u) := by
  obtain ⟨-, -, -, -, hwidth, hnpkt, hk, -, -, -, -, hruns⟩ := capacitiesSuffice t ht
  have hk' : t.k < 2 ^ 32 := hk.trans_lt (by decide)
  obtain ⟨v, hbrowsed, hcounts⟩ := delivers_counts t
  have hnumbers : [BitVec.ofNat 32 t.codewidth, BitVec.ofNat 32 t.k, BitVec.ofNat 32 t.npkt].map BitVec.toNat =
      [t.codewidth, t.k, t.npkt] := by
    rw [List.map_cons, List.map_cons, List.map_singleton, toNat_ofNat_of_lt (hwidth.trans_lt (by decide)),
      toNat_ofNat_of_lt hk', toNat_ofNat_of_lt (hnpkt.trans_lt (by decide))]
  obtain ⟨hvk, hvnpkt, hvruns, hvpackets⟩ := browsed_table_packets hbrowsed
  obtain ⟨u, hbrowsed', hside⟩ := delivers_readSide (t := v) (hvk ▸ hk')
  rw [hvk, hvnpkt, hvruns, firstBitWord, hvpackets] at hside
  have hlength : (t.tableRuns.map (BitVec.ofNat 32)).length = t.k := by rw [List.length_map, tableRuns_length]
  have hback : (t.tableRuns.map (BitVec.ofNat 32)).map BitVec.toNat = t.tableRuns := by
    rw [List.map_map]
    refine (List.map_congr_left fun len hlen => ?_).trans (List.map_id _)
    obtain ⟨i, hi, rfl⟩ := (mem_tableRuns t len).1 hlen
    exact toNat_ofNat_of_lt ((hruns i hi).1.trans_lt (by decide))
  refine ⟨u, browsed_trans hbrowsed hbrowsed', ?_⟩
  simp only [collectSide, readsOf_of_delivers hcounts, hnumbers, bind, Option.bind, readsOf_of_delivers hside,
    List.take_left' hlength, List.drop_left' hlength, hback, Option.head?_toList]
  rw [State.sideInfo, ← firstBitWord_eq_one, firstBitWord]

/-- The side information of a successful run is that of the pipeline's packets and table. -/
theorem sideInfo_of_ranOn {bytes : List Byte} {t : State} (h : RanOn bytes t) :
    t.sideInfo =
      { codewidth := codeWidth (pipelineTable bytes).length, k := (pipelineTable bytes).length,
        npkt := (pipelinePackets bytes).length, runLengths := (pipelineTable bytes).map FreqEntry.runLength,
        firstBit := (pipelinePackets bytes).head?.map RunPacket.bitValue } := by
  rw [State.sideInfo, State.tableRuns, ← table_length, ← packets_length, h.width, h.packets, h.table]

/-! ### The whole driver -/

/-- After an image that fits the driver goes on to steps 7 and 8 from a successful run of its bytes. -/
theorem compressLinear_of_fits {linear : List Byte} {s : State} (hc : s.cfg.wf) (hfit : linear.length ≤ s.cfg.nmax)
    (p : HostParams) (sink : OutputFile) :
    ∃ t, RanOn linear t ∧ compressLinear p sink linear s = finishRun p sink t := by
  obtain ⟨t, hran, hevents⟩ := delivers_driverEvents hc hfit
  have hsuccess : driverSuccess 0 4 = true := by decide
  refine ⟨t, hran, ?_⟩
  rw [compressLinear, if_neg hfit.not_gt, readsOf_of_delivers hevents]
  simp only [hsuccess, if_true]

theorem finishRun_unwritable {t : State} (ht : t.Inv) (p : HostParams) :
    ∃ u, finishRun p .unwritable t = (.stopped p.ioErrorExit, u) := by
  obtain ⟨u, -, houtput⟩ := collectOutput_eq ht
  refine ⟨u, ?_⟩
  rw [finishRun, houtput]
  rfl

theorem finishRun_writable {bytes : List Byte} {t : State} (h : RanOn bytes t) (p : HostParams) :
    ∃ u, RanOn bytes u ∧ finishRun p .writable t =
      (.wrote (pipelineOutput bytes) (if p.readSide then some t.sideInfo else none), u) := by
  obtain ⟨v, hbrowsed, houtput⟩ := collectOutput_eq h.inv
  have hv : RanOn bytes v := ranOn_of_browsed h hbrowsed
  obtain ⟨u, hbrowsed', hside⟩ := collectSide_eq hv.inv
  have hsame : v.sideInfo = t.sideInfo := by rw [sideInfo_of_ranOn hv, sideInfo_of_ranOn h]
  rw [h.output] at houtput
  cases hread : p.readSide with
  | true =>
    refine ⟨u, ranOn_of_browsed hv hbrowsed', ?_⟩
    simp only [finishRun, houtput, hread, hside, hsame, if_true]
  | false =>
    refine ⟨v, hv, ?_⟩
    simp only [finishRun, houtput, hread, Bool.false_eq_true, if_false]

/-- Settles O58: steps 3 to 6 leave a successful run of the image's bytes, and steps 7 and 8 read its artifacts. -/
theorem driverWritesThePipelineOutput : Obligations.DriverWritesThePipelineOutput := by
  refine ⟨fun p source sink g s hload => by rw [compress, hload], fun p linear s hc => ⟨fun hfit => ⟨?_, ?_⟩,
    fun hlarge sink => ?_⟩⟩
  · obtain ⟨t, hran, hdriver⟩ := compressLinear_of_fits hc hfit p .writable
    obtain ⟨u, hu, hfinish⟩ := finishRun_writable hran p
    rw [sideInfo_of_ranOn hran] at hfinish
    exact ⟨u, runSuccessful_of_ranOn hu, hdriver.trans hfinish⟩
  · obtain ⟨t, hran, hdriver⟩ := compressLinear_of_fits hc hfit p .unwritable
    obtain ⟨u, hfinish⟩ := finishRun_unwritable hran.inv p
    exact ⟨u, hdriver.trans hfinish⟩
  · rw [compressLinear, if_pos hlarge]
    rfl

end Sys2Proof.Machine
end
